-- ==== Sys2Proof/Word.lean ====
section
/-! DEFINITION. The widths of the block that are no parameters (spec/00_scope.md R6, R7): a byte has 8 bits, a command
word, a payload word and a response word have 16. Bit 0 is the least significant bit. -/

namespace Sys2Proof

/-- An element of a RingBuffer, a data register slot (R6). -/
abbrev Byte := BitVec 8

/-- One word of the command port or of the response port (R6, R70). -/
abbrev Word := BitVec 16

end Sys2Proof
end

