-- ==== Sys2Proof/Syntax.lean ====
section
/-! DEFINITION. The command set AFR-CMD version 1 (spec/30_encoding.md R72, R78) and the responses (R74): what a command
and a response ARE, apart from their bits (Decode.lean) and their meaning (Machine/). -/

namespace Sys2Proof

/-- The value of a `dev` field, 0 to 15 (R71, R73). Whether the device exists depends on `NDEV`: see WellFormed.lean. -/
abbrev Dev := Fin 16

/-- One constructor for each row of spec/opcode_table.json. -/
inductive Instr where
  /-- `INIT d` (R122). -/
  | init (d : Dev)
  /-- `IRQEN d` (R123). -/
  | irqen (d : Dev)
  /-- `GIE v` (R116): `v` is the value written to `IE`. -/
  | gie (v : Bool)
  /-- `CSENTER` (R114). -/
  | csenter
  /-- `CSEXIT` (R115). -/
  | csexit
  /-- `RXSIZE d` (R124). -/
  | rxsize (d : Dev)
  /-- `RXDEQ d` (R125). -/
  | rxdeq (d : Dev)
  /-- `RXPEEK d, i` (R126): `i` is the operand byte, a logical index. -/
  | rxpeek (d : Dev) (i : Byte)
  /-- `SEND d, b` (R127). -/
  | send (d : Dev) (b : Byte)
  /-- `SENDB d, bytes` (R128): the payload, first byte first (R76). -/
  | sendb (d : Dev) (bytes : List Byte)
  /-- `RXDROPS d` (R129). -/
  | rxdrops (d : Dev)
  deriving DecidableEq, Repr

/-- The result of decode (R78), which is what `fg.cmd` holds (R35). -/
inductive Command where
  | legal (i : Instr)
  | illegal
  deriving DecidableEq, Repr, Inhabited

/-- The four status codes (R74, R151). -/
inductive Status where
  | ok
  | empty
  | full
  | err
  deriving DecidableEq, Repr, Inhabited

/-- A response before it is put into a word: status and 9-bit value (R74); `fg.rsp` holds one (R35). -/
structure Response where
  status : Status
  value : BitVec 9
  deriving DecidableEq, Repr, Inhabited

/-- The direction tag of a Channel (R33): receive or send. -/
inductive Dir where
  | rx
  | tx
  deriving DecidableEq, Repr

end Sys2Proof
end

