-- ==== Sys2Proof/Config.lean ====
section
/-! DEFINITION. The parameters of spec/00_scope.md R5, which the spec leaves open (92_eei_decisions.md D3), and the free
values: what the spec calls unspecified after a reset event (10_state.md R44; 93_implementation_defined.md U1, U2, U8). -/

namespace Sys2Proof

/-- `K(d,RX)` and `K(d,TX)` of one device: the capacities are `2^K` (R5). -/
structure DevConfig where
  kRx : Nat
  kTx : Nat
  deriving DecidableEq, Repr

/-- The parameters of R5. `NDEV` is the number of entries of `devs`. -/
structure Config where
  devs : List DevConfig
  csDepth : Nat
  deriving DecidableEq, Repr

/-- `NDEV` (R5). -/
def Config.ndev (c : Config) : Nat := c.devs.length

/-- The bounds of R5: `1 <= NDEV <= 16`, `0 <= K(d,q) <= 8`, `CSDEPTH >= 1`. -/
abbrev Config.wf (c : Config) : Prop :=
  1 ≤ c.ndev ∧ c.ndev ≤ 16 ∧ (∀ e ∈ c.devs, e.kRx ≤ 8 ∧ e.kTx ≤ 8) ∧ 1 ≤ c.csDepth

/-- The configuration `T` of 00_scope.md section 4: `NDEV = 2`, `C(0,RX) = 4`, `C(0,TX) = 4`, `C(1,RX) = 2`,
`C(1,TX) = 8`, `CSDEPTH = 2`. -/
def Config.T : Config := { devs := [⟨2, 2⟩, ⟨1, 3⟩], csDepth := 2 }

/-! ## Free values
Each takes the number of the reset event that leaves the item unspecified (`State.freeIdx`), so that two reset events
need not leave the same value. None has a body: no proof can use a value of one (log entries 10, 18). -/

/-- `B(d,q).head` after a reset event (R44: "any bit pattern"); cut to `K` bits where it is used. -/
opaque Config.freeHead : Nat → Nat → Dir → Nat

/-- `B(d,q).tail` after a reset event (R44). -/
opaque Config.freeTail : Nat → Nat → Dir → Nat

/-- `B(d,q).count` after a reset event (R44); cut to `K+1` bits where it is used. -/
opaque Config.freeCount : Nat → Nat → Dir → Nat

/-- Cell `a` of `B(d,q).storage` after a reset event (R44, U2). -/
opaque Config.freeCell : Nat → Nat → Dir → Nat → Byte

/-- `tx_data[d]` after a reset event (R44, U8). -/
opaque Config.freeTxData : Nat → Nat → Byte

/-- `rx_data[d]` from a take on, while `rx_valid[d] = 0` (R37, U8): after how many reset events, of which device, after
which bytes taken. -/
opaque Config.freeRxData : Nat → Nat → List Byte → Byte

/-- `fg.cmd` after a reset event (R44, U8). -/
opaque Config.freeCmd : Nat → Command

/-- `fg.sv` after a reset event (R44, U8). -/
opaque Config.freeSv : Nat → Bool

/-- `fg.rsp` after a reset event (R44, U8). -/
opaque Config.freeRsp : Nat → Response

end Sys2Proof
end

