-- ==== Sys2Proof/WellFormed.lean ====
section
/-! DEFINITION. Which terms of `Instr` are commands of a block with `NDEV` devices: the side conditions of
spec/30_encoding.md R78 that the type does not carry (`d < NDEV`; at most 255 payload bytes). -/

namespace Sys2Proof

/-- The device a command names, if it names one (R72). -/
def Instr.dev? : Instr → Option Dev
  | .init d => some d
  | .irqen d => some d
  | .gie _ => none
  | .csenter => none
  | .csexit => none
  | .rxsize d => some d
  | .rxdeq d => some d
  | .rxpeek d _ => some d
  | .send d _ => some d
  | .sendb d _ => some d
  | .rxdrops d => some d

/-- The payload of a command: only `SENDB` has one (R76). -/
def Instr.payload : Instr → List Byte
  | .sendb _ bytes => bytes
  | .init _ => []
  | .irqen _ => []
  | .gie _ => []
  | .csenter => []
  | .csexit => []
  | .rxsize _ => []
  | .rxdeq _ => []
  | .rxpeek _ _ => []
  | .send _ _ => []
  | .rxdrops _ => []

/-- The count field of `SENDB` has 8 bits (R73): the payload is at most 255 bytes. -/
def Instr.payloadFits (i : Instr) : Bool := decide (i.payload.length ≤ 255)

/-- A command that names a device names one the block has (R77 (c), R78). -/
def Instr.devExists (ndev : Nat) (i : Instr) : Bool :=
  match i.dev? with
  | some d => decide (d.val < ndev)
  | none => true

/-- R78: `d < NDEV` and a payload of at most 255 bytes; the other bounds stand in the types. -/
def Instr.wf (ndev : Nat) (i : Instr) : Bool := i.payloadFits && i.devExists ndev

end Sys2Proof
end

