-- ==== Sys2Proof/Decode.lean ====
section
/-! DEFINITION. Decode and encode (spec/30_encoding.md R71 to R78, R81): command words to commands, total on any list of
words, rejecting by name; commands to words; responses to words and back. -/

namespace Sys2Proof

/-! ## Fields of a header word (R71, R73) -/

/-- `w[15:12]`. -/
def opField (w : Word) : BitVec 4 := w.extractLsb' 12 4

/-- `w[11:8]`, the device select. -/
def devField (w : Word) : Dev := (w.extractLsb' 8 4).toFin

/-- `w[7:0]`, the operand byte. -/
def operandField (w : Word) : Byte := w.extractLsb' 0 8

/-- The header word with these three fields (R71). -/
def header (op : BitVec 4) (d : Dev) (operand : Byte) : Word := op ++ (BitVec.ofFin d : BitVec 4) ++ operand

/-! ## The opcode map (R72) -/

/-- One row of R72: the words it selects, whether its command is wrapped, and the command, built from the device,
the operand byte and the payload bytes. -/
structure OpRow where
  pat : Word
  mask : Word
  wrapped : Bool
  build : Dev → Byte → List Byte → Instr

/-- R72: "A header word `w` selects the command of a row when `(w AND mask) = match`." -/
def OpRow.selects (r : OpRow) (w : Word) : Bool := (w &&& r.mask) == r.pat

/-- The table of R72, in its order. -/
def opRows : List OpRow := [
  ⟨0x1000, 0xF0FF, true, fun d _ _ => .init d⟩,
  ⟨0x2000, 0xF0FF, false, fun d _ _ => .irqen d⟩,
  ⟨0x3000, 0xFFFE, false, fun _ v _ => .gie (v.getLsbD 0)⟩,
  ⟨0x4000, 0xFFFF, false, fun _ _ _ => .csenter⟩,
  ⟨0x5000, 0xFFFF, false, fun _ _ _ => .csexit⟩,
  ⟨0x6000, 0xF0FF, true, fun d _ _ => .rxsize d⟩,
  ⟨0x7000, 0xF0FF, true, fun d _ _ => .rxdeq d⟩,
  ⟨0x8000, 0xF000, true, fun d i _ => .rxpeek d i⟩,
  ⟨0x9000, 0xF000, true, fun d b _ => .send d b⟩,
  ⟨0xA000, 0xF000, true, fun d _ bytes => .sendb d bytes⟩,
  ⟨0xB000, 0xF0FF, true, fun d _ _ => .rxdrops d⟩]

/-- The column "wrapped" of R72, by command. -/
def Instr.wrapped : Instr → Bool
  | .init _ => true
  | .irqen _ => false
  | .gie _ => false
  | .csenter => false
  | .csexit => false
  | .rxsize _ => true
  | .rxdeq _ => true
  | .rxpeek _ _ => true
  | .send _ _ => true
  | .sendb _ _ => true
  | .rxdrops _ => true

/-- The device whose transmit-ready interrupt step F4 of the command arms: `SEND` and `SENDB` only (R121). -/
def Instr.arms : Instr → Option Dev
  | .send d _ => some d
  | .sendb d _ => some d
  | .init _ => none
  | .irqen _ => none
  | .gie _ => none
  | .csenter => none
  | .csexit => none
  | .rxsize _ => none
  | .rxdeq _ => none
  | .rxpeek _ _ => none
  | .rxdrops _ => none

/-! ## Decode -/

/-- Why words are no command. `noHeader` and `payloadMissing` say that the words are not all there yet (R121, F0: a
command is its header and, for `SENDB`, its payload); the others are the illegal headers of R77. -/
inductive Reject where
  | noHeader
  | payloadMissing
  /-- R77 (a): `op` is 0x0 or 0xC to 0xF. -/
  | reservedOpcode
  /-- R77 (b): `op` selects a row and a must-be-zero bit is 1. -/
  | mustBeZero
  /-- R77 (c): the command names a device and `dev >= NDEV`. -/
  | noSuchDevice
  deriving DecidableEq, Repr

/-- R76: how many payload words follow a header, told from the header alone "whatever the other fields hold". -/
def payloadCount (w : Word) : Nat := if opField w = 0xA then (operandField w).toNat else 0

/-- The words of the next command of a stream: header, payload words, the rest (R76). `none`: not all presented. -/
def takeCommand : List Word → Option (Word × List Word × List Word)
  | [] => none
  | w :: ws =>
    if payloadCount w ≤ ws.length then some (w, ws.take (payloadCount w), ws.drop (payloadCount w)) else none

/-- R76: `bytes[k] = p_k[7:0]`; `p_k[15:8]` is ignored. -/
def payloadBytes (p : List Word) : List Byte := p.map operandField

/-- R77 (a). -/
def reservedOp (op : BitVec 4) : Bool := op == 0 || decide (0xC ≤ op.toNat)

/-- The command of a header and its payload words, for a block with all 16 devices (R72, R77 (a), (b)). -/
def decodeHeader (w : Word) (p : List Word) : Except Reject Instr :=
  match opRows.find? (·.selects w) with
  | some r => .ok (r.build (devField w) (operandField w) (payloadBytes p))
  | none => .error (if reservedOp (opField w) then .reservedOpcode else .mustBeZero)

/-- Decode a stream of words: the first command and the words after it. -/
def decode (ws : List Word) : Except Reject (Instr × List Word) :=
  match takeCommand ws with
  | none => .error (if ws.isEmpty then .noHeader else .payloadMissing)
  | some (w, p, rest) =>
    match decodeHeader w p with
    | .ok i => .ok (i, rest)
    | .error e => .error e

/-- The reason a header and its payload are illegal in a block with `ndev` devices, if they are (R77). -/
def rejects (ndev : Nat) (w : Word) (p : List Word) : Option Reject :=
  match decodeHeader w p with
  | .ok i => if i.devExists ndev then none else some .noSuchDevice
  | .error e => some e

/-- R78: the result of decode for a header word and its payload words. -/
def decodeCommand (ndev : Nat) (w : Word) (p : List Word) : Command :=
  match decodeHeader w p with
  | .ok i => if i.devExists ndev then .legal i else .illegal
  | .error _ => .illegal

/-! ## Encode -/

/-- R76, R79: payload word `0x00bb` for a byte. -/
def payloadWord (b : Byte) : Word := b.setWidth 16

/-- The header word of a command (R72). -/
def encodeHeader : Instr → Word
  | .init d => header 0x1 d 0
  | .irqen d => header 0x2 d 0
  | .gie v => header 0x3 0 (if v then 1 else 0)
  | .csenter => header 0x4 0 0
  | .csexit => header 0x5 0 0
  | .rxsize d => header 0x6 d 0
  | .rxdeq d => header 0x7 d 0
  | .rxpeek d i => header 0x8 d i
  | .send d b => header 0x9 d b
  | .sendb d bytes => header 0xA d (BitVec.ofNat 8 bytes.length)
  | .rxdrops d => header 0xB d 0

/-- The words of a command, the header first (R72, R76). -/
def encode (i : Instr) : List Word := encodeHeader i :: i.payload.map payloadWord

/-! ## Responses (R74) -/

/-- The status field `r[15:14]`. -/
def Status.bits : Status → BitVec 2
  | .ok => 0
  | .empty => 1
  | .full => 2
  | .err => 3

/-- The status of a status field. -/
def Status.ofBits (b : BitVec 2) : Status :=
  if b = 0 then .ok else if b = 1 then .empty else if b = 2 then .full else .err

/-- The response word: `status` in 15:14, zero in 13:9, `value` in 8:0. -/
def Response.word (r : Response) : Word := r.status.bits ++ (0 : BitVec 5) ++ r.value

/-- Status and value of a response word. -/
def decodeResponse (w : Word) : Response := ⟨Status.ofBits (w.extractLsb' 14 2), w.extractLsb' 0 9⟩

/-! ## Pseudo-commands (R81) -/

/-- `EI` = `GIE 1`. -/
def pseudoEI : Instr := .gie true

/-- `DI` = `GIE 0`. -/
def pseudoDI : Instr := .gie false

/-- `SENDS d, "text"` = `SENDB d` with the ASCII code of each character. -/
def pseudoSENDS (d : Dev) (text : List Char) : Instr := .sendb d (text.map fun c => BitVec.ofNat 8 c.toNat)

/-! ## The words of one number -/

/-- The words a number stands for when its bits are numbered from the first word on: header in bits 15..0, payload word
`k` in the 16 bits from `16 * (k + 1)`; bits from `nbits` up are 0. As many payload words as the header asks for. -/
def wordsOfNumber (nbits w : Nat) : List Word :=
  let v := w % 2 ^ nbits
  let h := BitVec.ofNat 16 v
  h :: (List.range (payloadCount h)).map fun k => BitVec.ofNat 16 (v / 2 ^ (16 * (k + 1)))

/-- The instruction the decoder reads from the words of a number (see `wordsOfNumber`). -/
def decodeTableWord (nbits w : Nat) : Option Instr :=
  match decode (wordsOfNumber nbits w) with
  | .ok (i, _) => some i
  | .error _ => none

end Sys2Proof
end

