-- ==== Sys2Proof/Machine/State.lean ====
section
/-! DEFINITION. The state of the block (spec/10_state.md R20 to R44), the moves of its agents (spec/00_scope.md R8), the
reasons a step can stop, and the state after reset. -/

namespace Sys2Proof.Machine

/-! ## Storage -/

/-- One private byte memory (spec/20_memory.md R50): the cells that differ from `Memory.unlisted`, by physical index. -/
abbrev Memory := List Host.Cell

/-- What a cell that no write has reached reads as (log entry 6). R99: no operation of the block returns it. -/
def Memory.unlisted : Byte := 0

/-- The canonical form: indices strictly rising, no entry equal to what an unlisted cell reads as. -/
abbrev Memory.wf (m : Memory) : Prop :=
  m.Pairwise (fun x y => x.1 < y.1) ∧ ∀ x ∈ m, x.2 ≠ Memory.unlisted

/-- A RingBuffer (R21, R22, R90). `k` is the constant `K(d,q)`, which no operation writes. -/
structure RingBuffer where
  k : Nat
  storage : Memory
  /-- "next write index" -/
  head : Nat
  /-- "next read index" -/
  tail : Nat
  /-- "number of live elements" -/
  count : Nat
  deriving DecidableEq, Repr

/-- What the block and its transceiver hold for one device: both RingBuffers, the two enables (R27, R28), the drop
counter (R31), the interface signals (R37, R38), the traces (R42, ghost) and the flag of U1 (ghost). -/
structure Device where
  rx : RingBuffer
  tx : RingBuffer
  rxie : Bool
  txie : Bool
  rxDrop : Byte
  rxValid : Bool
  rxData : Byte
  txReady : Bool
  txData : Byte
  /-- `rx_log[d]`, oldest byte first -/
  rxLog : List Byte
  /-- `tx_log[d]`, oldest byte first -/
  txLog : List Byte
  /-- set by step F2 of `INIT d`, cleared by reset (93_implementation_defined.md U1) -/
  initialised : Bool
  deriving DecidableEq, Repr

/-! ## The foreground sequencer (R35) -/

/-- `fg.phase`. -/
inductive Phase where
  | idle
  | accepted
  | cs
  | opDone
  | restored
  | armed
  deriving DecidableEq, Repr

/-- The four sequencer registers. -/
structure Fg where
  phase : Phase
  cmd : Command
  /-- the value of `IE` saved by the implicit critical section -/
  sv : Bool
  rsp : Response
  deriving DecidableEq, Repr

/-! ## Moves -/

/-- One choice of the scheduler and of ENV (R8, R57, R58). -/
inductive Move where
  /-- one micro-step of FG (42_channel_commands.md R121) -/
  | fgMicro
  /-- all micro-steps of one command, or all that are left of it, with no other agent's step between (R82) -/
  | fgCommand
  /-- one step of `HRX(d)` (R140) -/
  | hrx (d : Dev)
  /-- one step of `HTX(d)` (R141) -/
  | htx (d : Dev)
  /-- the move `EnvRx(d, b)` (R41) -/
  | envRx (d : Dev) (b : Byte)
  /-- the move `EnvTxReady(d)` (R41) -/
  | envTxReady (d : Dev)
  /-- the reset event (70_reset_and_hazards.md R170) -/
  | reset
  deriving DecidableEq, Repr

/-! ## The state -/

/-- The complete state (R20). `NDEV` is `devs.length`, `CSDEPTH` is `csDepth`: constants of the block (log entry 1). -/
structure State where
  /-- `CSDEPTH`, a constant -/
  csDepth : Nat
  /-- the global interrupt-enable flag (R26) -/
  ie : Bool
  /-- entry `d` belongs to device `d` -/
  devs : List Device
  /-- `cs_stack`, the entry pushed last first (R30, log entry 13) -/
  csStack : List Bool
  fg : Fg
  /-- the words FG presents on the command port, the next one first (R70, log entry 11) -/
  cmdIn : List Word
  /-- the response words given so far, the oldest first (R74, log entry 12) -/
  rspOut : List Word
  /-- the model's own: the moves to come, the next one first; none left means `fgCommand` (log entry 2) -/
  sched : List Move
  /-- the model's own: the number of reset events so far (log entry 10) -/
  freeIdx : Nat
  deriving DecidableEq, Repr

/-- Why the machine stops. The block itself has no fault (R150); each reason below says that the run is one the spec
gives no meaning to. -/
inductive Fault where
  /-- Raised by the bodies of `RXSIZE`, `RXDEQ`, `RXPEEK`, `SEND`, `SENDB` and by the handlers on a device that no `INIT`
  has initialised since reset (R174, U1: "a model faults such a run"). Safe: the hardware goes on. -/
  | uninitialised (d : Dev)
  /-- Raised by `move` when the schedule names a handler step that R154 does not enable or an ENV move whose precondition
  (R41) does not hold (U7: stuck). Safe: no such step exists. -/
  | notEnabled (m : Move)
  /-- Raised by the accept step F0 when FG does not present a whole command (R121, R167: no enabled step). Safe. -/
  | noCommand
  /-- Raised by a meaning that is asked to accept a command while `fg.phase` is not `IDLE` (R36, R121); `step` never
  does. Safe. -/
  | commandInProgress
  /-- Raised by step F2 when `fg.cmd` is no wrapped command; no run reaches it (R121). Safe. -/
  | sequencerStuck
  deriving DecidableEq, Repr

/-- Why an instruction has no meaning. Every command of this block has one. -/
inductive Refusal where
  /-- Raised by `exec` for an instruction without a meaning (none is left). Safe. -/
  | notModelled (mnemonic : String)
  deriving DecidableEq, Repr

/-- What a step answers. -/
abbrev Result := Host.Outcome State Fault Refusal

/-! ## Reset (R44) -/

/-- A RingBuffer of capacity `2^k` in the state after reset; every value is the model's (log entries 5, 6). -/
def RingBuffer.atReset (k : Nat) : RingBuffer := { k := k, storage := [], head := 0, tail := 0, count := 0 }

/-- A device after reset with an idle transceiver (R44, U9; log entries 5, 6, 9). -/
def Device.atReset (c : DevConfig) : Device :=
  { rx := RingBuffer.atReset c.kRx, tx := RingBuffer.atReset c.kTx, rxie := false, txie := false, rxDrop := 0,
    rxValid := false, rxData := 0, txReady := true, txData := 0, rxLog := [], txLog := [], initialised := false }

/-- The sequencer after reset (R44; all but `phase` are the model's values, log entry 8). -/
def Fg.atReset : Fg := { phase := .idle, cmd := .illegal, sv := false, rsp := ⟨.ok, 0⟩ }

/-- The state after reset of a block with configuration `c`. -/
def State.atReset (c : Config) : State :=
  { csDepth := c.csDepth, ie := false, devs := c.devs.map Device.atReset, csStack := [], fg := Fg.atReset, cmdIn := [],
    rspOut := [], sched := [], freeIdx := 0 }

/-- The state after reset, in configuration `T` (log entry 1). -/
def State.reset : State := State.atReset Config.T

end Sys2Proof.Machine
end

