-- ==== Sys2Proof/Machine/Flags.lean ====
section
/-! DEFINITION. Conditions and flag computations. The block stores no empty or full flag and has no arithmetic flag
(spec/10_state.md R29): "empty" and "full" are computed from `count`. The only saturating quantity is `rx_drop` (R31). -/

namespace Sys2Proof.Machine

/-- The capacity `C = 2^K` (R5, R21). -/
def RingBuffer.cap (B : RingBuffer) : Nat := 2 ^ B.k

/-- "Empty" (R29). -/
def RingBuffer.isEmpty (B : RingBuffer) : Bool := B.count == 0

/-- "Full" (R29). -/
def RingBuffer.isFull (B : RingBuffer) : Bool := B.count == B.cap

/-- `sat8(v + 1)` on an 8-bit counter (00_scope.md R9, R31): 255 stays 255. -/
def sat8Inc (v : Byte) : Byte := if v = 255 then 255 else v + 1

end Sys2Proof.Machine
end

