-- ==== Sys2Proof/Machine/Operands.lean ====
section
/-! DEFINITION. Operands as the meanings use them (spec/30_encoding.md R73): unsigned fields, zero-extended, never scaled
or sign-extended; and the values of responses (R74). -/

namespace Sys2Proof.Machine

/-- `zext_9` of a byte: the value of a response that carries a byte (R74). -/
def zext9 (b : Byte) : BitVec 9 := b.setWidth 9

/-- A count as the 9-bit value of a response (R74): `0 .. 256`. -/
def countValue (n : Nat) : BitVec 9 := BitVec.ofNat 9 n

/-- The logical index of `RXPEEK`: the operand byte as an unsigned number (R73). -/
def peekIndex (i : Byte) : Nat := i.toNat

/-- The answer of `RXDEQ` and `RXPEEK` (R74, R125, R126): `OK` with the byte, or `EMPTY`. -/
def byteResponse : Option Byte → Response
  | some b => ⟨.ok, zext9 b⟩
  | none => ⟨.empty, 0⟩

/-- The answer of `SEND` (R74, R127): `OK` 1 or `FULL` 0. -/
def acceptResponse (ok : Bool) : Response := if ok then ⟨.ok, 1⟩ else ⟨.full, 0⟩

/-- The answer of `SENDB` (R74, R128): how many of `n` bytes were accepted, `OK` when all were. -/
def batchResponse (n accepted : Nat) : Response :=
  if accepted = n then ⟨.ok, countValue accepted⟩ else ⟨.full, countValue accepted⟩

end Sys2Proof.Machine
end

