-- ==== Sys2Proof/Machine/RingBuffer.lean ====
section
/-! DEFINITION. Storage access (spec/20_memory.md R50, R53) and the six RingBuffer primitives (spec/40_ringbuffer.md R91
to R97). They are internal: the commands and the handlers invoke them (spec/10_state.md R24). -/

namespace Sys2Proof.Machine

/-! ## Storage -/

/-- `MemRead` of the cell at a physical index. -/
def Memory.read : Memory → Nat → Byte
  | [], _ => Memory.unlisted
  | (x, b) :: m, a => if x = a then b else Memory.read m a

/-- `MemWrite` of the cell at a physical index; keeps the canonical form. -/
def Memory.write : Memory → Nat → Byte → Memory
  | [], a, v => if v = Memory.unlisted then [] else [(a, v)]
  | (x, b) :: m, a, v =>
    if a < x then if v = Memory.unlisted then (x, b) :: m else (a, v) :: (x, b) :: m
    else if a = x then if v = Memory.unlisted then m else (a, v) :: m
    else (x, b) :: Memory.write m a v

/-- The cell of a RingBuffer's storage at a physical index. -/
def RingBuffer.cell (B : RingBuffer) (a : Nat) : Byte := B.storage.read a

/-! ## The primitives -/

/-- `(tail + i) mod C`: the physical index of logical index `i` (R56). -/
def RingBuffer.phys (B : RingBuffer) (i : Nat) : Nat := (B.tail + i) % B.cap

/-- `contents(B)` (R91): the live elements, oldest first. -/
def RingBuffer.contents (B : RingBuffer) : List Byte := (List.range B.count).map fun i => B.cell (B.phys i)

/-- `rb_init` (R92). -/
def RingBuffer.init (B : RingBuffer) : RingBuffer := { B with head := 0, tail := 0, count := 0 }

/-- `rb_enqueue` (R93): the buffer after, and whether the byte was accepted. -/
def RingBuffer.enqueue (B : RingBuffer) (b : Byte) : RingBuffer × Bool :=
  if B.isFull then (B, false)
  else
    ({ B with storage := B.storage.write B.head b, head := (B.head + 1) % B.cap, count := B.count + 1 }, true)

/-- `rb_enqueue_batch` (R94): the buffer after, and how many bytes were accepted; stops at the first rejection. -/
def RingBuffer.enqueueBatch (B : RingBuffer) : List Byte → RingBuffer × Nat
  | [] => (B, 0)
  | b :: bs =>
    match B.enqueue b with
    | (B', true) => ((B'.enqueueBatch bs).1, (B'.enqueueBatch bs).2 + 1)
    | (_, false) => (B, 0)

/-- `rb_dequeue` (R95): the buffer after, and the byte, if there was one. -/
def RingBuffer.dequeue (B : RingBuffer) : RingBuffer × Option Byte :=
  if B.isEmpty then (B, none)
  else ({ B with tail := (B.tail + 1) % B.cap, count := B.count - 1 }, some (B.cell B.tail))

/-- `rb_peek` (R96). -/
def RingBuffer.peek (B : RingBuffer) (index : Nat) : Option Byte :=
  if B.count ≤ index then none else some (B.cell (B.phys index))

/-- `rb_size` (R97). -/
def RingBuffer.size (B : RingBuffer) : Nat := B.count

end Sys2Proof.Machine
end

