-- ==== Sys2Proof/Machine/Ops.lean ====
section
/-! DEFINITION. The shared operations over the state: access to one device, the response port, the implicit critical
section and the other micro-steps of a command (spec/42_channel_commands.md R121), handler entry and return
(spec/60_exceptions.md R157, R158), the data register (spec/10_state.md R39, R40), the reset event (R170). -/

namespace Sys2Proof.Machine

/-! ## Sequencing of results -/

/-- Go on with `k` after a next state; a stop stays. -/
def andThen (o : Result) (k : State → Result) : Result :=
  match o with
  | .next s => k s
  | .fault r => .fault r
  | .refused r => .refused r

/-! ## Devices -/

/-- `NDEV`. -/
def State.ndev (s : State) : Nat := s.devs.length

/-- `cs_depth` (R30). -/
def State.csSize (s : State) : Nat := s.csStack.length

/-- The block has the device (R77 (c)). -/
def State.hasDev (s : State) (d : Dev) : Bool := decide (d.val < s.ndev)

/-- Read for a device the block does not have; nothing that a command or a handler does depends on it. -/
def Device.absent : Device := Device.atReset ⟨0, 0⟩

/-- The registers of device `d`. -/
def State.dev (s : State) (d : Dev) : Device := s.devs.getD d.val Device.absent

/-- Write the registers of device `d`; no effect for a device the block does not have. -/
def State.setDev (s : State) (d : Dev) (D : Device) : State := { s with devs := s.devs.set d.val D }

/-- The RingBuffer `B(d,q)`. -/
def State.ring (s : State) (d : Dev) : Dir → RingBuffer
  | .rx => (s.dev d).rx
  | .tx => (s.dev d).tx

/-- The byte at physical index `a` of the storage of `B(d,q)`: the model's read of one byte of memory (R50). -/
def State.cell (s : State) (d : Dev) (q : Dir) (a : Nat) : Byte := (s.ring d q).cell a

/-- The parameters of R5, read off the state. -/
def State.config (s : State) : Config := { devs := s.devs.map fun D => ⟨D.rx.k, D.tx.k⟩, csDepth := s.csDepth }

/-- Use of a RingBuffer of device `d`: faults unless an `INIT d` has initialised it since reset (R174, U1). -/
def onInitialised (d : Dev) (s : State) (k : Device → Result) : Result :=
  if (s.dev d).initialised then k (s.dev d) else .fault (.uninitialised d)

/-! ## The response port -/

/-- `respond(st, val)` (R9, R74): the response word leaves the block. -/
def State.respond (s : State) (r : Response) : State := { s with rspOut := s.rspOut ++ [r.word] }

/-- R77: an illegal header is answered `respond(ERR, 0)` and changes nothing else. -/
def answerIllegal (s : State) : Result := .next (s.respond ⟨.err, 0⟩)

/-! ## The sequencer -/

/-- `fg.phase <- p`. -/
def State.setPhase (s : State) (p : Phase) : State := { s with fg := { s.fg with phase := p } }

/-- `fg.rsp <- r`. -/
def State.setRsp (s : State) (r : Response) : State := { s with fg := { s.fg with rsp := r } }

/-- `cs_implicit_enter` (41_critical_section.md R111). -/
def csImplicitEnter (s : State) : State := { s with ie := false, fg := { s.fg with sv := s.ie } }

/-- `cs_implicit_exit` (R112). -/
def csImplicitExit (s : State) : State := { s with ie := s.fg.sv }

/-- The part of F0 that a wrapped command leaves (R121). -/
def acceptStep (i : Instr) (s : State) : State := { s with fg := { s.fg with phase := .accepted, cmd := .legal i } }

/-- F1 (R121). -/
def enterStep (s : State) : State := (csImplicitEnter s).setPhase .cs

/-- F2 (R121): `body` writes `fg.rsp`. -/
def bodyStep (body : State → Result) (s : State) : Result := andThen (body s) fun t => .next (t.setPhase .opDone)

/-- F3 (R121). -/
def exitStep (s : State) : State := (csImplicitExit s).setPhase .restored

/-- F4 (R121): arm the transmit-ready interrupt of device `d` (R28). -/
def armStep (d : Dev) (s : State) : State := (s.setDev d { s.dev d with txie := true }).setPhase .armed

/-- F5 (R121). -/
def respondStep (s : State) : State := (s.respond s.fg.rsp).setPhase .idle

/-- A command is taken only when `fg.phase = IDLE` (R36, R121). -/
def whenIdle (s : State) (k : Result) : Result := if s.fg.phase = .idle then k else .fault .commandInProgress

/-- A command that names device `d` is illegal in a block without it (R77 (c)). -/
def whenPresent (d : Dev) (s : State) (k : Result) : Result := if s.hasDev d then k else answerIllegal s

/-- All micro-steps of a wrapped command that does not arm: F0, F1, F2, F3, F5 (R121). -/
def runWrapped (d : Dev) (i : Instr) (body : State → Result) (s : State) : Result :=
  whenIdle s (whenPresent d s (andThen (bodyStep body (enterStep (acceptStep i s))) fun t =>
    .next (respondStep (exitStep t))))

/-- All micro-steps of `SEND` and `SENDB`: F0, F1, F2, F3, F4, F5 (R121). -/
def runWrappedArmed (d : Dev) (i : Instr) (body : State → Result) (s : State) : Result :=
  whenIdle s (whenPresent d s (andThen (bodyStep body (enterStep (acceptStep i s))) fun t =>
    .next (respondStep (armStep d (exitStep t)))))

/-! ## Handler entry and return: the one shared way into and out of interrupt context -/

/-- R157: `IE <- 0`, and nothing else is saved or changed. -/
def handlerEntry (s : State) : State := { s with ie := false }

/-- R158: `IE <- 1`. -/
def handlerReturn (s : State) : State := { s with ie := true }

/-- A whole handler step (R156): entry, body, return, as one step. -/
def handlerStep (body : State → Result) (s : State) : Result :=
  andThen (body (handlerEntry s)) fun t => .next (handlerReturn t)

/-! ## The data register -/

/-- `rx_take(d)` (R39): the pending byte, and the state with the request lowered and the byte in the trace. From then on
`rx_data[d]` is unspecified (R37, U8): a free value (log entry 18). -/
def rxTake (d : Dev) (s : State) : Byte × State :=
  ((s.dev d).rxData,
    s.setDev d { s.dev d with rxValid := false, rxLog := (s.dev d).rxLog ++ [(s.dev d).rxData],
                              rxData := Config.freeRxData s.freeIdx d.val ((s.dev d).rxLog ++ [(s.dev d).rxData]) })

/-- `tx_put(d, b)` (R40). -/
def txPut (d : Dev) (b : Byte) (s : State) : State :=
  s.setDev d { s.dev d with txData := b, txReady := false, txLog := (s.dev d).txLog ++ [b] }

/-! ## The reset event (R44, R170) -/

/-- Storage of capacity `2^k` with every cell unspecified (R44, U2; log entry 10). -/
def freeStorage (n d : Nat) (q : Dir) (k : Nat) : Memory :=
  (List.range (2 ^ k)).foldl (fun m a => m.write a (Config.freeCell n d q a)) []

/-- A RingBuffer after the `n`-th reset event: its registers and cells are unspecified, each within its width. -/
def RingBuffer.afterReset (n d : Nat) (q : Dir) (B : RingBuffer) : RingBuffer :=
  { k := B.k, storage := freeStorage n d q B.k, head := Config.freeHead n d q % 2 ^ B.k,
    tail := Config.freeTail n d q % 2 ^ B.k, count := Config.freeCount n d q % 2 ^ (B.k + 1) }

/-- A device after the `n`-th reset event. The interface inputs are as ENV drives them: the block does not reset them. -/
def Device.afterReset (n d : Nat) (D : Device) : Device :=
  { D with rx := D.rx.afterReset n d .rx, tx := D.tx.afterReset n d .tx, rxie := false, txie := false, rxDrop := 0,
           txData := Config.freeTxData n d, rxLog := [], txLog := [], initialised := false }

/-- The reset event (R170): a command in progress is abandoned without a response. -/
def resetEvent (s : State) : State :=
  { s with ie := false
           devs := s.devs.mapIdx fun d D => D.afterReset s.freeIdx d
           csStack := []
           fg := { phase := .idle, cmd := Config.freeCmd s.freeIdx, sv := Config.freeSv s.freeIdx,
                   rsp := Config.freeRsp s.freeIdx }
           freeIdx := s.freeIdx + 1 }

end Sys2Proof.Machine
end

