-- ==== Sys2Proof/Machine/Channel.lean ====
section
/-! DEFINITION. The commands that reach a device inside an implicit critical section (spec/42_channel_commands.md R122,
R124 to R129): for each its body, step F2, and the whole command. -/

namespace Sys2Proof.Machine

/-! ## Bodies (F2): each writes `fg.rsp` -/

/-- `body(INIT d)` (R122): `rb_init` on both buffers, which are initialised from here on (U1). -/
def bodyInit (d : Dev) (s : State) : Result :=
  .next ((s.setDev d { s.dev d with rx := (s.dev d).rx.init, tx := (s.dev d).tx.init, initialised := true }).setRsp
    ⟨.ok, 0⟩)

/-- `body(RXSIZE d)` (R124). -/
def bodyRxsize (d : Dev) (s : State) : Result :=
  onInitialised d s fun D => .next (s.setRsp ⟨.ok, countValue D.rx.size⟩)

/-- `body(RXDEQ d)` (R125). -/
def bodyRxdeq (d : Dev) (s : State) : Result :=
  onInitialised d s fun D => .next ((s.setDev d { D with rx := D.rx.dequeue.1 }).setRsp (byteResponse D.rx.dequeue.2))

/-- `body(RXPEEK d, i)` (R126). -/
def bodyRxpeek (d : Dev) (i : Byte) (s : State) : Result :=
  onInitialised d s fun D => .next (s.setRsp (byteResponse (D.rx.peek (peekIndex i))))

/-- `body(SEND d, b)` (R127). -/
def bodySend (d : Dev) (b : Byte) (s : State) : Result :=
  onInitialised d s fun D =>
    .next ((s.setDev d { D with tx := (D.tx.enqueue b).1 }).setRsp (acceptResponse (D.tx.enqueue b).2))

/-- `body(SENDB d, bytes)` (R128). -/
def bodySendb (d : Dev) (bytes : List Byte) (s : State) : Result :=
  onInitialised d s fun D =>
    .next ((s.setDev d { D with tx := (D.tx.enqueueBatch bytes).1 }).setRsp
      (batchResponse bytes.length (D.tx.enqueueBatch bytes).2))

/-- `body(RXDROPS d)` (R129): defined whether or not the device is initialised (U1). -/
def bodyRxdrops (d : Dev) (s : State) : Result := .next (s.setRsp ⟨.ok, zext9 (s.dev d).rxDrop⟩)

/-! ## Whole commands -/

/-- `INIT d` (R122). -/
def execInit (d : Dev) (s : State) : Result := runWrapped d (.init d) (bodyInit d) s

/-- `RXSIZE d` (R124). -/
def execRxsize (d : Dev) (s : State) : Result := runWrapped d (.rxsize d) (bodyRxsize d) s

/-- `RXDEQ d` (R125). -/
def execRxdeq (d : Dev) (s : State) : Result := runWrapped d (.rxdeq d) (bodyRxdeq d) s

/-- `RXPEEK d, i` (R126). -/
def execRxpeek (d : Dev) (i : Byte) (s : State) : Result := runWrapped d (.rxpeek d i) (bodyRxpeek d i) s

/-- `SEND d, b` (R127). -/
def execSend (d : Dev) (b : Byte) (s : State) : Result := runWrappedArmed d (.send d b) (bodySend d b) s

/-- `SENDB d, bytes` (R128). -/
def execSendb (d : Dev) (bytes : List Byte) (s : State) : Result :=
  runWrappedArmed d (.sendb d bytes) (bodySendb d bytes) s

/-- `RXDROPS d` (R129). -/
def execRxdrops (d : Dev) (s : State) : Result := runWrapped d (.rxdrops d) (bodyRxdrops d) s

end Sys2Proof.Machine
end

