-- ==== Sys2Proof/Machine/Gate.lean ====
section
/-! DEFINITION. The commands that are one atomic step (spec/41_critical_section.md R114 to R116, spec/42_channel_commands.md
R123): `GIE`, `CSENTER`, `CSEXIT`, `IRQEN`. None touches a RingBuffer. -/

namespace Sys2Proof.Machine

/-- `IRQEN d` (R123). -/
def execIrqen (d : Dev) (s : State) : Result :=
  whenIdle s (whenPresent d s
    (.next ((s.setDev d { s.dev d with rxie := true }).respond ⟨.ok, 0⟩)))

/-- `GIE v` (R116). -/
def execGie (v : Bool) (s : State) : Result :=
  whenIdle s (.next ({ s with ie := v }.respond ⟨.ok, 0⟩))

/-- `CSENTER` (R114). -/
def execCsenter (s : State) : Result :=
  whenIdle s (if s.csSize = s.csDepth then .next (s.respond ⟨.err, 0⟩)
    else .next ({ s with csStack := s.ie :: s.csStack, ie := false }.respond ⟨.ok, 0⟩))

/-- `CSEXIT` (R115). -/
def execCsexit (s : State) : Result :=
  whenIdle s (match s.csStack with
    | [] => .next (s.respond ⟨.err, 0⟩)
    | v :: rest => .next ({ s with csStack := rest, ie := v }.respond ⟨.ok, 0⟩))

end Sys2Proof.Machine
end

