-- ==== Sys2Proof/Machine/Dispatch.lean ====
section
/-! DEFINITION. One arm per constructor of Instr: the whole command, all its micro-steps with no other agent's step
between (spec/30_encoding.md R82). -/

namespace Sys2Proof.Machine

def exec (i : Instr) (s : State) : Host.Outcome State Fault Refusal :=
  match i with
  | .init d => Sys2Proof.Machine.execInit d s
  | .irqen d => Sys2Proof.Machine.execIrqen d s
  | .gie v => Sys2Proof.Machine.execGie v s
  | .csenter => Sys2Proof.Machine.execCsenter s
  | .csexit => Sys2Proof.Machine.execCsexit s
  | .rxsize d => Sys2Proof.Machine.execRxsize d s
  | .rxdeq d => Sys2Proof.Machine.execRxdeq d s
  | .rxpeek d x => Sys2Proof.Machine.execRxpeek d x s
  | .send d b => Sys2Proof.Machine.execSend d b s
  | .sendb d bytes => Sys2Proof.Machine.execSendb d bytes s
  | .rxdrops d => Sys2Proof.Machine.execRxdrops d s

end Sys2Proof.Machine
end

