-- ==== Sys2Proof/Machine/Environment.lean ====
section
/-! DEFINITION. The two moves of the environment (spec/10_state.md R41), and the outputs of the block (spec/30_encoding.md
R70) as functions of its state. -/

namespace Sys2Proof.Machine

/-- `EnvRx(d, b)` (R41): precondition `rx_valid[d] = 0`. -/
def envRxStep (d : Dev) (b : Byte) (s : State) : Result :=
  if s.hasDev d && !(s.dev d).rxValid then .next (s.setDev d { s.dev d with rxData := b, rxValid := true })
  else .fault (.notEnabled (.envRx d b))

/-- `EnvTxReady(d)` (R41): precondition `tx_ready[d] = 0`. -/
def envTxReadyStep (d : Dev) (s : State) : Result :=
  if s.hasDev d && !(s.dev d).txReady then .next (s.setDev d { s.dev d with txReady := true })
  else .fault (.notEnabled (.envTxReady d))

/-- The level outputs of R70 for one device. -/
structure DevPorts where
  txData : Byte
  rxie : Bool
  txie : Bool
  deriving DecidableEq, Repr

/-- The level outputs of R70. -/
structure Ports where
  ie : Bool
  devs : List DevPorts
  deriving DecidableEq, Repr

/-- What the level outputs show in a state (R70): "the current values of `IE`, `RXIE[d]`, `TXIE[d]`", and `tx_data[d]`. -/
def State.ports (s : State) : Ports := { ie := s.ie, devs := s.devs.map fun D => ⟨D.txData, D.rxie, D.txie⟩ }

/-- The pulse `rx_take[d]` of the step from `s` to `t` (R39, R70): the trace of bytes taken grew. -/
def rxTakePulse (d : Dev) (s t : State) : Bool := decide ((s.dev d).rxLog.length < (t.dev d).rxLog.length)

/-- The pulse `tx_put[d]` of the step from `s` to `t` (R40, R70). -/
def txPutPulse (d : Dev) (s t : State) : Bool := decide ((s.dev d).txLog.length < (t.dev d).txLog.length)

end Sys2Proof.Machine
end

