-- ==== Sys2Proof/Machine/Handlers.lean ====
section
/-! DEFINITION. The interrupt handlers (spec/43_interrupt_handlers.md R140, R141) and when a step of one is enabled
(spec/60_exceptions.md R154). They have no encoding: no command invokes one. -/

namespace Sys2Proof.Machine

/-- A step of `HRX(d)` is enabled: `IE = 1 and RXIE[d] = 1 and rx_valid[d] = 1` (R154). -/
def hrxEnabled (d : Dev) (s : State) : Bool := s.hasDev d && s.ie && (s.dev d).rxie && (s.dev d).rxValid

/-- A step of `HTX(d)` is enabled: `IE = 1 and TXIE[d] = 1 and tx_ready[d] = 1` (R154). -/
def htxEnabled (d : Dev) (s : State) : Bool := s.hasDev d && s.ie && (s.dev d).txie && (s.dev d).txReady

/-- `body(HRX(d))` (R140): take the byte, enqueue it, count it when it is dropped. -/
def bodyHrx (d : Dev) (s : State) : Result :=
  onInitialised d s fun _ =>
    let b := (rxTake d s).1
    let t := (rxTake d s).2
    match (t.dev d).rx.enqueue b with
    | (B, true) => .next (t.setDev d { t.dev d with rx := B })
    | (_, false) => .next (t.setDev d { t.dev d with rxDrop := sat8Inc (t.dev d).rxDrop })

/-- `body(HTX(d))` (R141): put the oldest byte, or disable the source on an empty buffer. -/
def bodyHtx (d : Dev) (s : State) : Result :=
  onInitialised d s fun D =>
    match D.tx.dequeue with
    | (B, some b) => .next (txPut d b (s.setDev d { D with tx := B }))
    | (_, none) => .next (s.setDev d { D with txie := false })

/-- One step of `HRX(d)`. -/
def hrxStep (d : Dev) (s : State) : Result :=
  if hrxEnabled d s then handlerStep (bodyHrx d) s else .fault (.notEnabled (.hrx d))

/-- One step of `HTX(d)`. -/
def htxStep (d : Dev) (s : State) : Result :=
  if htxEnabled d s then handlerStep (bodyHtx d) s else .fault (.notEnabled (.htx d))

end Sys2Proof.Machine
end

