-- ==== Sys2Proof/Machine/Sequencer.lean ====
section
/-! DEFINITION. The foreground sequencer micro-step by micro-step (spec/42_channel_commands.md R121), a whole command at
once (spec/30_encoding.md R82, spec/42_channel_commands.md R130), and the moves of every agent (spec/00_scope.md R8). -/

namespace Sys2Proof.Machine

/-! ## Taking a command from the port -/

/-- The next command on the port, decoded (R78), and the state without its words; `none` when FG does not present a
whole command (R121, F0). -/
def nextCommand (s : State) : Option (Command × State) :=
  match takeCommand s.cmdIn with
  | none => none
  | some (w, p, rest) => some (decodeCommand s.ndev w p, { s with cmdIn := rest })

/-! ## Micro-steps (R121) -/

/-- F0 at `fg.phase = IDLE`: an illegal or unwrapped command is done, a wrapped one is accepted. -/
def fgAccept (s : State) : Result :=
  match nextCommand s with
  | none => .fault .noCommand
  | some (.illegal, t) => answerIllegal t
  | some (.legal i, t) => if i.wrapped then .next (acceptStep i t) else exec i t

/-- `body(fg.cmd)` (R121, F2). -/
def bodyOf (i : Instr) (s : State) : Result :=
  match i with
  | .init d => bodyInit d s
  | .rxsize d => bodyRxsize d s
  | .rxdeq d => bodyRxdeq d s
  | .rxpeek d x => bodyRxpeek d x s
  | .send d b => bodySend d b s
  | .sendb d bytes => bodySendb d bytes s
  | .rxdrops d => bodyRxdrops d s
  | .irqen _ => .fault .sequencerStuck
  | .gie _ => .fault .sequencerStuck
  | .csenter => .fault .sequencerStuck
  | .csexit => .fault .sequencerStuck

/-- F2 of the command in `fg.cmd`. -/
def fgBody (s : State) : Result :=
  match s.fg.cmd with
  | .legal i => bodyStep (bodyOf i) s
  | .illegal => .fault .sequencerStuck

/-- The device that F4 of the command arms, if the command has an F4 (R121). -/
def Command.arms : Command → Option Dev
  | .legal i => i.arms
  | .illegal => none

/-- After F3: F4 for `SEND` and `SENDB`, F5 for the others (R121). -/
def fgAfterExit (s : State) : Result :=
  match Command.arms s.fg.cmd with
  | some d => .next (armStep d s)
  | none => .next (respondStep s)

/-- One micro-step of FG (R121). -/
def fgMicro (s : State) : Result :=
  match s.fg.phase with
  | .idle => fgAccept s
  | .accepted => .next (enterStep s)
  | .cs => fgBody s
  | .opDone => .next (exitStep s)
  | .restored => fgAfterExit s
  | .armed => .next (respondStep s)

/-! ## Whole commands -/

/-- Micro-steps of FG until `fg.phase = IDLE`, at most `n`. -/
def fgRun : Nat → State → Result
  | 0, s => .next s
  | n + 1, s => if s.fg.phase = .idle then .next s else andThen (fgMicro s) (fgRun n)

/-- A whole command from `fg.phase = IDLE`. -/
def fgWhole (s : State) : Result :=
  match nextCommand s with
  | none => .fault .noCommand
  | some (.illegal, t) => answerIllegal t
  | some (.legal i, t) => exec i t

/-- A whole command, or all that is left of the one in progress (at most F1 to F5). -/
def fgCommand (s : State) : Result := if s.fg.phase = .idle then fgWhole s else fgRun 5 s

/-! ## Moves -/

/-- One step of the agent that a move names (R8, R57). -/
def move (m : Move) (s : State) : Result :=
  match m with
  | .fgMicro => fgMicro s
  | .fgCommand => fgCommand s
  | .hrx d => hrxStep d s
  | .htx d => htxStep d s
  | .envRx d b => envRxStep d b s
  | .envTxReady d => envTxReadyStep d s
  | .reset => .next (resetEvent s)

/-- The moves of a list, one after another, up to the first stop. -/
def moves : List Move → State → Result
  | [], s => .next s
  | m :: ms, s => andThen (move m s) (moves ms)

/-- The move the schedule names, and the state without it; with nothing scheduled, FG takes a whole command
(log entry 2). -/
def nextMove (s : State) : Move × State :=
  match s.sched with
  | [] => (.fgCommand, s)
  | m :: ms => (m, { s with sched := ms })

/-- The state in which FG presents these words before any others, with nothing scheduled and no command in progress, so
that the very next step takes the command they begin with (log entry 11). -/
def State.present (s : State) (ws : List Word) : State :=
  { s with cmdIn := ws ++ s.cmdIn, sched := [], fg := { s.fg with phase := .idle } }

end Sys2Proof.Machine
end

