-- ==== Sys2Proof/Machine/Step.lean ====
section
/-! DEFINITION. One step of the machine: the next move of the schedule (spec/20_memory.md R57, R58). -/

namespace Sys2Proof.Machine

/-- One step: make the move that the schedule names next. -/
def step (s : State) : Host.Outcome State Fault Refusal := move (nextMove s).1 (nextMove s).2

/-- The state in which the words of a number (`wordsOfNumber`) stand at the command port, where the next step takes its
command. -/
def State.withFetchWord (s : State) (nbits w : Nat) : State := s.present (wordsOfNumber nbits w)

end Sys2Proof.Machine
end

