-- ==== Sys2Proof/Safety.lean ====
section
/-! DEFINITION. What a good state is (the invariant that every step keeps), and the terms in which claims speak of runs:
what a move accepts, keeps and returns (spec/20_memory.md R60). -/

namespace Sys2Proof.Machine

/-! ## Good states -/

/-- Widths and canonical form, true of a RingBuffer whether or not it is initialised: `head` and `tail` have `K` bits,
`count` has `K+1` (R21), storage has `C` cells (R22). -/
abbrev RingBuffer.Shape (B : RingBuffer) : Prop :=
  B.storage.wf ∧ (∀ x ∈ B.storage, x.1 < B.cap) ∧ B.head < B.cap ∧ B.tail < B.cap ∧ B.count < 2 ^ (B.k + 1)

/-- The invariants (a), (b), (c) of an initialised RingBuffer (10_state.md R23). -/
abbrev RingBuffer.Ok (B : RingBuffer) : Prop :=
  B.count ≤ B.cap ∧ (B.head < B.cap ∧ B.tail < B.cap) ∧
    ((B.head : Int) - (B.tail : Int)) % (B.cap : Int) = (B.count : Int) % (B.cap : Int)

/-- A device's buffers are well shaped, and meet R23 once the device is initialised. -/
abbrev Device.Ok (D : Device) : Prop :=
  (D.rx.Shape ∧ D.tx.Shape) ∧ (D.initialised = true → D.rx.Ok ∧ D.tx.Ok)

/-- A command that the sequencer may have in progress (R78, R121): legal, wrapped, of this block. -/
def Command.inProgressOk (ndev : Nat) : Command → Bool
  | .legal i => i.wrapped && i.wf ndev
  | .illegal => false

/-- The sequencer's registers fit its phase (R121): between F1 and F3 the gate is closed (R59), and only a command
with an F4 is ever in phase `ARMED`. -/
abbrev State.FgOk (s : State) : Prop :=
  s.fg.phase ≠ .idle → Command.inProgressOk s.ndev s.fg.cmd = true ∧
    ((s.fg.phase = .cs ∨ s.fg.phase = .opDone) → s.ie = false) ∧
    (s.fg.phase = .armed → Command.arms s.fg.cmd ≠ none)

/-- R133 and R142 in the form that every step keeps: a send buffer that holds bytes with its source disabled belongs
to a send command between its steps F2 and F4. -/
abbrev State.DrainOk (s : State) : Prop :=
  ∀ d : Dev, (s.dev d).initialised = true → (s.dev d).txie = false → 0 < (s.dev d).tx.count →
    (s.fg.phase = .opDone ∨ s.fg.phase = .restored) ∧ Command.arms s.fg.cmd = some d

/-- The invariant of the block. -/
abbrev State.Inv (s : State) : Prop :=
  s.config.wf ∧ (∀ D ∈ s.devs, D.Ok) ∧ s.csSize ≤ s.csDepth ∧ s.FgOk ∧ s.DrainOk

/-- What a wrapped command leaves of the sequencer, of `IE` and of the response port: `fg.cmd` is the command, `fg.sv`
the value `IE` had, which `IE` has again (R111 to R113), and the response is given (R121). That `fg.cmd`, `fg.sv` and
`fg.rsp` keep these values at `IDLE` follows from R35; U8 leaves it open (log entry 18). -/
def State.answered (s : State) (i : Instr) (r : Response) : State :=
  { s with fg := { phase := .idle, cmd := .legal i, sv := s.ie, rsp := r }, rspOut := s.rspOut ++ [r.word] }

/-- What step F2 leaves (R121): `D` as the registers of device `d`, the response in `fg.rsp`, the phase `OP_DONE`. -/
def State.afterBody (s : State) (d : Dev) (D : Device) (r : Response) : State :=
  { s.setDev d D with fg := { s.fg with phase := .opDone, rsp := r } }

/-- The decode result is a command that step F4 arms `TXIE[d]` for: `SEND d` or `SENDB d` (R121). -/
def Command.sendsTo (d : Dev) (c : Command) : Prop :=
  (∃ b : Byte, c = .legal (.send d b)) ∨ (∃ bytes : List Byte, c = .legal (.sendb d bytes))

/-! ## Runs -/

/-- One step of some agent takes `s` to `t` (R57, R58; U3: "stated as a relation"). -/
def Steps (s t : State) : Prop := ∃ m : Move, move m s = .next t

/-- The command whose step F2 falls inside the move. -/
def bodyIn (m : Move) (s : State) : Option Instr :=
  match m with
  | .fgMicro => if s.fg.phase = .cs then commandIn s.fg.cmd else none
  | .fgCommand =>
    match s.fg.phase with
    | .idle =>
      match nextCommand s with
      | some (c, _) => commandIn c
      | none => none
    | .accepted => commandIn s.fg.cmd
    | .cs => commandIn s.fg.cmd
    | .opDone => none
    | .restored => none
    | .armed => none
  | .hrx _ => none
  | .htx _ => none
  | .envRx _ _ => none
  | .envTxReady _ => none
  | .reset => none
where
  /-- The wrapped command of a decode result. -/
  commandIn : Command → Option Instr
    | .legal i => if i.wrapped then some i else none
    | .illegal => none

/-- The bytes that a command offers to the send buffer of `d` (R127, R128). -/
def Instr.offers (d : Dev) : Instr → List Byte
  | .send e b => if e = d then [b] else []
  | .sendb e bytes => if e = d then bytes else []
  | .init _ => []
  | .irqen _ => []
  | .gie _ => []
  | .csenter => []
  | .csexit => []
  | .rxsize _ => []
  | .rxdeq _ => []
  | .rxpeek _ _ => []
  | .rxdrops _ => []

/-- The bytes accepted by `SEND d` and `SENDB d` in a move: of those offered, as many as there are free cells (R102). -/
def acceptedBy (d : Dev) (m : Move) (s : State) : List Byte :=
  match bodyIn m s with
  | some i => (Instr.offers d i).take ((s.dev d).tx.cap - (s.dev d).tx.count)
  | none => []

/-- The byte that `HRX(d)` takes and does not drop in a move (R140). -/
def keptBy (d : Dev) (m : Move) (s : State) : List Byte :=
  if m = .hrx d ∧ (s.dev d).rx.isFull = false then [(s.dev d).rxData] else []

/-- The byte that `RXDEQ d` returns in a move (R125). -/
def returnedBy (d : Dev) (m : Move) (s : State) : List Byte :=
  if bodyIn m s = some (.rxdeq d) then (s.dev d).rx.dequeue.2.toList else []

/-- The move is the reset event or holds step F2 of `INIT d`. -/
def clears (d : Dev) (m : Move) (s : State) : Bool := decide (m = .reset) || decide (bodyIn m s = some (.init d))

/-- The bytes that `n` dequeues in a row return (R100). -/
def RingBuffer.drain : Nat → RingBuffer → List Byte
  | 0, _ => []
  | n + 1, B => B.dequeue.2.toList ++ RingBuffer.drain n B.dequeue.1

/-- Every byte of every storage reads as before. -/
def SameMemory (s t : State) : Prop := ∀ (e : Dev) (q : Dir) (a : Nat), t.cell e q a = s.cell e q a

/-- What no command writes: the constants, the words still on the port, the model's own fields. -/
def SameOutside (s t : State) : Prop :=
  t.csDepth = s.csDepth ∧ t.ndev = s.ndev ∧ t.cmdIn = s.cmdIn ∧ t.sched = s.sched ∧ t.freeIdx = s.freeIdx

/-- What `f` says of each move of a run, joined in order. -/
def along (f : Move → State → List Byte) : List Move → State → List Byte
  | [], _ => []
  | m :: ms, s =>
    match move m s with
    | .next t => f m s ++ along f ms t
    | .fault _ => []
    | .refused _ => []

/-- No move of the run satisfies `p`. -/
def never (p : Move → State → Bool) : List Move → State → Bool
  | [], _ => true
  | m :: ms, s =>
    match move m s with
    | .next t => !p m s && never p ms t
    | .fault _ => true
    | .refused _ => true

end Sys2Proof.Machine
end

