-- ==== Sys2Proof/Certificates/Slice0/Obligations.lean ====
section
/-! DEFINITION. The statements about the block: what each command, primitive and handler does, what it leaves unchanged,
what every step keeps, and what holds of runs. Each docstring names the rule of spec/ it comes from. -/

open Sys2Proof Sys2Proof.Machine

/-! ## Encoding -/

/-- Decoding the words of a command, with any words after them, gives the command and those words: no bit of an encoding is
dropped (R71 to R73, R76, R78). -/
def Obligations.DecodeInvertsEncode : Prop :=
  ∀ (i : Instr) (rest : List Word), i.payloadFits = true → decode (encode i ++ rest) = .ok (i, rest)

/-- "The rows are disjoint" (R72). -/
def Obligations.OpcodeRowsAreDisjoint : Prop :=
  ∀ (w : Word) (r r' : OpRow), r ∈ opRows → r' ∈ opRows → r.selects w = true → r'.selects w = true → r.pat = r'.pat

/-- The header words that decode to `ILLEGAL` are those of R77: (a) a reserved opcode, (b) a must-be-zero bit that is 1,
(c) a device the block does not have. -/
def Obligations.IllegalHeadersAreThoseListed : Prop :=
  ∀ (ndev : Nat) (w : Word) (p : List Word),
    decodeCommand ndev w p = .illegal ↔
      (opField w = 0x0 ∨ 0xC ≤ (opField w).toNat) ∨
      ((opField w = 0x1 ∨ opField w = 0x2 ∨ opField w = 0x6 ∨ opField w = 0x7 ∨ opField w = 0xB) ∧ operandField w ≠ 0) ∨
      ((opField w = 0x4 ∨ opField w = 0x5) ∧ ((devField w).val ≠ 0 ∨ operandField w ≠ 0)) ∨
      (opField w = 0x3 ∧ ((devField w).val ≠ 0 ∨ w.extractLsb' 1 7 ≠ 0)) ∨
      ((opField w = 0x1 ∨ opField w = 0x2 ∨ opField w = 0x6 ∨ opField w = 0x7 ∨ opField w = 0x8 ∨ opField w = 0x9 ∨
        opField w = 0xA ∨ opField w = 0xB) ∧ ndev ≤ (devField w).val)

/-- Words of 95_test_vectors.md section 2.2 decode to the commands they stand for, in a block with two devices. -/
def Obligations.SpecWordsDecode : Prop :=
  decodeCommand 2 0x1100 [] = .legal (.init 1) ∧ decodeCommand 2 0x2100 [] = .legal (.irqen 1) ∧
  decodeCommand 2 0x3001 [] = .legal (.gie true) ∧ decodeCommand 2 0x4000 [] = .legal .csenter ∧
  decodeCommand 2 0x8103 [] = .legal (.rxpeek 1 3) ∧ decodeCommand 2 0x9041 [] = .legal (.send 0 0x41) ∧
  decodeCommand 2 0xA102 [0x0011, 0xFF12] = .legal (.sendb 1 [0x11, 0x12]) ∧ decodeCommand 2 0x1200 [] = .illegal ∧
  decodeCommand 2 0x3100 [] = .illegal ∧ decodeCommand 2 0xD123 [] = .illegal

/-- A response word is the code of its status (`OK` 0, `EMPTY` 1, `FULL` 2, `ERR` 3) in bits 15 and 14, five zero bits, and
its value; its fields read back as its status and value (R74). -/
def Obligations.ResponseWordHoldsStatusAndValue : Prop :=
  (∀ v : BitVec 9,
    Response.word ⟨.ok, v⟩ = (0 : BitVec 2) ++ (0 : BitVec 5) ++ v ∧
    Response.word ⟨.empty, v⟩ = (1 : BitVec 2) ++ (0 : BitVec 5) ++ v ∧
    Response.word ⟨.full, v⟩ = (2 : BitVec 2) ++ (0 : BitVec 5) ++ v ∧
    Response.word ⟨.err, v⟩ = (3 : BitVec 2) ++ (0 : BitVec 5) ++ v) ∧
  ∀ r : Response, decodeResponse r.word = r ∧ r.word.extractLsb' 9 5 = 0

/-! ## The step -/

/-- A step runs the command that the words on the port decode to. With nothing scheduled, or `fgCommand` scheduled, the
whole command; with `fgMicro` scheduled, an unwrapped command whole and of a wrapped one step F0 (R78, R121). The words are
taken off the port and the move off the schedule. -/
def Obligations.StepRunsTheDecodedCommand : Prop :=
  ∀ (s : State) (i : Instr) (rest : List Word) (ms : List Move),
    s.fg.phase = .idle → decode s.cmdIn = .ok (i, rest) → i.wf s.ndev = true →
    (s.sched = [] → step s = exec i { s with cmdIn := rest }) ∧
    (s.sched = .fgCommand :: ms → step s = exec i { s with cmdIn := rest, sched := ms }) ∧
    (s.sched = .fgMicro :: ms → i.wrapped = false → step s = exec i { s with cmdIn := rest, sched := ms }) ∧
    (s.sched = .fgMicro :: ms → i.wrapped = true →
      step s = .next { s with cmdIn := rest, sched := ms, fg := { s.fg with phase := .accepted, cmd := .legal i } })

/-- A step makes the move that stands first in the schedule, of whichever agent, and takes it off the schedule (R57, R58;
that a list holds the choices of the scheduler is log entry 2). -/
def Obligations.StepMakesTheScheduledMove : Prop :=
  ∀ (s : State) (m : Move) (ms : List Move), s.sched = m :: ms → step s = move m { s with sched := ms }

/-- The micro-steps F1 to F5 of a wrapped command (R121): F1 saves `IE` and clears it (R111); F2 runs the body of the
command, which writes the device named and `fg.rsp` (R122, R124 to R129; the five commands that need it on an initialised
device); F3 restores `IE` (R112); F4 arms, for `SEND` and `SENDB` only; F5 responds. Each leaves all else as it was. The
batch primitive in the clause of `SENDB` is the one that `BatchClosedForm` and `BodyStepFrame` speak of. -/
def Obligations.MicroStepsOfAWrappedCommand : Prop :=
  ∀ s : State,
    (s.fg.phase = .accepted →
      fgMicro s = .next { s with ie := false, fg := { s.fg with phase := .cs, sv := s.ie } }) ∧
    (∀ d : Dev, s.fg.phase = .cs → d.val < s.ndev →
      (s.fg.cmd = .legal (.init d) →
        fgMicro s = .next (s.afterBody d { s.dev d with
          rx := { (s.dev d).rx with head := 0, tail := 0, count := 0 },
          tx := { (s.dev d).tx with head := 0, tail := 0, count := 0 },
          initialised := true } ⟨.ok, 0⟩)) ∧
      (s.fg.cmd = .legal (.rxdrops d) →
        fgMicro s = .next (s.afterBody d (s.dev d) ⟨.ok, (s.dev d).rxDrop.setWidth 9⟩)) ∧
      ((s.dev d).initialised = true →
        (s.fg.cmd = .legal (.rxsize d) →
          fgMicro s = .next (s.afterBody d (s.dev d) ⟨.ok, BitVec.ofNat 9 (s.dev d).rx.count⟩)) ∧
        (s.fg.cmd = .legal (.rxdeq d) → (s.dev d).rx.count = 0 →
          fgMicro s = .next (s.afterBody d (s.dev d) ⟨.empty, 0⟩)) ∧
        (s.fg.cmd = .legal (.rxdeq d) → (s.dev d).rx.count ≠ 0 →
          fgMicro s = .next (s.afterBody d { s.dev d with
            rx := { (s.dev d).rx with tail := ((s.dev d).rx.tail + 1) % 2 ^ (s.dev d).rx.k,
                                      count := (s.dev d).rx.count - 1 } }
            ⟨.ok, ((s.dev d).rx.storage.read (s.dev d).rx.tail).setWidth 9⟩)) ∧
        (∀ x : Byte, s.fg.cmd = .legal (.rxpeek d x) → x.toNat < (s.dev d).rx.count →
          fgMicro s = .next (s.afterBody d (s.dev d)
            ⟨.ok, ((s.dev d).rx.storage.read (((s.dev d).rx.tail + x.toNat) % 2 ^ (s.dev d).rx.k)).setWidth 9⟩)) ∧
        (∀ x : Byte, s.fg.cmd = .legal (.rxpeek d x) → (s.dev d).rx.count ≤ x.toNat →
          fgMicro s = .next (s.afterBody d (s.dev d) ⟨.empty, 0⟩)) ∧
        (∀ b : Byte, s.fg.cmd = .legal (.send d b) → (s.dev d).tx.count = 2 ^ (s.dev d).tx.k →
          fgMicro s = .next (s.afterBody d (s.dev d) ⟨.full, 0⟩)) ∧
        (∀ b : Byte, s.fg.cmd = .legal (.send d b) → (s.dev d).tx.count ≠ 2 ^ (s.dev d).tx.k →
          fgMicro s = .next (s.afterBody d { s.dev d with
            tx := { (s.dev d).tx with storage := (s.dev d).tx.storage.write (s.dev d).tx.head b,
                                      head := ((s.dev d).tx.head + 1) % 2 ^ (s.dev d).tx.k,
                                      count := (s.dev d).tx.count + 1 } } ⟨.ok, 1⟩)) ∧
        (∀ bytes : List Byte, s.fg.cmd = .legal (.sendb d bytes) →
          fgMicro s = .next (s.afterBody d { s.dev d with tx := ((s.dev d).tx.enqueueBatch bytes).1 }
            ⟨if ((s.dev d).tx.enqueueBatch bytes).2 = bytes.length then .ok else .full,
             BitVec.ofNat 9 ((s.dev d).tx.enqueueBatch bytes).2⟩)))) ∧
    (s.fg.phase = .opDone → fgMicro s = .next { s with ie := s.fg.sv, fg := { s.fg with phase := .restored } }) ∧
    (∀ d : Dev, s.fg.phase = .restored → Command.sendsTo d s.fg.cmd →
      fgMicro s = .next { s.setDev d { s.dev d with txie := true } with fg := { s.fg with phase := .armed } }) ∧
    (s.fg.phase = .armed ∨ (s.fg.phase = .restored ∧ ∀ d : Dev, ¬ Command.sendsTo d s.fg.cmd) →
      fgMicro s = .next { s with rspOut := s.rspOut ++ [s.fg.rsp.word], fg := { s.fg with phase := .idle } })

/-- A step on an illegal header answers `ERR`, takes off the port the header and, exactly when its opcode is 0xA, the
`w[7:0]` payload words after it, and changes nothing else (R76, R77, R121). That an empty schedule means `fgCommand` is
the model's choice (log entry 2). -/
def Obligations.StepAnswersErrToAnIllegalHeader : Prop :=
  ∀ (s : State) (w : Word) (p rest : List Word) (ms : List Move),
    s.fg.phase = .idle → s.cmdIn = w :: (p ++ rest) →
    p.length = (if opField w = 0xA then (operandField w).toNat else 0) → decodeCommand s.ndev w p = .illegal →
    (s.sched = [] → step s = .next { s with cmdIn := rest, rspOut := s.rspOut ++ [0xC000] }) ∧
    (s.sched = .fgCommand :: ms ∨ s.sched = .fgMicro :: ms →
      step s = .next { s with cmdIn := rest, sched := ms, rspOut := s.rspOut ++ [0xC000] })

/-- A command that names a device the block does not have answers `ERR` and changes nothing else (R77 (c)). -/
def Obligations.CommandOnAbsentDeviceAnswersErr : Prop :=
  ∀ (s : State) (i : Instr) (d : Dev), s.fg.phase = .idle → i.dev? = some d → s.ndev ≤ d.val →
    exec i s = .next { s with rspOut := s.rspOut ++ [0xC000] }

/-! ## What each command does -/

/-- `INIT d` (`0001dddd00000000`) sets `head`, `tail` and `count` of both buffers of `d` to 0, makes `d` initialised and
answers `OK`; it answers `ERR` only where the block has no device `d` (R122). -/
def Obligations.InitEmptiesBothBuffers : Prop :=
  ∀ (s : State) (d : Dev), s.fg.phase = .idle →
    encode (.init d) = [(0x1 : BitVec 4) ++ (BitVec.ofFin d : BitVec 4) ++ (0 : BitVec 8)] ∧
    (d.val < s.ndev →
      exec (.init d) s = .next ((s.setDev d { s.dev d with
          rx := { (s.dev d).rx with head := 0, tail := 0, count := 0 },
          tx := { (s.dev d).tx with head := 0, tail := 0, count := 0 },
          initialised := true }).answered (.init d) ⟨.ok, 0⟩)) ∧
    (s.ndev ≤ d.val → exec (.init d) s = .next { s with rspOut := s.rspOut ++ [0xC000] })

/-- `IRQEN d` (`0010dddd00000000`) sets `RXIE[d]` and answers `OK`; it answers `ERR` only where the block has no device `d`
(R123). -/
def Obligations.IrqenEnablesReceive : Prop :=
  ∀ (s : State) (d : Dev), s.fg.phase = .idle →
    encode (.irqen d) = [(0x2 : BitVec 4) ++ (BitVec.ofFin d : BitVec 4) ++ (0 : BitVec 8)] ∧
    (d.val < s.ndev →
      exec (.irqen d) s = .next { s.setDev d { s.dev d with rxie := true } with rspOut := s.rspOut ++ [0x0000] }) ∧
    (s.ndev ≤ d.val → exec (.irqen d) s = .next { s with rspOut := s.rspOut ++ [0xC000] })

/-- `GIE v` (`001100000000000v`) writes `IE` and answers `OK` (R116). -/
def Obligations.GieWritesIe : Prop :=
  ∀ (s : State) (v : Bool), s.fg.phase = .idle →
    encode (.gie v) = [if v then 0x3001 else 0x3000] ∧
    exec (.gie v) s = .next { s with ie := v, rspOut := s.rspOut ++ [0x0000] }

/-- `CSENTER` (`0x4000`) pushes `IE` and clears it, and on a full stack answers `ERR` and changes nothing (R114). -/
def Obligations.CsenterSavesAndClearsIe : Prop :=
  ∀ s : State, s.fg.phase = .idle →
    encode .csenter = [0x4000] ∧
    (s.csStack.length = s.csDepth → exec .csenter s = .next { s with rspOut := s.rspOut ++ [0xC000] }) ∧
    (s.csStack.length ≠ s.csDepth →
      exec .csenter s =
        .next { s with csStack := s.ie :: s.csStack, ie := false, rspOut := s.rspOut ++ [0x0000] })

/-- `CSEXIT` (`0x5000`) pops into `IE`, and on an empty stack answers `ERR` and changes nothing (R115). -/
def Obligations.CsexitRestoresIe : Prop :=
  ∀ s : State, s.fg.phase = .idle →
    encode .csexit = [0x5000] ∧
    (s.csStack = [] → exec .csexit s = .next { s with rspOut := s.rspOut ++ [0xC000] }) ∧
    (∀ (v : Bool) (rest : List Bool), s.csStack = v :: rest →
      exec .csexit s = .next { s with csStack := rest, ie := v, rspOut := s.rspOut ++ [0x0000] })

/-- `RXSIZE d` (`0110dddd00000000`) answers `OK` and `count` of the receive buffer and writes no buffer (R124). -/
def Obligations.RxsizeAnswersCount : Prop :=
  ∀ (s : State) (d : Dev), s.fg.phase = .idle → (s.dev d).initialised = true →
    encode (.rxsize d) = [(0x6 : BitVec 4) ++ (BitVec.ofFin d : BitVec 4) ++ (0 : BitVec 8)] ∧
    exec (.rxsize d) s = .next (s.answered (.rxsize d) ⟨.ok, BitVec.ofNat 9 (s.dev d).rx.count⟩)

/-- `RXDEQ d` (`0111dddd00000000`) answers `EMPTY` on an empty receive buffer, which stays as it is; otherwise it answers
`OK` and the byte at `tail`, advances `tail` modulo `C` and decrements `count` (R125, R95). -/
def Obligations.RxdeqReturnsTheOldestByte : Prop :=
  ∀ (s : State) (d : Dev), s.fg.phase = .idle → (s.dev d).initialised = true →
    encode (.rxdeq d) = [(0x7 : BitVec 4) ++ (BitVec.ofFin d : BitVec 4) ++ (0 : BitVec 8)] ∧
    ((s.dev d).rx.count = 0 → exec (.rxdeq d) s = .next (s.answered (.rxdeq d) ⟨.empty, 0⟩)) ∧
    ((s.dev d).rx.count ≠ 0 →
      exec (.rxdeq d) s = .next ((s.setDev d { s.dev d with
          rx := { (s.dev d).rx with tail := ((s.dev d).rx.tail + 1) % 2 ^ (s.dev d).rx.k,
                                    count := (s.dev d).rx.count - 1 } }).answered (.rxdeq d)
        ⟨.ok, ((s.dev d).rx.storage.read (s.dev d).rx.tail).setWidth 9⟩))

/-- `RXPEEK d, i` (`1000ddddiiiiiiii`) answers `OK` and the byte at `(tail + i) mod C` when `i < count`, else `EMPTY`; it
writes no buffer (R126, R96). -/
def Obligations.RxpeekShowsALogicalIndex : Prop :=
  ∀ (s : State) (d : Dev) (i : Byte), s.fg.phase = .idle → (s.dev d).initialised = true →
    encode (.rxpeek d i) = [(0x8 : BitVec 4) ++ (BitVec.ofFin d : BitVec 4) ++ i] ∧
    (i.toNat < (s.dev d).rx.count →
      exec (.rxpeek d i) s = .next (s.answered (.rxpeek d i)
        ⟨.ok, ((s.dev d).rx.storage.read (((s.dev d).rx.tail + i.toNat) % 2 ^ (s.dev d).rx.k)).setWidth 9⟩)) ∧
    ((s.dev d).rx.count ≤ i.toNat → exec (.rxpeek d i) s = .next (s.answered (.rxpeek d i) ⟨.empty, 0⟩))

/-- `SEND d, b` (`1001ddddbbbbbbbb`) on a buffer with a free cell writes the byte at `head`, advances `head` modulo `C`,
increments `count` and answers `OK` 1; on a full buffer it changes no buffer and answers `FULL` 0; it arms `TXIE[d]` either
way (R127, R93). -/
def Obligations.SendEnqueuesAndArms : Prop :=
  ∀ (s : State) (d : Dev) (b : Byte), s.fg.phase = .idle → (s.dev d).initialised = true →
    encode (.send d b) = [(0x9 : BitVec 4) ++ (BitVec.ofFin d : BitVec 4) ++ b] ∧
    ((s.dev d).tx.count = 2 ^ (s.dev d).tx.k →
      exec (.send d b) s =
        .next ((s.setDev d { s.dev d with txie := true }).answered (.send d b) ⟨.full, 0⟩)) ∧
    ((s.dev d).tx.count ≠ 2 ^ (s.dev d).tx.k →
      exec (.send d b) s = .next ((s.setDev d { s.dev d with
          tx := { (s.dev d).tx with storage := (s.dev d).tx.storage.write (s.dev d).tx.head b,
                                    head := ((s.dev d).tx.head + 1) % 2 ^ (s.dev d).tx.k,
                                    count := (s.dev d).tx.count + 1 },
          txie := true }).answered (.send d b) ⟨.ok, 1⟩))

/-- `SENDB d, bytes` (header `1010ddddnnnnnnnn`, one payload word per byte, the first byte first) takes the first
`a = min(n, free)` bytes, in order, answers `OK` when that is all of them and `FULL` when it is not, with `a` as the value,
and arms `TXIE[d]`, also when `n = 0` (R128, R102). -/
def Obligations.SendbEnqueuesAPrefixAndArms : Prop :=
  ∀ (s : State) (d : Dev) (bytes : List Byte), s.fg.phase = .idle → (s.dev d).initialised = true →
    (s.dev d).tx.storage.wf → (s.dev d).tx.Ok →
    encode (.sendb d bytes) = ((0xA : BitVec 4) ++ (BitVec.ofFin d : BitVec 4) ++ BitVec.ofNat 8 bytes.length) ::
      bytes.map (BitVec.setWidth 16) ∧
    ∃ (B : RingBuffer) (a : Nat), a = min bytes.length (2 ^ (s.dev d).tx.k - (s.dev d).tx.count) ∧
      B.k = (s.dev d).tx.k ∧ B.contents = (s.dev d).tx.contents ++ bytes.take a ∧
      B.count = (s.dev d).tx.count + a ∧ B.head = ((s.dev d).tx.head + a) % 2 ^ (s.dev d).tx.k ∧
      B.tail = (s.dev d).tx.tail ∧
      exec (.sendb d bytes) s = .next ((s.setDev d { s.dev d with tx := B, txie := true }).answered (.sendb d bytes)
        ⟨if a = bytes.length then .ok else .full, BitVec.ofNat 9 a⟩)

/-- `RXDROPS d` (`1011dddd00000000`) answers `OK` and the drop counter, which it does not clear, whether or not the device is
initialised (R129, U1). -/
def Obligations.RxdropsReadsTheCounter : Prop :=
  ∀ (s : State) (d : Dev), s.fg.phase = .idle → d.val < s.ndev →
    encode (.rxdrops d) = [(0xB : BitVec 4) ++ (BitVec.ofFin d : BitVec 4) ++ (0 : BitVec 8)] ∧
    exec (.rxdrops d) s = .next (s.answered (.rxdrops d) ⟨.ok, (s.dev d).rxDrop.setWidth 9⟩)

/-- A use of a device before its `INIT` faults: the five commands that need an initialised buffer, and both handlers
(R174, U1). -/
def Obligations.UseBeforeInitFaults : Prop :=
  ∀ (s : State) (d : Dev), d.val < s.ndev → (s.dev d).initialised = false →
    (s.fg.phase = .idle → ∀ (i b : Byte) (bytes : List Byte),
      exec (.rxsize d) s = .fault (.uninitialised d) ∧ exec (.rxdeq d) s = .fault (.uninitialised d) ∧
      exec (.rxpeek d i) s = .fault (.uninitialised d) ∧ exec (.send d b) s = .fault (.uninitialised d) ∧
      exec (.sendb d bytes) s = .fault (.uninitialised d)) ∧
    (hrxEnabled d s = true → hrxStep d s = .fault (.uninitialised d)) ∧
    (htxEnabled d s = true → htxStep d s = .fault (.uninitialised d))

/-! ## What each command leaves unchanged -/

/-- Frame of the receive-direction commands and of `RXDROPS`: no byte of memory, no flag, no other device changes; of the
device named only `tail` and `count` of the receive buffer may, and only by `RXDEQ` (R124 to R126, R129). -/
def Obligations.ReceiveCommandsFrame : Prop :=
  ∀ (s t : State) (d : Dev) (i : Instr),
    (i = .rxsize d ∨ i = .rxdeq d ∨ (∃ x, i = .rxpeek d x) ∨ i = .rxdrops d) → exec i s = .next t →
    SameMemory s t ∧ SameOutside s t ∧ t.ie = s.ie ∧ t.csStack = s.csStack ∧
    (∀ e : Dev, e ≠ d → t.dev e = s.dev e) ∧ (i ≠ .rxdeq d → t.devs = s.devs) ∧
    (∃ x y : Nat, t.dev d = { s.dev d with rx := { (s.dev d).rx with tail := x, count := y } })

/-- Frame of `SEND d, b`: the only cell it may store to is the one at `head` of `B(d,TX)`; of the device only that buffer's
`head`, `count`, that cell and `TXIE[d]` may change; `IE`, `cs_stack` and the other devices do not (R127, R93). -/
def Obligations.SendFrame : Prop :=
  ∀ (s t : State) (d : Dev) (b : Byte), exec (.send d b) s = .next t →
    (∀ a : Nat, a = (s.dev d).tx.head →
      ∀ (e : Dev) (q : Dir) (x : Nat), ¬ (e = d ∧ q = .tx ∧ x = a) → t.cell e q x = s.cell e q x) ∧
    ((s.dev d).tx.count = (s.dev d).tx.cap → SameMemory s t) ∧
    SameOutside s t ∧ t.ie = s.ie ∧ t.csStack = s.csStack ∧ (∀ e : Dev, e ≠ d → t.dev e = s.dev e) ∧
    (∃ (m : Memory) (x y : Nat) (v : Bool),
      t.dev d = { s.dev d with tx := { (s.dev d).tx with storage := m, head := x, count := y }, txie := v })

/-- Frame of `SENDB d, bytes`: the cells it may store to are those at `(head + j) mod C` for `j` below the accepted count;
the rest as for `SEND` (R128, R94, R102). -/
def Obligations.SendbFrame : Prop :=
  ∀ (s t : State) (d : Dev) (bytes : List Byte), exec (.sendb d bytes) s = .next t →
    ((s.dev d).tx.head < (s.dev d).tx.cap →
      ∀ (e : Dev) (q : Dir) (x : Nat),
        ¬ (e = d ∧ q = .tx ∧ ∃ j : Nat, j < ((s.dev d).tx.enqueueBatch bytes).2 ∧
            x = ((s.dev d).tx.head + j) % (s.dev d).tx.cap) → t.cell e q x = s.cell e q x) ∧
    (bytes = [] → SameMemory s t) ∧
    SameOutside s t ∧ t.ie = s.ie ∧ t.csStack = s.csStack ∧ (∀ e : Dev, e ≠ d → t.dev e = s.dev e) ∧
    (∃ (m : Memory) (x y : Nat) (v : Bool),
      t.dev d = { s.dev d with tx := { (s.dev d).tx with storage := m, head := x, count := y }, txie := v })

/-- Frame of `INIT d`: no byte of memory, no flag, no other device changes (R122 (b), R22). -/
def Obligations.InitFrame : Prop :=
  ∀ (s t : State) (d : Dev), exec (.init d) s = .next t →
    SameMemory s t ∧ SameOutside s t ∧ t.ie = s.ie ∧ t.csStack = s.csStack ∧ (∀ e : Dev, e ≠ d → t.dev e = s.dev e) ∧
    (∃ (h l c h' l' c' : Nat) (v : Bool), t.dev d = { s.dev d with
        rx := { (s.dev d).rx with head := h, tail := l, count := c },
        tx := { (s.dev d).tx with head := h', tail := l', count := c' }, initialised := v })

/-- Frame of the one-step commands: no buffer and no byte of memory changes; `GIE` writes no stack, `CSENTER`, `CSEXIT`
and `GIE` no device, `IRQEN d` nothing but `RXIE[d]`; none writes the sequencer's registers (R114 to R116, R123). -/
def Obligations.GateCommandsFrame : Prop :=
  ∀ (s t : State) (i : Instr), i.wrapped = false → exec i s = .next t →
    SameMemory s t ∧ SameOutside s t ∧ t.fg = s.fg ∧ (∀ (e : Dev) (q : Dir), t.ring e q = s.ring e q) ∧
    (∀ v : Bool, i = .gie v → t.csStack = s.csStack ∧ t.devs = s.devs) ∧
    (i = .csenter ∨ i = .csexit → t.devs = s.devs) ∧
    (∀ d : Dev, i = .irqen d → t.ie = s.ie ∧ t.csStack = s.csStack ∧ (∀ e : Dev, e ≠ d → t.dev e = s.dev e) ∧
      ∃ v : Bool, t.dev d = { s.dev d with rxie := v })

/-- "Every command leaves `IE` as it found it, except `CSENTER`, `CSEXIT` and `GIE`" (R131). -/
def Obligations.CommandsLeaveIeAsFound : Prop :=
  ∀ (s t : State) (i : Instr), i ≠ .csenter → i ≠ .csexit → (∀ v : Bool, i ≠ .gie v) → exec i s = .next t → t.ie = s.ie

/-- A command that does not name device `e` neither reads nor writes anything of `e`: put any registers and buffers in its
place, and the command does the same to all the rest and leaves those as they are (R120, R132). -/
def Obligations.CommandsOfOtherDevicesAreIndependent : Prop :=
  ∀ (s : State) (i : Instr) (e : Dev) (D : Device), i.dev? ≠ some e →
    exec i (s.setDev e D) = andThen (exec i s) fun t => .next (t.setDev e D)

/-- A handler step of device `d` neither reads nor writes anything of another device (R132). -/
def Obligations.HandlersOfOtherDevicesAreIndependent : Prop :=
  ∀ (s : State) (d e : Dev) (D : Device), d ≠ e →
    hrxStep d (s.setDev e D) = andThen (hrxStep d s) (fun t => .next (t.setDev e D)) ∧
    htxStep d (s.setDev e D) = andThen (htxStep d s) (fun t => .next (t.setDev e D))

/-- Every command, legal or not, is answered by exactly one response word, after those given before (R74). -/
def Obligations.EveryCommandIsAnsweredOnce : Prop :=
  ∀ (s t : State), s.fg.phase = .idle → move .fgCommand s = .next t →
    t.fg.phase = .idle ∧ ∃ r : Response, t.rspOut = s.rspOut ++ [r.word]

/-! ## The RingBuffer primitives -/

/-- The five primitives that are no loop are what their pseudocode says (R92, R93, R95, R96, R97). -/
def Obligations.RingPrimitiveEquations : Prop :=
  ∀ (B : RingBuffer) (b : Byte) (i : Nat),
    B.init = { B with head := 0, tail := 0, count := 0 } ∧
    (B.count = 2 ^ B.k → B.enqueue b = (B, false)) ∧
    (B.count ≠ 2 ^ B.k → B.enqueue b =
      ({ B with storage := B.storage.write B.head b, head := (B.head + 1) % 2 ^ B.k, count := B.count + 1 }, true)) ∧
    (B.count = 0 → B.dequeue = (B, none)) ∧
    (B.count ≠ 0 → B.dequeue =
      ({ B with tail := (B.tail + 1) % 2 ^ B.k, count := B.count - 1 }, some (B.storage.read B.tail))) ∧
    (B.count ≤ i → B.peek i = none) ∧
    (i < B.count → B.peek i = some (B.storage.read ((B.tail + i) % 2 ^ B.k))) ∧
    B.size = B.count

/-- Every primitive keeps the invariants of R23, and `rb_init` establishes them whatever the buffer held (R98). -/
def Obligations.RingPrimitivesKeepTheInvariant : Prop :=
  ∀ (B : RingBuffer) (b : Byte) (bytes : List Byte),
    B.init.Ok ∧ (B.Ok → (B.enqueue b).1.Ok ∧ (B.enqueueBatch bytes).1.Ok ∧ B.dequeue.1.Ok)

/-- The primitives on the list of live elements, and the FIFO property (R100). -/
def Obligations.RingPrimitivesActOnContents : Prop :=
  ∀ (B : RingBuffer) (b : Byte) (bytes : List Byte) (i : Nat), B.storage.wf → B.Ok →
    B.init.contents = [] ∧
    (B.contents.length < 2 ^ B.k → (B.enqueue b).1.contents = B.contents ++ [b] ∧ (B.enqueue b).2 = true) ∧
    (B.contents.length = 2 ^ B.k → (B.enqueue b).1.contents = B.contents ∧ (B.enqueue b).2 = false) ∧
    B.dequeue.2 = B.contents.head? ∧ B.dequeue.1.contents = B.contents.tail ∧
    B.peek i = B.contents[i]? ∧ B.size = B.contents.length ∧
    (bytes.length ≤ 2 ^ B.k - B.contents.length →
      ((B.enqueueBatch bytes).1.drain (B.contents.length + bytes.length)) = B.contents ++ bytes)

/-- The closed form of a batch (R102). -/
def Obligations.BatchClosedForm : Prop :=
  ∀ (B : RingBuffer) (bytes : List Byte), B.storage.wf → B.Ok →
    (B.enqueueBatch bytes).2 = min bytes.length (2 ^ B.k - B.count) ∧
    (B.enqueueBatch bytes).1.contents = B.contents ++ bytes.take (min bytes.length (2 ^ B.k - B.count)) ∧
    (B.enqueueBatch bytes).1.count = B.count + min bytes.length (2 ^ B.k - B.count) ∧
    (B.enqueueBatch bytes).1.head = (B.head + min bytes.length (2 ^ B.k - B.count)) % 2 ^ B.k ∧
    (B.enqueueBatch bytes).1.tail = B.tail

/-- Results depend on the live elements only: two buffers of one capacity with the same contents answer each of the six
primitives alike and stay alike, whatever their dead cells, `head` and `tail` (R91, R99). -/
def Obligations.ResultsDependOnLiveBytesOnly : Prop :=
  ∀ (B B' : RingBuffer) (b : Byte) (bytes : List Byte) (i : Nat), B.storage.wf → B.Ok → B'.storage.wf → B'.Ok →
    B.k = B'.k → B.contents = B'.contents →
    B.init.contents = B'.init.contents ∧
    (B.enqueue b).2 = (B'.enqueue b).2 ∧ (B.enqueue b).1.contents = (B'.enqueue b).1.contents ∧
    (B.enqueueBatch bytes).2 = (B'.enqueueBatch bytes).2 ∧
    (B.enqueueBatch bytes).1.contents = (B'.enqueueBatch bytes).1.contents ∧
    B.dequeue.2 = B'.dequeue.2 ∧ B.dequeue.1.contents = B'.dequeue.1.contents ∧ B.peek i = B'.peek i ∧ B.size = B'.size

/-! ## Interrupt handlers and the environment -/

/-- When a handler step is enabled (R154); and between F1 and F3 none is. That a scheduled step which is not enabled stops
the run with the fault `notEnabled`, by which this says "enabled", is the model's choice (log entry 3; U7: stuck). -/
def Obligations.HandlerEnablingConditions : Prop :=
  ∀ (s : State) (d : Dev),
    (hrxStep d s ≠ .fault (.notEnabled (.hrx d)) ↔
      d.val < s.ndev ∧ s.ie = true ∧ (s.dev d).rxie = true ∧ (s.dev d).rxValid = true) ∧
    (htxStep d s ≠ .fault (.notEnabled (.htx d)) ↔
      d.val < s.ndev ∧ s.ie = true ∧ (s.dev d).txie = true ∧ (s.dev d).txReady = true) ∧
    (s.FgOk → (s.fg.phase = .cs ∨ s.fg.phase = .opDone) →
      hrxStep d s = .fault (.notEnabled (.hrx d)) ∧ htxStep d s = .fault (.notEnabled (.htx d)))

/-- One step of `HRX(d)`: the slot is emptied, the byte is in the trace, and it is enqueued, or on a full buffer dropped
and counted up to 255; `IE` is 1 afterwards; nothing else changes (R140, R39, R157, R158). With no byte pending `rx_data[d]`
is unspecified (R37), so the value it gets is a free one: the statement holds whatever that is. -/
def Obligations.HrxTakesOneByte : Prop :=
  ∀ (s : State) (d : Dev), hrxEnabled d s = true → (s.dev d).initialised = true →
    ((s.dev d).rx.count ≠ 2 ^ (s.dev d).rx.k →
      hrxStep d s = .next { s.setDev d { s.dev d with
          rxValid := false, rxLog := (s.dev d).rxLog ++ [(s.dev d).rxData],
          rxData := Config.freeRxData s.freeIdx d.val ((s.dev d).rxLog ++ [(s.dev d).rxData]),
          rx := { (s.dev d).rx with storage := (s.dev d).rx.storage.write (s.dev d).rx.head (s.dev d).rxData,
                                    head := ((s.dev d).rx.head + 1) % 2 ^ (s.dev d).rx.k,
                                    count := (s.dev d).rx.count + 1 } } with ie := true }) ∧
    ((s.dev d).rx.count = 2 ^ (s.dev d).rx.k →
      hrxStep d s = .next { s.setDev d { s.dev d with
          rxValid := false, rxLog := (s.dev d).rxLog ++ [(s.dev d).rxData],
          rxData := Config.freeRxData s.freeIdx d.val ((s.dev d).rxLog ++ [(s.dev d).rxData]),
          rxDrop := BitVec.ofNat 8 (min ((s.dev d).rxDrop.toNat + 1) 255) } with ie := true })

/-- One step of `HTX(d)`: the byte at `tail` is dequeued and put, or on an empty buffer the source is disabled; `IE` is 1
afterwards; nothing else changes (R141, R40, R157, R158). -/
def Obligations.HtxPutsOneByteOrDisables : Prop :=
  ∀ (s : State) (d : Dev), htxEnabled d s = true → (s.dev d).initialised = true →
    ((s.dev d).tx.count ≠ 0 →
      htxStep d s = .next { s.setDev d { s.dev d with
          txData := (s.dev d).tx.storage.read (s.dev d).tx.tail, txReady := false,
          txLog := (s.dev d).txLog ++ [(s.dev d).tx.storage.read (s.dev d).tx.tail],
          tx := { (s.dev d).tx with tail := ((s.dev d).tx.tail + 1) % 2 ^ (s.dev d).tx.k,
                                    count := (s.dev d).tx.count - 1 } } with ie := true }) ∧
    ((s.dev d).tx.count = 0 →
      htxStep d s = .next { s.setDev d { s.dev d with txie := false } with ie := true })

/-- A handler step leaves the sequencer, `cs_stack`, `IE`, `RXIE[d]` and the ports of commands as they were, and stores to
no cell but, by `HRX(d)`, the one at `head` of `B(d,RX)` (R156 to R158, R140 (c), R141 (d)). -/
def Obligations.HandlerStepsFrame : Prop :=
  ∀ (s t : State) (d : Dev), hrxStep d s = .next t ∨ htxStep d s = .next t →
    SameOutside s t ∧ t.fg = s.fg ∧ t.csStack = s.csStack ∧ t.ie = s.ie ∧ t.rspOut = s.rspOut ∧
    (∀ e : Dev, e ≠ d → t.dev e = s.dev e) ∧ (t.dev d).rxie = (s.dev d).rxie ∧
    (htxStep d s = .next t → SameMemory s t ∧ (t.dev d).rx = (s.dev d).rx ∧ (t.dev d).rxDrop = (s.dev d).rxDrop) ∧
    (hrxStep d s = .next t → (t.dev d).tx = (s.dev d).tx ∧ (t.dev d).txie = (s.dev d).txie ∧
      ∀ a : Nat, a = (s.dev d).rx.head →
        ∀ (e : Dev) (q : Dir) (x : Nat), ¬ (e = d ∧ q = .rx ∧ x = a) → t.cell e q x = s.cell e q x)

/-- Two handler steps enabled at once may be taken in either order, to the same end: of two sources of one device, and of
any sources of two devices (R155; vector V-H-10). -/
def Obligations.EnabledHandlerStepsCommute : Prop :=
  ∀ (s : State) (d e : Dev),
    (hrxEnabled d s = true → htxEnabled e s = true → (s.dev d).initialised = true → (s.dev e).initialised = true →
      andThen (hrxStep d s) (htxStep e) = andThen (htxStep e s) (hrxStep d)) ∧
    (d ≠ e → hrxEnabled d s = true → hrxEnabled e s = true → (s.dev d).initialised = true →
      (s.dev e).initialised = true → andThen (hrxStep d s) (hrxStep e) = andThen (hrxStep e s) (hrxStep d)) ∧
    (d ≠ e → htxEnabled d s = true → htxEnabled e s = true → (s.dev d).initialised = true →
      (s.dev e).initialised = true → andThen (htxStep d s) (htxStep e) = andThen (htxStep e s) (htxStep d))

/-- The two moves of ENV: their preconditions and their effects (R41). That a move whose precondition fails stops the run is
the model's choice (log entry 3). -/
def Obligations.EnvironmentMovesDoWhatTheySay : Prop :=
  ∀ (s : State) (d : Dev) (b : Byte), d.val < s.ndev →
    ((s.dev d).rxValid = false →
      move (.envRx d b) s = .next (s.setDev d { s.dev d with rxData := b, rxValid := true })) ∧
    ((s.dev d).rxValid = true → move (.envRx d b) s = .fault (.notEnabled (.envRx d b))) ∧
    ((s.dev d).txReady = false →
      move (.envTxReady d) s = .next (s.setDev d { s.dev d with txReady := true })) ∧
    ((s.dev d).txReady = true → move (.envTxReady d) s = .fault (.notEnabled (.envTxReady d)))

/-- "The only way a pending bit falls is the handler's own data register access", and the pending byte waits unchanged
(R153, R41). -/
def Obligations.RequestsAreNeverLost : Prop :=
  ∀ (s t : State) (m : Move) (d : Dev), move m s = .next t →
    ((s.dev d).rxValid = true → m ≠ .hrx d →
      (t.dev d).rxValid = true ∧ (t.dev d).rxData = (s.dev d).rxData) ∧
    ((s.dev d).txReady = true → (m ≠ .htx d ∨ (s.dev d).tx.count = 0) → (t.dev d).txReady = true)

/-- Who writes the flags: only FG sets `RXIE[d]`, and nothing but reset clears it (R27); only FG sets `TXIE[d]`, and only
`HTX(d)` on an empty buffer, or reset, clears it (R28); only `HRX(d)` counts a drop, upwards, and only reset clears the count
(R31); only FG and reset touch `cs_stack` (R30). By which commands FG sets the enables: `EnablesAreSetByTheirCommands`. -/
def Obligations.FlagsHaveOnlyTheirWriters : Prop :=
  ∀ (s t : State) (m : Move) (d : Dev), move m s = .next t → m ≠ .reset →
    ((s.dev d).rxie = true → (t.dev d).rxie = true) ∧
    ((s.dev d).rxie = false → (t.dev d).rxie = true → m = .fgMicro ∨ m = .fgCommand) ∧
    ((s.dev d).txie = false → (t.dev d).txie = true → m = .fgMicro ∨ m = .fgCommand) ∧
    ((s.dev d).txie = true → (t.dev d).txie = false → m = .htx d ∧ (s.dev d).tx.count = 0) ∧
    (m ≠ .hrx d → (t.dev d).rxDrop = (s.dev d).rxDrop) ∧ (s.dev d).rxDrop.toNat ≤ (t.dev d).rxDrop.toNat ∧
    (m ≠ .fgMicro → m ≠ .fgCommand → t.csStack = s.csStack)

/-! ## Reset -/

/-- The values that the spec gives for reset (R44), for every configuration; the values the model names for the rest are
log entries 5, 6, 8, 9 and no part of this. -/
def Obligations.ResetValuesOfTheSpec : Prop :=
  ∀ (c : Config) (d : Dev), d.val < c.ndev →
    (State.atReset c).ie = false ∧ (State.atReset c).csStack = [] ∧ (State.atReset c).fg.phase = .idle ∧
    ((State.atReset c).dev d).rxie = false ∧ ((State.atReset c).dev d).txie = false ∧
    ((State.atReset c).dev d).rxDrop = 0 ∧ ((State.atReset c).dev d).rxLog = [] ∧
    ((State.atReset c).dev d).txLog = [] ∧ ((State.atReset c).dev d).initialised = false ∧
    (State.atReset c).config = c

/-- The reset event, at any point of an execution (R170): the values of R44; no response is given; every buffer is
uninitialised; the interface inputs stay as ENV drives them (log entry 10). -/
def Obligations.ResetEventAbandonsTheCommand : Prop :=
  ∀ (s : State), ∃ t : State, move .reset s = .next t ∧
    t.ie = false ∧ t.csStack = [] ∧ t.fg.phase = .idle ∧ t.rspOut = s.rspOut ∧ t.ndev = s.ndev ∧
    ∀ d : Dev, d.val < s.ndev →
      (t.dev d).rxie = false ∧ (t.dev d).txie = false ∧ (t.dev d).rxDrop = 0 ∧ (t.dev d).rxLog = [] ∧
      (t.dev d).txLog = [] ∧ (t.dev d).initialised = false ∧ (t.dev d).rxValid = (s.dev d).rxValid ∧
      (t.dev d).rxData = (s.dev d).rxData ∧ (t.dev d).txReady = (s.dev d).txReady

/-! ## Whole-machine rules -/

/-- The invariant holds after reset, in every configuration within the bounds of R5 and in the model's own. -/
def Obligations.InvariantHoldsAfterReset : Prop :=
  State.reset.Inv ∧ ∀ c : Config, c.wf → (State.atReset c).Inv

/-- Every step keeps the invariant: storage canonical and inside `[0, C)`, registers within their widths (R21, R22), R23
of every initialised buffer, `cs_depth <= CSDEPTH` (R30), the sequencer's registers fit its phase (R59, R121), and no byte
waits in a send buffer whose source is disabled but inside a send command (R133, R142). -/
def Obligations.EveryStepKeepsTheInvariant : Prop :=
  ∀ s t : State, s.Inv → step s = .next t → t.Inv

/-- No byte is stranded: after any step from a good state, whenever `fg.phase = IDLE` and a send buffer of an initialised
device holds a byte, its source is armed (R133, its safety half). -/
def Obligations.NoByteIsStranded : Prop :=
  ∀ (s t : State) (m : Move) (d : Dev), s.Inv → move m s = .next t → t.fg.phase = .idle →
    (t.dev d).initialised = true → 0 < (t.dev d).tx.count → (t.dev d).txie = true

/-- No step of any agent changes the configuration (R45, R90). -/
def Obligations.ConfigurationNeverChanges : Prop :=
  ∀ (s t : State) (m : Move), move m s = .next t → t.config = s.config

/-- A whole command is its micro-steps with no other agent's step between: taking `fgCommand` is taking F0 and then
micro-steps until `fg.phase = IDLE` (R82, R121, R130). -/
def Obligations.WholeCommandIsItsMicroSteps : Prop :=
  ∀ s : State, s.fg.phase = .idle → fgCommand s = andThen (fgMicro s) (fgRun 5)

/-- Nesting safety of the implicit section (R113): F1 saves `IE` and clears it, the body runs with `IE = 0`, F3 leaves `IE`
as F1 found it; and no move of another agent but reset writes `IE` or the sequencer in between. -/
def Obligations.ImplicitSectionRestoresIe : Prop :=
  ∀ (s t u v : State), s.fg.phase = .accepted → fgMicro s = .next t → fgMicro t = .next u → fgMicro u = .next v →
    t.fg.sv = s.ie ∧ t.ie = false ∧ u.ie = false ∧ v.ie = s.ie ∧
    (∀ (m : Move) (x : State), m ≠ .fgMicro → m ≠ .fgCommand → m ≠ .reset →
      (move m t = .next x → x.ie = t.ie ∧ x.fg = t.fg) ∧ (move m u = .next x → x.ie = u.ie ∧ x.fg = u.fg))

/-- Atomicity of wrapped commands (R59): inside the section no handler step is enabled, and an ENV move commutes with the
steps F1, F2, F3, so that they act as one step. -/
def Obligations.CriticalSectionIsAtomic : Prop :=
  ∀ (s : State) (d : Dev) (b : Byte), s.Inv → d.val < s.ndev →
    ((s.fg.phase = .cs ∨ s.fg.phase = .opDone) → hrxEnabled d s = false ∧ htxEnabled d s = false) ∧
    ((s.fg.phase = .accepted ∨ s.fg.phase = .cs ∨ s.fg.phase = .opDone) →
      ((s.dev d).rxValid = false →
        andThen (envRxStep d b s) fgMicro = andThen (fgMicro s) (envRxStep d b)) ∧
      ((s.dev d).txReady = false →
        andThen (envTxReadyStep d s) fgMicro = andThen (fgMicro s) (envTxReadyStep d)))

/-- A command in progress on an initialised device always finishes, within five micro-steps: nothing in the block blocks
(R62, R131). -/
def Obligations.CommandsInProgressFinish : Prop :=
  ∀ (s : State), s.Inv → s.fg.phase ≠ .idle → (∀ d : Dev, d.val < s.ndev → (s.dev d).initialised = true) →
    ∃ t : State, fgRun 5 s = .next t ∧ t.fg.phase = .idle

/-- The send path is FIFO (R60 (a)): along any run of moves of any agents from a good state in which `B(d,TX)` is
initialised and empty, with no reset and no `INIT d`, the bytes put and then those still buffered are the bytes accepted
by `SEND d` and `SENDB d`, in order. -/
def Obligations.SendPathIsFifo : Prop :=
  ∀ (ms : List Move) (s t : State) (d : Dev), s.Inv → (s.dev d).initialised = true → (s.dev d).tx.count = 0 →
    never (clears d) ms s = true → moves ms s = .next t →
    ∃ puts : List Byte, (t.dev d).txLog = (s.dev d).txLog ++ puts ∧
      puts ++ (t.dev d).tx.contents = along (acceptedBy d) ms s

/-- The receive path is FIFO (R60 (b)): along any such run, the bytes returned by `RXDEQ d` and then those still buffered
are the bytes `HRX(d)` took and did not drop, in order, which are a subsequence of the bytes it took. -/
def Obligations.ReceivePathIsFifo : Prop :=
  ∀ (ms : List Move) (s t : State) (d : Dev), s.Inv → (s.dev d).initialised = true → (s.dev d).rx.count = 0 →
    never (clears d) ms s = true → moves ms s = .next t →
    along (returnedBy d) ms s ++ (t.dev d).rx.contents = along (keptBy d) ms s ∧
    ∃ taken : List Byte, (t.dev d).rxLog = (s.dev d).rxLog ++ taken ∧ (along (keptBy d) ms s).Sublist taken

/-! ## More on the sequencer and the port -/

/-- Frame of step F2: it stores to no cell but, for `SEND d, b`, the one at `head` of `B(d,TX)`, and for `SENDB d, bytes`
those at `(head + j) mod C` for `j` below the accepted count; it writes no device but the one named, none of the enables, the
drop counter and the interface signals, not `IE`, not `cs_stack`, neither `fg.cmd` nor `fg.sv`, and gives no response (R121,
R122, R124 to R129). -/
def Obligations.BodyStepFrame : Prop :=
  ∀ (s t : State) (i : Instr), s.fg.phase = .cs → s.fg.cmd = .legal i → fgMicro s = .next t →
    SameOutside s t ∧ t.ie = s.ie ∧ t.csStack = s.csStack ∧ t.rspOut = s.rspOut ∧ t.fg.cmd = s.fg.cmd ∧ t.fg.sv = s.fg.sv ∧
    (∀ e : Dev, i.dev? ≠ some e → t.dev e = s.dev e) ∧
    (∀ e : Dev, ∃ (B B' : RingBuffer) (v : Bool), t.dev e = { s.dev e with rx := B, tx := B', initialised := v }) ∧
    (∀ (d : Dev) (b : Byte), i = .send d b →
      ∀ (e : Dev) (q : Dir) (x : Nat), ¬ (e = d ∧ q = .tx ∧ x = (s.dev d).tx.head) → t.cell e q x = s.cell e q x) ∧
    (∀ (d : Dev) (bytes : List Byte), i = .sendb d bytes → (s.dev d).tx.head < (s.dev d).tx.cap →
      ∀ (e : Dev) (q : Dir) (x : Nat),
        ¬ (e = d ∧ q = .tx ∧ ∃ j : Nat, j < ((s.dev d).tx.enqueueBatch bytes).2 ∧
            x = ((s.dev d).tx.head + j) % (s.dev d).tx.cap) → t.cell e q x = s.cell e q x) ∧
    ((∀ d : Dev, ¬ Command.sendsTo d (.legal i)) → SameMemory s t)

/-- How many words the next command has is told by its header alone: one, and `w[7:0]` payload words more when its opcode is
0xA, whatever else it holds, legal or not (R76, R78). F0 needs the header and its payload presented (R121, the precondition
of F0); that with fewer words on the port no command is presented, and none of its words taken, is the model's choice (log
entry 11). -/
def Obligations.HeaderTellsTheCommandLength : Prop :=
  ∀ (s : State) (w : Word) (ws : List Word) (n : Nat), s.cmdIn = w :: ws →
    n = (if opField w = 0xA then (operandField w).toNat else 0) →
    (n ≤ ws.length → nextCommand s = some (decodeCommand s.ndev w (ws.take n), { s with cmdIn := ws.drop n })) ∧
    (ws.length < n → nextCommand s = none)

/-- Who sets the enables: `RXIE[d]` goes from 0 to 1 only where FG takes `IRQEN d` (R27), and `TXIE[d]` only where FG, with
`SEND d` or `SENDB d` in progress or taken whole, makes the arming step F4 (R28, R121). -/
def Obligations.EnablesAreSetByTheirCommands : Prop :=
  ∀ (s t : State) (m : Move) (d : Dev), move m s = .next t →
    ((s.dev d).rxie = false → (t.dev d).rxie = true →
      (m = .fgMicro ∨ m = .fgCommand) ∧ s.fg.phase = .idle ∧ ∃ u : State, nextCommand s = some (.legal (.irqen d), u)) ∧
    ((s.dev d).txie = false → (t.dev d).txie = true →
      (m = .fgMicro ∧ s.fg.phase = .restored ∧ Command.sendsTo d s.fg.cmd) ∨
      (m = .fgCommand ∧ s.fg.phase ≠ .idle ∧ Command.sendsTo d s.fg.cmd) ∨
      (m = .fgCommand ∧ s.fg.phase = .idle ∧
        ∃ (c : Command) (u : State), nextCommand s = some (c, u) ∧ Command.sendsTo d c))
end

