-- ==== Sys2Proof/Laws/Decode.lean ====
section
/-! SUPPORT. The fields of a header word put together from its fields (spec/30_encoding.md R71), and of a payload word. -/

namespace Sys2Proof

/-- The bits of a header word: the operand, the device, the opcode. -/
theorem getLsbD_header (op : BitVec 4) (d : Dev) (x : Byte) (i : Nat) :
    (header op d x).getLsbD i =
      if i < 8 then x.getLsbD i
      else if i - 8 < 4 then (BitVec.ofFin d : BitVec 4).getLsbD (i - 8) else op.getLsbD (i - 8 - 4) := by
  change ((op ++ (BitVec.ofFin d : BitVec 4) ++ x : BitVec (4 + 4 + 8))).getLsbD i = _
  rw [BitVec.getLsbD_append, BitVec.getLsbD_append]

@[simp] theorem opField_header (op : BitVec 4) (d : Dev) (x : Byte) : opField (header op d x) = op := by
  unfold opField
  ext i hi
  rw [BitVec.getElem_extractLsb', getLsbD_header, if_neg (by omega), if_neg (by omega), BitVec.getLsbD_eq_getElem (by omega)]
  congr 1
  omega

@[simp] theorem devField_header (op : BitVec 4) (d : Dev) (x : Byte) : devField (header op d x) = d := by
  have h : (header op d x).extractLsb' 8 4 = BitVec.ofFin d := by
    ext i hi
    rw [BitVec.getElem_extractLsb', getLsbD_header, if_neg (by omega), if_pos (by omega),
      BitVec.getLsbD_eq_getElem (by omega)]
    congr 1
    omega
  unfold devField
  rw [h]

@[simp] theorem operandField_header (op : BitVec 4) (d : Dev) (x : Byte) : operandField (header op d x) = x := by
  unfold operandField
  ext i hi
  rw [BitVec.getElem_extractLsb', getLsbD_header, if_pos (by omega), BitVec.getLsbD_eq_getElem (by omega)]
  congr 1
  omega

@[simp] theorem operandField_payloadWord (b : Byte) : operandField (payloadWord b) = b := by
  unfold operandField payloadWord
  ext i hi
  simp [hi]
  omega

/-- Every word is the header of its fields. -/
theorem header_fields (w : Word) : header (opField w) (devField w) (operandField w) = w := by
  apply BitVec.eq_of_getLsbD_eq
  intro i hi
  rw [getLsbD_header]
  unfold operandField devField opField
  split
  · simp
    omega
  · split
    · have h4 : i - 8 < 4 := ‹_›
      have : 8 + (i - 8) = i := by omega
      simp only [BitVec.ofFin_toFin, BitVec.getLsbD_extractLsb', this, h4, decide_true, Bool.true_and]
    · have h4 : i - 8 - 4 < 4 := by omega
      have : 12 + (i - 8 - 4) = i := by omega
      simp [this, h4]

/-- A header word is its fields. -/
theorem header_inj (op op' : BitVec 4) (d d' : Dev) (x x' : Byte) :
    header op d x = header op' d' x' ↔ op = op' ∧ d = d' ∧ x = x' := by
  constructor
  · intro h
    exact ⟨by rw [← opField_header op d x, h, opField_header], by rw [← devField_header op d x, h, devField_header],
      by rw [← operandField_header op d x, h, operandField_header]⟩
  · rintro ⟨rfl, rfl, rfl⟩; rfl

/-- Masking a header word field by field, for a mask that is itself a header word. -/
theorem header_and (op m : BitVec 4) (d e : Dev) (x y : Byte) (f : Dev)
    (hf : (BitVec.ofFin d : BitVec 4) &&& BitVec.ofFin e = BitVec.ofFin f) :
    header op d x &&& header m e y = header (op &&& m) f (x &&& y) := by
  apply BitVec.eq_of_getLsbD_eq
  intro i hi
  rw [BitVec.getLsbD_and, getLsbD_header, getLsbD_header, getLsbD_header, ← hf]
  split
  · rw [BitVec.getLsbD_and]
  · split
    · rw [BitVec.getLsbD_and]
    · rw [BitVec.getLsbD_and]

/-- The masks of R72 on a header word. -/
theorem header_mask_dev (op : BitVec 4) (d : Dev) (x : Byte) : header op d x &&& 0xF0FF = header op 0 x := by
  rw [show (0xF0FF : Word) = header 0xF 0 0xFF by decide, header_and (f := 0)]
  · rw [show op &&& 0xF = op by revert op; decide, show x &&& 0xFF = x by revert x; decide]
  · revert d; decide

theorem header_mask_dev_operand (op : BitVec 4) (d : Dev) (x : Byte) : header op d x &&& 0xF000 = header op 0 0 := by
  rw [show (0xF000 : Word) = header 0xF 0 0 by decide, header_and (f := 0)]
  · rw [show op &&& 0xF = op by revert op; decide, show x &&& 0 = 0 by simp]
  · revert d; decide

theorem header_mask_bit (op : BitVec 4) (d : Dev) (x : Byte) :
    header op d x &&& 0xFFFE = header op d (x &&& 0xFE) := by
  rw [show (0xFFFE : Word) = header 0xF 15 0xFE by decide, header_and (f := d)]
  · rw [show op &&& 0xF = op by revert op; decide]
  · revert d; decide

theorem header_mask_none (op : BitVec 4) (d : Dev) (x : Byte) : header op d x &&& 0xFFFF = header op d x := by
  rw [show (0xFFFF : Word) = header 0xF 15 0xFF by decide, header_and (f := d)]
  · rw [show op &&& 0xF = op by revert op; decide, show x &&& 0xFF = x by revert x; decide]
  · revert d; decide

/-- What the table of R72 makes of a header word, opcode by opcode. -/
theorem decodeHeader_header (op : BitVec 4) (d : Dev) (x : Byte) (p : List Word) :
    decodeHeader (header op d x) p =
      if op = 0x1 ∧ x = 0 then .ok (.init d)
      else if op = 0x2 ∧ x = 0 then .ok (.irqen d)
      else if op = 0x3 ∧ d = 0 ∧ x &&& 0xFE = 0 then .ok (.gie (x.getLsbD 0))
      else if op = 0x4 ∧ d = 0 ∧ x = 0 then .ok .csenter
      else if op = 0x5 ∧ d = 0 ∧ x = 0 then .ok .csexit
      else if op = 0x6 ∧ x = 0 then .ok (.rxsize d)
      else if op = 0x7 ∧ x = 0 then .ok (.rxdeq d)
      else if op = 0x8 then .ok (.rxpeek d x)
      else if op = 0x9 then .ok (.send d x)
      else if op = 0xA then .ok (.sendb d (payloadBytes p))
      else if op = 0xB ∧ x = 0 then .ok (.rxdrops d)
      else .error (if reservedOp op then .reservedOpcode else .mustBeZero) := by
  have e1 : (0x1000 : Word) = header 0x1 0 0 := by decide
  have e2 : (0x2000 : Word) = header 0x2 0 0 := by decide
  have e3 : (0x3000 : Word) = header 0x3 0 0 := by decide
  have e4 : (0x4000 : Word) = header 0x4 0 0 := by decide
  have e5 : (0x5000 : Word) = header 0x5 0 0 := by decide
  have e6 : (0x6000 : Word) = header 0x6 0 0 := by decide
  have e7 : (0x7000 : Word) = header 0x7 0 0 := by decide
  have e8 : (0x8000 : Word) = header 0x8 0 0 := by decide
  have e9 : (0x9000 : Word) = header 0x9 0 0 := by decide
  have ea : (0xA000 : Word) = header 0xA 0 0 := by decide
  have eb : (0xB000 : Word) = header 0xB 0 0 := by decide
  have hsel : ∀ r : OpRow, r.selects (header op d x) = decide (header op d x &&& r.mask = r.pat) := fun r => by
    simp [OpRow.selects, Bool.beq_eq_decide_eq]
  have hfind : ∀ (r : OpRow) (l : List OpRow) (q : OpRow → Bool),
      (r :: l).find? q = if q r = true then some r else l.find? q := fun r l q => by
    rw [List.find?_cons]
    cases q r <;> rfl
  unfold decodeHeader opRows
  simp only [hfind, List.find?_nil, hsel, header_mask_dev, header_mask_bit, header_mask_none, header_mask_dev_operand,
    e1, e2, e3, e4, e5, e6, e7, e8, e9, ea, eb, header_inj, true_and, and_true, opField_header, devField_header,
    operandField_header, decide_eq_true_eq]
  by_cases h1 : op = 0x1 ∧ x = 0
  · simp only [if_pos h1]
  simp only [if_neg h1]
  by_cases h2 : op = 0x2 ∧ x = 0
  · simp only [if_pos h2]
  simp only [if_neg h2]
  by_cases h3 : op = 0x3 ∧ d = 0 ∧ x &&& 0xFE = 0
  · simp only [if_pos h3]
  simp only [if_neg h3]
  by_cases h4 : op = 0x4 ∧ d = 0 ∧ x = 0
  · simp only [if_pos h4]
  simp only [if_neg h4]
  by_cases h5 : op = 0x5 ∧ d = 0 ∧ x = 0
  · simp only [if_pos h5]
  simp only [if_neg h5]
  by_cases h6 : op = 0x6 ∧ x = 0
  · simp only [if_pos h6]
  simp only [if_neg h6]
  by_cases h7 : op = 0x7 ∧ x = 0
  · simp only [if_pos h7]
  simp only [if_neg h7]
  by_cases h8 : op = 0x8
  · simp only [if_pos h8]
  simp only [if_neg h8]
  by_cases h9 : op = 0x9
  · simp only [if_pos h9]
  simp only [if_neg h9]
  by_cases ha : op = 0xA
  · simp only [if_pos ha]
  simp only [if_neg ha]
  by_cases hb : op = 0xB ∧ x = 0
  · simp only [if_pos hb]
  simp only [if_neg hb]

/-- The payload bytes of the payload words of some bytes are those bytes (R76). -/
@[simp] theorem payloadBytes_map_payloadWord (bytes : List Byte) : payloadBytes (bytes.map payloadWord) = bytes := by
  simp [payloadBytes, Function.comp_def]

end Sys2Proof
end

