-- ==== Sys2Proof/Laws/State.lean ====
section
/-! SUPPORT. Field by field what each update of the state writes and leaves, so that no later proof unfolds a record
update; and how the access to one device meets the update of a device. -/

namespace Sys2Proof.Machine

/-! ## State.setDev -/

@[simp] theorem State.setDev_csDepth (s : State) (d : Dev) (D : Device) : (s.setDev d D).csDepth = s.csDepth := rfl

@[simp] theorem State.setDev_ie (s : State) (d : Dev) (D : Device) : (s.setDev d D).ie = s.ie := rfl

@[simp] theorem State.setDev_devs (s : State) (d : Dev) (D : Device) : (s.setDev d D).devs = s.devs.set d.val D := rfl

@[simp] theorem State.setDev_csStack (s : State) (d : Dev) (D : Device) : (s.setDev d D).csStack = s.csStack := rfl

@[simp] theorem State.setDev_fg (s : State) (d : Dev) (D : Device) : (s.setDev d D).fg = s.fg := rfl

@[simp] theorem State.setDev_cmdIn (s : State) (d : Dev) (D : Device) : (s.setDev d D).cmdIn = s.cmdIn := rfl

@[simp] theorem State.setDev_rspOut (s : State) (d : Dev) (D : Device) : (s.setDev d D).rspOut = s.rspOut := rfl

@[simp] theorem State.setDev_sched (s : State) (d : Dev) (D : Device) : (s.setDev d D).sched = s.sched := rfl

@[simp] theorem State.setDev_freeIdx (s : State) (d : Dev) (D : Device) : (s.setDev d D).freeIdx = s.freeIdx := rfl

/-! ## State.respond -/

@[simp] theorem State.respond_csDepth (s : State) (r : Response) : (s.respond r).csDepth = s.csDepth := rfl

@[simp] theorem State.respond_ie (s : State) (r : Response) : (s.respond r).ie = s.ie := rfl

@[simp] theorem State.respond_devs (s : State) (r : Response) : (s.respond r).devs = s.devs := rfl

@[simp] theorem State.respond_csStack (s : State) (r : Response) : (s.respond r).csStack = s.csStack := rfl

@[simp] theorem State.respond_fg (s : State) (r : Response) : (s.respond r).fg = s.fg := rfl

@[simp] theorem State.respond_cmdIn (s : State) (r : Response) : (s.respond r).cmdIn = s.cmdIn := rfl

@[simp] theorem State.respond_rspOut (s : State) (r : Response) : (s.respond r).rspOut = s.rspOut ++ [r.word] := rfl

@[simp] theorem State.respond_sched (s : State) (r : Response) : (s.respond r).sched = s.sched := rfl

@[simp] theorem State.respond_freeIdx (s : State) (r : Response) : (s.respond r).freeIdx = s.freeIdx := rfl

/-! ## State.setPhase -/

@[simp] theorem State.setPhase_csDepth (s : State) (p : Phase) : (s.setPhase p).csDepth = s.csDepth := rfl

@[simp] theorem State.setPhase_ie (s : State) (p : Phase) : (s.setPhase p).ie = s.ie := rfl

@[simp] theorem State.setPhase_devs (s : State) (p : Phase) : (s.setPhase p).devs = s.devs := rfl

@[simp] theorem State.setPhase_csStack (s : State) (p : Phase) : (s.setPhase p).csStack = s.csStack := rfl

@[simp] theorem State.setPhase_fg_phase (s : State) (p : Phase) : (s.setPhase p).fg.phase = p := rfl

@[simp] theorem State.setPhase_fg_cmd (s : State) (p : Phase) : (s.setPhase p).fg.cmd = s.fg.cmd := rfl

@[simp] theorem State.setPhase_fg_sv (s : State) (p : Phase) : (s.setPhase p).fg.sv = s.fg.sv := rfl

@[simp] theorem State.setPhase_fg_rsp (s : State) (p : Phase) : (s.setPhase p).fg.rsp = s.fg.rsp := rfl

@[simp] theorem State.setPhase_cmdIn (s : State) (p : Phase) : (s.setPhase p).cmdIn = s.cmdIn := rfl

@[simp] theorem State.setPhase_rspOut (s : State) (p : Phase) : (s.setPhase p).rspOut = s.rspOut := rfl

@[simp] theorem State.setPhase_sched (s : State) (p : Phase) : (s.setPhase p).sched = s.sched := rfl

@[simp] theorem State.setPhase_freeIdx (s : State) (p : Phase) : (s.setPhase p).freeIdx = s.freeIdx := rfl

/-! ## State.setRsp -/

@[simp] theorem State.setRsp_csDepth (s : State) (r : Response) : (s.setRsp r).csDepth = s.csDepth := rfl

@[simp] theorem State.setRsp_ie (s : State) (r : Response) : (s.setRsp r).ie = s.ie := rfl

@[simp] theorem State.setRsp_devs (s : State) (r : Response) : (s.setRsp r).devs = s.devs := rfl

@[simp] theorem State.setRsp_csStack (s : State) (r : Response) : (s.setRsp r).csStack = s.csStack := rfl

@[simp] theorem State.setRsp_fg_phase (s : State) (r : Response) : (s.setRsp r).fg.phase = s.fg.phase := rfl

@[simp] theorem State.setRsp_fg_cmd (s : State) (r : Response) : (s.setRsp r).fg.cmd = s.fg.cmd := rfl

@[simp] theorem State.setRsp_fg_sv (s : State) (r : Response) : (s.setRsp r).fg.sv = s.fg.sv := rfl

@[simp] theorem State.setRsp_fg_rsp (s : State) (r : Response) : (s.setRsp r).fg.rsp = r := rfl

@[simp] theorem State.setRsp_cmdIn (s : State) (r : Response) : (s.setRsp r).cmdIn = s.cmdIn := rfl

@[simp] theorem State.setRsp_rspOut (s : State) (r : Response) : (s.setRsp r).rspOut = s.rspOut := rfl

@[simp] theorem State.setRsp_sched (s : State) (r : Response) : (s.setRsp r).sched = s.sched := rfl

@[simp] theorem State.setRsp_freeIdx (s : State) (r : Response) : (s.setRsp r).freeIdx = s.freeIdx := rfl

/-! ## csImplicitEnter -/

@[simp] theorem csImplicitEnter_csDepth (s : State) : (csImplicitEnter s).csDepth = s.csDepth := rfl

@[simp] theorem csImplicitEnter_ie (s : State) : (csImplicitEnter s).ie = false := rfl

@[simp] theorem csImplicitEnter_devs (s : State) : (csImplicitEnter s).devs = s.devs := rfl

@[simp] theorem csImplicitEnter_csStack (s : State) : (csImplicitEnter s).csStack = s.csStack := rfl

@[simp] theorem csImplicitEnter_fg_phase (s : State) : (csImplicitEnter s).fg.phase = s.fg.phase := rfl

@[simp] theorem csImplicitEnter_fg_cmd (s : State) : (csImplicitEnter s).fg.cmd = s.fg.cmd := rfl

@[simp] theorem csImplicitEnter_fg_sv (s : State) : (csImplicitEnter s).fg.sv = s.ie := rfl

@[simp] theorem csImplicitEnter_fg_rsp (s : State) : (csImplicitEnter s).fg.rsp = s.fg.rsp := rfl

@[simp] theorem csImplicitEnter_cmdIn (s : State) : (csImplicitEnter s).cmdIn = s.cmdIn := rfl

@[simp] theorem csImplicitEnter_rspOut (s : State) : (csImplicitEnter s).rspOut = s.rspOut := rfl

@[simp] theorem csImplicitEnter_sched (s : State) : (csImplicitEnter s).sched = s.sched := rfl

@[simp] theorem csImplicitEnter_freeIdx (s : State) : (csImplicitEnter s).freeIdx = s.freeIdx := rfl

/-! ## csImplicitExit -/

@[simp] theorem csImplicitExit_csDepth (s : State) : (csImplicitExit s).csDepth = s.csDepth := rfl

@[simp] theorem csImplicitExit_ie (s : State) : (csImplicitExit s).ie = s.fg.sv := rfl

@[simp] theorem csImplicitExit_devs (s : State) : (csImplicitExit s).devs = s.devs := rfl

@[simp] theorem csImplicitExit_csStack (s : State) : (csImplicitExit s).csStack = s.csStack := rfl

@[simp] theorem csImplicitExit_fg (s : State) : (csImplicitExit s).fg = s.fg := rfl

@[simp] theorem csImplicitExit_cmdIn (s : State) : (csImplicitExit s).cmdIn = s.cmdIn := rfl

@[simp] theorem csImplicitExit_rspOut (s : State) : (csImplicitExit s).rspOut = s.rspOut := rfl

@[simp] theorem csImplicitExit_sched (s : State) : (csImplicitExit s).sched = s.sched := rfl

@[simp] theorem csImplicitExit_freeIdx (s : State) : (csImplicitExit s).freeIdx = s.freeIdx := rfl

/-! ## acceptStep -/

@[simp] theorem acceptStep_csDepth (i : Instr) (s : State) : (acceptStep i s).csDepth = s.csDepth := rfl

@[simp] theorem acceptStep_ie (i : Instr) (s : State) : (acceptStep i s).ie = s.ie := rfl

@[simp] theorem acceptStep_devs (i : Instr) (s : State) : (acceptStep i s).devs = s.devs := rfl

@[simp] theorem acceptStep_csStack (i : Instr) (s : State) : (acceptStep i s).csStack = s.csStack := rfl

@[simp] theorem acceptStep_fg_phase (i : Instr) (s : State) : (acceptStep i s).fg.phase = .accepted := rfl

@[simp] theorem acceptStep_fg_cmd (i : Instr) (s : State) : (acceptStep i s).fg.cmd = .legal i := rfl

@[simp] theorem acceptStep_fg_sv (i : Instr) (s : State) : (acceptStep i s).fg.sv = s.fg.sv := rfl

@[simp] theorem acceptStep_fg_rsp (i : Instr) (s : State) : (acceptStep i s).fg.rsp = s.fg.rsp := rfl

@[simp] theorem acceptStep_cmdIn (i : Instr) (s : State) : (acceptStep i s).cmdIn = s.cmdIn := rfl

@[simp] theorem acceptStep_rspOut (i : Instr) (s : State) : (acceptStep i s).rspOut = s.rspOut := rfl

@[simp] theorem acceptStep_sched (i : Instr) (s : State) : (acceptStep i s).sched = s.sched := rfl

@[simp] theorem acceptStep_freeIdx (i : Instr) (s : State) : (acceptStep i s).freeIdx = s.freeIdx := rfl

/-! ## handlerEntry -/

@[simp] theorem handlerEntry_csDepth (s : State) : (handlerEntry s).csDepth = s.csDepth := rfl

@[simp] theorem handlerEntry_ie (s : State) : (handlerEntry s).ie = false := rfl

@[simp] theorem handlerEntry_devs (s : State) : (handlerEntry s).devs = s.devs := rfl

@[simp] theorem handlerEntry_csStack (s : State) : (handlerEntry s).csStack = s.csStack := rfl

@[simp] theorem handlerEntry_fg (s : State) : (handlerEntry s).fg = s.fg := rfl

@[simp] theorem handlerEntry_cmdIn (s : State) : (handlerEntry s).cmdIn = s.cmdIn := rfl

@[simp] theorem handlerEntry_rspOut (s : State) : (handlerEntry s).rspOut = s.rspOut := rfl

@[simp] theorem handlerEntry_sched (s : State) : (handlerEntry s).sched = s.sched := rfl

@[simp] theorem handlerEntry_freeIdx (s : State) : (handlerEntry s).freeIdx = s.freeIdx := rfl

/-! ## handlerReturn -/

@[simp] theorem handlerReturn_csDepth (s : State) : (handlerReturn s).csDepth = s.csDepth := rfl

@[simp] theorem handlerReturn_ie (s : State) : (handlerReturn s).ie = true := rfl

@[simp] theorem handlerReturn_devs (s : State) : (handlerReturn s).devs = s.devs := rfl

@[simp] theorem handlerReturn_csStack (s : State) : (handlerReturn s).csStack = s.csStack := rfl

@[simp] theorem handlerReturn_fg (s : State) : (handlerReturn s).fg = s.fg := rfl

@[simp] theorem handlerReturn_cmdIn (s : State) : (handlerReturn s).cmdIn = s.cmdIn := rfl

@[simp] theorem handlerReturn_rspOut (s : State) : (handlerReturn s).rspOut = s.rspOut := rfl

@[simp] theorem handlerReturn_sched (s : State) : (handlerReturn s).sched = s.sched := rfl

@[simp] theorem handlerReturn_freeIdx (s : State) : (handlerReturn s).freeIdx = s.freeIdx := rfl

/-! ## One device -/

/-- Reading back the device just written. -/
theorem State.dev_setDev_self (s : State) (d : Dev) (D : Device) (h : d.val < s.ndev) : (s.setDev d D).dev d = D := by
  simp [State.dev, State.setDev, State.ndev] at *; simp [h]

/-- Another device is as before. -/
theorem State.dev_setDev_other (s : State) (d e : Dev) (D : Device) (h : e ≠ d) : (s.setDev d D).dev e = s.dev e := by
  have : d.val ≠ e.val := fun h' => h (Fin.ext h'.symm)
  simp [State.dev, State.setDev, List.getD_eq_getElem?_getD, this]

/-- Writing a device twice. -/
@[simp] theorem State.setDev_setDev_self (s : State) (d : Dev) (D E : Device) :
    (s.setDev d D).setDev d E = s.setDev d E := by
  simp [State.setDev]

/-- Writes to two devices commute. -/
theorem State.setDev_comm (s : State) (d e : Dev) (D E : Device) (h : d ≠ e) :
    (s.setDev d D).setDev e E = (s.setDev e E).setDev d D := by
  have : d.val ≠ e.val := fun h' => h (Fin.ext h')
  simp [State.setDev, List.set_comm _ _ this]

/-- Writing back what was read changes nothing. -/
theorem State.setDev_dev (s : State) (d : Dev) (h : d.val < s.ndev) : s.setDev d (s.dev d) = s := by
  unfold State.setDev State.dev
  have : d.val < s.devs.length := h
  simp [this]

/-- The number of devices never changes by writing one. -/
@[simp] theorem State.ndev_setDev (s : State) (d : Dev) (D : Device) : (s.setDev d D).ndev = s.ndev := by
  simp [State.ndev]

/-- A device that is initialised is one of the block. -/
theorem State.lt_of_initialised (s : State) (d : Dev) (h : (s.dev d).initialised = true) : d.val < s.ndev := by
  by_contra hn
  have hn' : s.devs.length ≤ d.val := by simpa [State.ndev] using hn
  have : s.dev d = Device.absent := by simp [State.dev, hn']
  rw [this] at h; exact absurd h (by decide)

/-- A device of the block is an entry of `devs`. -/
theorem State.dev_mem (s : State) (d : Dev) (h : d.val < s.ndev) : s.dev d ∈ s.devs := by
  have h' : d.val < s.devs.length := h
  simp [State.dev, h']

@[simp] theorem State.hasDev_iff (s : State) (d : Dev) : s.hasDev d = true ↔ d.val < s.ndev := by
  simp [State.hasDev]

/-- `dev` reads nothing but `devs`. -/
theorem State.dev_congr {s t : State} (h : s.devs = t.devs) (d : Dev) : s.dev d = t.dev d := by
  simp [State.dev, h]

/-- `ndev` reads nothing but `devs`. -/
theorem State.ndev_congr {s t : State} (h : s.devs = t.devs) : s.ndev = t.ndev := by
  simp [State.ndev, h]

@[simp] theorem State.respond_dev (s : State) (r : Response) (e : Dev) : (s.respond r).dev e = s.dev e := rfl

@[simp] theorem State.respond_ndev (s : State) (r : Response) : (s.respond r).ndev = s.ndev := rfl

@[simp] theorem State.setPhase_dev (s : State) (p : Phase) (e : Dev) : (s.setPhase p).dev e = s.dev e := rfl

@[simp] theorem State.setPhase_ndev (s : State) (p : Phase) : (s.setPhase p).ndev = s.ndev := rfl

@[simp] theorem State.setRsp_dev (s : State) (r : Response) (e : Dev) : (s.setRsp r).dev e = s.dev e := rfl

@[simp] theorem State.setRsp_ndev (s : State) (r : Response) : (s.setRsp r).ndev = s.ndev := rfl

@[simp] theorem csImplicitEnter_dev (s : State) (e : Dev) : (csImplicitEnter s).dev e = s.dev e := rfl

@[simp] theorem csImplicitEnter_ndev (s : State) : (csImplicitEnter s).ndev = s.ndev := rfl

@[simp] theorem csImplicitExit_dev (s : State) (e : Dev) : (csImplicitExit s).dev e = s.dev e := rfl

@[simp] theorem csImplicitExit_ndev (s : State) : (csImplicitExit s).ndev = s.ndev := rfl

@[simp] theorem acceptStep_dev (i : Instr) (s : State) (e : Dev) : (acceptStep i s).dev e = s.dev e := rfl

@[simp] theorem acceptStep_ndev (i : Instr) (s : State) : (acceptStep i s).ndev = s.ndev := rfl

@[simp] theorem handlerEntry_dev (s : State) (e : Dev) : (handlerEntry s).dev e = s.dev e := rfl

@[simp] theorem handlerEntry_ndev (s : State) : (handlerEntry s).ndev = s.ndev := rfl

@[simp] theorem handlerReturn_dev (s : State) (e : Dev) : (handlerReturn s).dev e = s.dev e := rfl

@[simp] theorem handlerReturn_ndev (s : State) : (handlerReturn s).ndev = s.ndev := rfl

end Sys2Proof.Machine
end

