-- ==== Sys2Proof/Laws/Memory.lean ====
section
/-! SUPPORT. The laws of storage: a read after a write, and the canonical form, which every memory operation keeps. -/

namespace Sys2Proof.Machine

@[simp] theorem Memory.read_nil (a : Nat) : Memory.read [] a = Memory.unlisted := rfl

@[simp] theorem Memory.read_cons (x : Nat) (b : Byte) (m : Memory) (a : Nat) :
    Memory.read ((x, b) :: m) a = if x = a then b else Memory.read m a := rfl

/-- A cell below every listed index reads as the unlisted byte. -/
theorem Memory.read_of_lt (m : Memory) (a : Nat) (h : ∀ x ∈ m, a < x.1) : Memory.read m a = Memory.unlisted := by
  induction m with
  | nil => rfl
  | cons x m ih =>
    obtain ⟨x, b⟩ := x
    have hx : a < x := h (x, b) (by simp)
    rw [Memory.read_cons, if_neg (by omega)]
    exact ih fun y hy => h y (by simp [hy])

/-- The cell written reads as the byte written. -/
theorem Memory.read_write_same (m : Memory) (a : Nat) (v : Byte) (h : m.wf) : (Memory.write m a v).read a = v := by
  induction m with
  | nil => by_cases hv : v = Memory.unlisted <;> simp [Memory.write, hv]
  | cons x m ih =>
    obtain ⟨x, b⟩ := x
    have hlt : ∀ y ∈ m, x < y.1 := fun y hy => (List.pairwise_cons.1 h.1).1 y hy
    have hm : Memory.wf m := ⟨(List.pairwise_cons.1 h.1).2, fun y hy => h.2 y (by simp [hy])⟩
    unfold Memory.write
    split
    · rename_i hax
      split
      · rename_i hv
        rw [Memory.read_of_lt _ _ (by intro y hy; rcases List.mem_cons.1 hy with rfl | hy; exact hax; exact lt_trans hax (hlt y hy)), hv]
      · simp
    · split
      · rename_i hax
        split
        · rename_i hv; rw [Memory.read_of_lt _ _ (by subst hax; exact hlt), hv]
        · simp
      · rename_i h1 h2
        rw [Memory.read_cons, if_neg (fun h' => h2 h'.symm)]
        exact ih hm

/-- Every other cell reads as before. -/
theorem Memory.read_write_other (m : Memory) (a a' : Nat) (v : Byte) (h : a' ≠ a) :
    (Memory.write m a v).read a' = m.read a' := by
  induction m with
  | nil => by_cases hv : v = Memory.unlisted <;> simp [Memory.write, hv, Ne.symm h]
  | cons x m ih =>
    obtain ⟨x, b⟩ := x
    unfold Memory.write
    split
    · split
      · rfl
      · simp [Ne.symm h]
    · split
      · rename_i hax
        split
        · simp [← hax, Ne.symm h]
        · simp [← hax, Ne.symm h]
      · simp [ih]

/-- A write lists no cell but the one written and those listed before. -/
theorem Memory.mem_write (m : Memory) (a : Nat) (v : Byte) (y : Host.Cell) (h : y ∈ Memory.write m a v) :
    (y = (a, v) ∧ v ≠ Memory.unlisted) ∨ y ∈ m := by
  induction m with
  | nil =>
    by_cases hv : v = Memory.unlisted
    · simp [Memory.write, hv] at h
    · left; simpa [Memory.write, hv] using h
  | cons x m ih =>
    obtain ⟨x, b⟩ := x
    unfold Memory.write at h
    split at h
    · split at h
      · exact .inr h
      · rcases List.mem_cons.1 h with rfl | h
        · exact .inl ⟨rfl, ‹_›⟩
        · exact .inr h
    · split at h
      · split at h
        · exact .inr (by simp [h])
        · rcases List.mem_cons.1 h with rfl | h
          · exact .inl ⟨rfl, ‹_›⟩
          · exact .inr (by simp [h])
      · rcases List.mem_cons.1 h with rfl | h
        · exact .inr (by simp)
        · rcases ih h with h | h
          · exact .inl h
          · exact .inr (by simp [h])

/-- A write keeps the canonical form. -/
theorem Memory.write_wf (m : Memory) (a : Nat) (v : Byte) (h : m.wf) : Memory.wf (Memory.write m a v) := by
  refine ⟨?_, fun y hy => ?_⟩
  · induction m with
    | nil => by_cases hv : v = Memory.unlisted <;> simp [Memory.write, hv]
    | cons x m ih =>
      obtain ⟨x, b⟩ := x
      have hlt : ∀ y ∈ m, x < y.1 := fun y hy => (List.pairwise_cons.1 h.1).1 y hy
      have hm : Memory.wf m := ⟨(List.pairwise_cons.1 h.1).2, fun y hy => h.2 y (by simp [hy])⟩
      unfold Memory.write
      split
      · rename_i hax
        split
        · exact h.1
        · refine List.pairwise_cons.2 ⟨fun y hy => ?_, h.1⟩
          rcases List.mem_cons.1 hy with rfl | hy
          · exact hax
          · exact lt_trans hax (hlt y hy)
      · split
        · rename_i hax
          split
          · exact hm.1
          · exact List.pairwise_cons.2 ⟨fun y hy => by subst hax; exact hlt y hy, hm.1⟩
        · rename_i h1 h2
          refine List.pairwise_cons.2 ⟨fun y hy => ?_, ih hm⟩
          rcases Memory.mem_write m a v y hy with ⟨rfl, -⟩ | hy
          · show x < a; omega
          · exact hlt y hy
  · rcases Memory.mem_write m a v y hy with ⟨rfl, hv⟩ | hy
    · exact hv
    · exact h.2 y hy

/-- A write inside `[0, C)` keeps every listed index there. -/
theorem Memory.write_bound (m : Memory) (a : Nat) (v : Byte) (c : Nat) (h : ∀ x ∈ m, x.1 < c) (ha : a < c) :
    ∀ x ∈ Memory.write m a v, x.1 < c := by
  intro x hx
  rcases Memory.mem_write m a v x hx with ⟨rfl, -⟩ | hx
  · exact ha
  · exact h x hx

/-- Two canonical memories that read alike are equal: equal memories are equal data. -/
theorem Memory.ext_of_read (m n : Memory) (hm : m.wf) (hn : n.wf) (h : ∀ a, m.read a = n.read a) : m = n := by
  induction m generalizing n with
  | nil =>
    cases n with
    | nil => rfl
    | cons y n =>
      obtain ⟨y, c⟩ := y
      have := h y
      simp at this
      exact absurd this.symm (hn.2 (y, c) (by simp))
  | cons x m ih =>
    obtain ⟨x, b⟩ := x
    have hltm : ∀ y ∈ m, x < y.1 := fun y hy => (List.pairwise_cons.1 hm.1).1 y hy
    have hm' : Memory.wf m := ⟨(List.pairwise_cons.1 hm.1).2, fun y hy => hm.2 y (by simp [hy])⟩
    have hb : b ≠ Memory.unlisted := hm.2 (x, b) (by simp)
    cases n with
    | nil =>
      have := h x
      simp at this
      exact absurd this hb
    | cons y n =>
      obtain ⟨y, c⟩ := y
      have hltn : ∀ z ∈ n, y < z.1 := fun z hz => (List.pairwise_cons.1 hn.1).1 z hz
      have hn' : Memory.wf n := ⟨(List.pairwise_cons.1 hn.1).2, fun z hz => hn.2 z (by simp [hz])⟩
      have hc : c ≠ Memory.unlisted := hn.2 (y, c) (by simp)
      have hxy : x = y := by
        rcases Nat.lt_trichotomy x y with hl | he | hl
        · have h1 := h x
          rw [Memory.read_cons, if_pos rfl, Memory.read_of_lt _ x (by
            intro z hz; rcases List.mem_cons.1 hz with rfl | hz; exact hl; exact lt_trans hl (hltn z hz))] at h1
          exact absurd h1 hb
        · exact he
        · have h1 := h y
          rw [Memory.read_cons (x := y), if_pos rfl, Memory.read_of_lt _ y (by
            intro z hz; rcases List.mem_cons.1 hz with rfl | hz; exact hl; exact lt_trans hl (hltm z hz))] at h1
          exact absurd h1.symm hc
      subst hxy
      have hbc : b = c := by simpa using h x
      subst hbc
      rw [ih n hm' hn' fun a => ?_]
      by_cases ha : x = a
      · subst ha
        rw [Memory.read_of_lt m x hltm, Memory.read_of_lt n x hltn]
      · simpa [ha] using h a

/-- Storage after a reset event has the canonical form and no cell outside the buffer. -/
theorem freeStorage_shape (n d : Nat) (q : Dir) (k : Nat) :
    Memory.wf (freeStorage n d q k) ∧ ∀ x ∈ freeStorage n d q k, x.1 < 2 ^ k := by
  have key : ∀ (l : List Nat) (m : Memory), (∀ a ∈ l, a < 2 ^ k) → Memory.wf m → (∀ x ∈ m, x.1 < 2 ^ k) →
      Memory.wf (l.foldl (fun m a => Memory.write m a (Config.freeCell n d q a)) m) ∧
      ∀ x ∈ l.foldl (fun m a => Memory.write m a (Config.freeCell n d q a)) m, x.1 < 2 ^ k := by
    intro l
    induction l with
    | nil => intro m _ hm hb; exact ⟨hm, hb⟩
    | cons a l ih =>
      intro m hl hm hb
      exact ih _ (fun x hx => hl x (by simp [hx])) (Memory.write_wf m a _ hm)
        (Memory.write_bound m a _ _ hb (hl a (by simp)))
  exact key _ [] (fun a ha => List.mem_range.1 ha) ⟨List.Pairwise.nil, by simp⟩ (by simp)

end Sys2Proof.Machine
end

