-- ==== Sys2Proof/Laws/Ring.lean ====
section
/-! SUPPORT. What each RingBuffer primitive can do, once (spec/40_ringbuffer.md R92 to R97); callers cite these. -/

namespace Sys2Proof.Machine

theorem RingBuffer.cap_pos (B : RingBuffer) : 0 < B.cap := Nat.two_pow_pos B.k

@[simp] theorem RingBuffer.init_k (B : RingBuffer) : B.init.k = B.k := rfl
@[simp] theorem RingBuffer.init_storage (B : RingBuffer) : B.init.storage = B.storage := rfl
@[simp] theorem RingBuffer.init_head (B : RingBuffer) : B.init.head = 0 := rfl
@[simp] theorem RingBuffer.init_tail (B : RingBuffer) : B.init.tail = 0 := rfl
@[simp] theorem RingBuffer.init_count (B : RingBuffer) : B.init.count = 0 := rfl

/-- `rb_enqueue` rejects and changes nothing, or takes one cell at `head`. -/
theorem RingBuffer.enqueue_cases (B : RingBuffer) (b : Byte) :
    (B.count = B.cap ∧ B.enqueue b = (B, false)) ∨
    (B.count ≠ B.cap ∧ B.enqueue b =
      ({ B with storage := B.storage.write B.head b, head := (B.head + 1) % B.cap, count := B.count + 1 }, true)) := by
  by_cases h : B.count = B.cap
  · exact .inl ⟨h, by simp [RingBuffer.enqueue, RingBuffer.isFull, h]⟩
  · exact .inr ⟨h, by simp [RingBuffer.enqueue, RingBuffer.isFull, h]⟩

/-- `rb_dequeue` finds nothing and changes nothing, or gives up the cell at `tail`. -/
theorem RingBuffer.dequeue_cases (B : RingBuffer) :
    (B.count = 0 ∧ B.dequeue = (B, none)) ∨
    (B.count ≠ 0 ∧ B.dequeue =
      ({ B with tail := (B.tail + 1) % B.cap, count := B.count - 1 }, some (B.cell B.tail))) := by
  by_cases h : B.count = 0
  · exact .inl ⟨h, by simp [RingBuffer.dequeue, RingBuffer.isEmpty, h]⟩
  · exact .inr ⟨h, by simp [RingBuffer.dequeue, RingBuffer.isEmpty, h]⟩

@[simp] theorem RingBuffer.enqueue_k (B : RingBuffer) (b : Byte) : (B.enqueue b).1.k = B.k := by
  rcases B.enqueue_cases b with ⟨-, h⟩ | ⟨-, h⟩ <;> rw [h]

@[simp] theorem RingBuffer.enqueue_tail (B : RingBuffer) (b : Byte) : (B.enqueue b).1.tail = B.tail := by
  rcases B.enqueue_cases b with ⟨-, h⟩ | ⟨-, h⟩ <;> rw [h]

@[simp] theorem RingBuffer.dequeue_k (B : RingBuffer) : B.dequeue.1.k = B.k := by
  rcases B.dequeue_cases with ⟨-, h⟩ | ⟨-, h⟩ <;> rw [h]

@[simp] theorem RingBuffer.dequeue_storage (B : RingBuffer) : B.dequeue.1.storage = B.storage := by
  rcases B.dequeue_cases with ⟨-, h⟩ | ⟨-, h⟩ <;> rw [h]

@[simp] theorem RingBuffer.dequeue_head (B : RingBuffer) : B.dequeue.1.head = B.head := by
  rcases B.dequeue_cases with ⟨-, h⟩ | ⟨-, h⟩ <;> rw [h]

@[simp] theorem RingBuffer.enqueueBatch_nil (B : RingBuffer) : B.enqueueBatch [] = (B, 0) := rfl

/-- A batch on a full buffer accepts nothing. -/
theorem RingBuffer.enqueueBatch_full (B : RingBuffer) (bs : List Byte) (h : B.count = B.cap) :
    B.enqueueBatch bs = (B, 0) := by
  cases bs with
  | nil => rfl
  | cons b bs =>
    rcases B.enqueue_cases b with ⟨-, he⟩ | ⟨hn, -⟩
    · simp [RingBuffer.enqueueBatch, he]
    · exact absurd h hn

/-- A batch on a buffer with a free cell takes its first byte and goes on. -/
theorem RingBuffer.enqueueBatch_cons (B : RingBuffer) (b : Byte) (bs : List Byte) (h : B.count ≠ B.cap) :
    B.enqueueBatch (b :: bs) =
      (((B.enqueue b).1.enqueueBatch bs).1, ((B.enqueue b).1.enqueueBatch bs).2 + 1) := by
  rcases B.enqueue_cases b with ⟨hf, -⟩ | ⟨-, he⟩
  · exact absurd hf h
  · simp [RingBuffer.enqueueBatch, he]

/-- The constant `K` of a buffer survives a batch. -/
@[simp] theorem RingBuffer.enqueueBatch_k (B : RingBuffer) (bs : List Byte) : (B.enqueueBatch bs).1.k = B.k := by
  induction bs generalizing B with
  | nil => rfl
  | cons b bs ih =>
    by_cases h : B.count = B.cap
    · rw [B.enqueueBatch_full _ h]
    · rw [B.enqueueBatch_cons b bs h, ih, B.enqueue_k]

/-- Enqueueing keeps the canonical form of storage. -/
theorem RingBuffer.enqueue_wf (B : RingBuffer) (b : Byte) (h : B.storage.wf) : (B.enqueue b).1.storage.wf := by
  rcases B.enqueue_cases b with ⟨_, he⟩ | ⟨_, he⟩ <;> rw [he]
  · exact h
  · exact Memory.write_wf _ _ _ h

/-- A batch keeps the canonical form of storage. -/
theorem RingBuffer.enqueueBatch_wf (bs : List Byte) :
    ∀ B : RingBuffer, B.storage.wf → (B.enqueueBatch bs).1.storage.wf := by
  induction bs with
  | nil => exact fun _ h => h
  | cons b bs ih =>
    intro B h
    by_cases hf : B.count = B.cap
    · rw [B.enqueueBatch_full _ hf]; exact h
    · rw [B.enqueueBatch_cons b bs hf]; exact ih _ (B.enqueue_wf b h)

/-- A batch stores to no cell but those at `(head + j) mod C` for `j` below the accepted count. -/
theorem RingBuffer.enqueueBatch_cell (bs : List Byte) :
    ∀ B : RingBuffer, B.head < B.cap → ∀ x : Nat,
      (¬ ∃ j : Nat, j < (B.enqueueBatch bs).2 ∧ x = (B.head + j) % B.cap) → (B.enqueueBatch bs).1.cell x = B.cell x := by
  induction bs with
  | nil => exact fun _ _ _ _ => rfl
  | cons b bs ih =>
    intro B hh x hx
    rcases B.enqueue_cases b with ⟨hf, -⟩ | ⟨hf, he⟩
    · rw [B.enqueueBatch_full _ hf]
    · rw [B.enqueueBatch_cons b bs hf] at hx ⊢
      have hcap : (B.enqueue b).1.cap = B.cap := by simp [RingBuffer.cap]
      have hhd : (B.enqueue b).1.head = (B.head + 1) % B.cap := by rw [he]
      have hrest := ih (B.enqueue b).1
      rw [hcap, hhd] at hrest
      rw [hrest (Nat.mod_lt _ B.cap_pos) x fun ⟨j, hj, hxj⟩ =>
        hx ⟨j + 1, Nat.succ_lt_succ hj, by rw [hxj, Nat.mod_add_mod]; congr 1; omega⟩, he]
      exact Memory.read_write_other _ _ _ _ fun h => hx ⟨0, Nat.succ_pos _, by simp [h, Nat.mod_eq_of_lt hh]⟩

/-- `contents` has `count` elements (R91). -/
@[simp] theorem RingBuffer.contents_length (B : RingBuffer) : B.contents.length = B.count := by
  simp [RingBuffer.contents]

end Sys2Proof.Machine
end

