-- ==== Sys2Proof/Laws/Ops.lean ====
section
/-! SUPPORT. What each shared operation can do, once: if it answers a next state, then one of these cases holds. Provers
cite these lemmas instead of unfolding the operations. -/

namespace Sys2Proof.Machine

/-! ## Sequencing -/

@[simp] theorem andThen_next_eq (s : State) (k : State → Result) : andThen (.next s) k = k s := rfl
@[simp] theorem andThen_fault_eq (r : Fault) (k : State → Result) : andThen (.fault r) k = .fault r := rfl
@[simp] theorem andThen_refused_eq (r : Refusal) (k : State → Result) : andThen (.refused r) k = .refused r := rfl

/-- A sequence that ends in a next state went through one. -/
theorem andThen_next {o : Result} {k : State → Result} {t : State} (h : andThen o k = .next t) :
    ∃ u, o = .next u ∧ k u = .next t := by
  cases o with
  | next u => exact ⟨u, rfl, h⟩
  | fault r => cases h
  | refused r => cases h

theorem whenIdle_eq (s : State) (k : Result) (h : s.fg.phase = .idle) : whenIdle s k = k := by simp [whenIdle, h]

theorem whenIdle_next {s t : State} {k : Result} (h : whenIdle s k = .next t) : s.fg.phase = .idle ∧ k = .next t := by
  unfold whenIdle at h
  split at h
  · exact ⟨‹_›, h⟩
  · cases h

theorem whenPresent_eq (d : Dev) (s : State) (k : Result) (h : d.val < s.ndev) : whenPresent d s k = k := by
  simp [whenPresent, h]

theorem whenPresent_absent (d : Dev) (s : State) (k : Result) (h : ¬ d.val < s.ndev) :
    whenPresent d s k = answerIllegal s := by simp [whenPresent, h]

theorem whenPresent_next {d : Dev} {s t : State} {k : Result} (h : whenPresent d s k = .next t) :
    (d.val < s.ndev ∧ k = .next t) ∨ (¬ d.val < s.ndev ∧ t = s.respond ⟨.err, 0⟩) := by
  by_cases hd : d.val < s.ndev
  · exact .inl ⟨hd, by rwa [whenPresent_eq d s k hd] at h⟩
  · rw [whenPresent_absent d s k hd] at h
    exact .inr ⟨hd, by cases h; rfl⟩

theorem onInitialised_eq (d : Dev) (s : State) (k : Device → Result) (h : (s.dev d).initialised = true) :
    onInitialised d s k = k (s.dev d) := by simp [onInitialised, h]

theorem onInitialised_fault (d : Dev) (s : State) (k : Device → Result) (h : (s.dev d).initialised = false) :
    onInitialised d s k = .fault (.uninitialised d) := by simp [onInitialised, h]

theorem onInitialised_next {d : Dev} {s t : State} {k : Device → Result} (h : onInitialised d s k = .next t) :
    (s.dev d).initialised = true ∧ k (s.dev d) = .next t := by
  unfold onInitialised at h
  split at h
  · exact ⟨‹_›, h⟩
  · cases h

/-! ## Whole commands -/

/-- The state a body starts from: accepted, the gate closed (F0, F1). -/
theorem enterStep_acceptStep (i : Instr) (s : State) :
    enterStep (acceptStep i s) =
      { s with ie := false, fg := { phase := .cs, cmd := .legal i, sv := s.ie, rsp := s.fg.rsp } } := rfl

theorem runWrapped_next {d : Dev} {i : Instr} {body : State → Result} {s t : State}
    (h : runWrapped d i body s = .next t) :
    s.fg.phase = .idle ∧ ((¬ d.val < s.ndev ∧ t = s.respond ⟨.err, 0⟩) ∨
      (d.val < s.ndev ∧ ∃ u, body (enterStep (acceptStep i s)) = .next u ∧
        t = respondStep (exitStep (u.setPhase .opDone)))) := by
  obtain ⟨hi, h⟩ := whenIdle_next h
  refine ⟨hi, ?_⟩
  rcases whenPresent_next h with ⟨hd, h⟩ | h
  · obtain ⟨v, hv, h⟩ := andThen_next h
    obtain ⟨u, hu, hv⟩ := andThen_next hv
    cases hv; cases h
    exact .inr ⟨hd, u, hu, rfl⟩
  · exact .inl h

theorem runWrappedArmed_next {d : Dev} {i : Instr} {body : State → Result} {s t : State}
    (h : runWrappedArmed d i body s = .next t) :
    s.fg.phase = .idle ∧ ((¬ d.val < s.ndev ∧ t = s.respond ⟨.err, 0⟩) ∨
      (d.val < s.ndev ∧ ∃ u, body (enterStep (acceptStep i s)) = .next u ∧
        t = respondStep (armStep d (exitStep (u.setPhase .opDone))))) := by
  obtain ⟨hi, h⟩ := whenIdle_next h
  refine ⟨hi, ?_⟩
  rcases whenPresent_next h with ⟨hd, h⟩ | h
  · obtain ⟨v, hv, h⟩ := andThen_next h
    obtain ⟨u, hu, hv⟩ := andThen_next hv
    cases hv; cases h
    exact .inr ⟨hd, u, hu, rfl⟩
  · exact .inl h

/-- A wrapped command runs when the sequencer is idle, the device is there and its body answers. -/
theorem runWrapped_eq (d : Dev) (i : Instr) (body : State → Result) (s u : State) (hi : s.fg.phase = .idle)
    (hd : d.val < s.ndev) (hb : body (enterStep (acceptStep i s)) = .next u) :
    runWrapped d i body s = .next (respondStep (exitStep (u.setPhase .opDone))) := by
  simp only [runWrapped, whenIdle_eq _ _ hi, whenPresent_eq _ _ _ hd, bodyStep, hb, andThen_next_eq]

theorem runWrappedArmed_eq (d : Dev) (i : Instr) (body : State → Result) (s u : State) (hi : s.fg.phase = .idle)
    (hd : d.val < s.ndev) (hb : body (enterStep (acceptStep i s)) = .next u) :
    runWrappedArmed d i body s = .next (respondStep (armStep d (exitStep (u.setPhase .opDone)))) := by
  simp only [runWrappedArmed, whenIdle_eq _ _ hi, whenPresent_eq _ _ _ hd, bodyStep, hb, andThen_next_eq]

/-! ## Handlers, ENV -/

theorem handlerStep_next {body : State → Result} {s t : State} (h : handlerStep body s = .next t) :
    ∃ u, body (handlerEntry s) = .next u ∧ t = handlerReturn u := by
  obtain ⟨u, hu, h⟩ := andThen_next h
  cases h
  exact ⟨u, hu, rfl⟩

theorem hrxStep_next {d : Dev} {s t : State} (h : hrxStep d s = .next t) :
    hrxEnabled d s = true ∧ ∃ u, bodyHrx d (handlerEntry s) = .next u ∧ t = handlerReturn u := by
  unfold hrxStep at h
  split at h
  · exact ⟨‹_›, handlerStep_next h⟩
  · cases h

theorem htxStep_next {d : Dev} {s t : State} (h : htxStep d s = .next t) :
    htxEnabled d s = true ∧ ∃ u, bodyHtx d (handlerEntry s) = .next u ∧ t = handlerReturn u := by
  unfold htxStep at h
  split at h
  · exact ⟨‹_›, handlerStep_next h⟩
  · cases h

theorem hrxEnabled_iff (d : Dev) (s : State) :
    hrxEnabled d s = true ↔
      d.val < s.ndev ∧ s.ie = true ∧ (s.dev d).rxie = true ∧ (s.dev d).rxValid = true := by
  simp [hrxEnabled, and_assoc]

theorem htxEnabled_iff (d : Dev) (s : State) :
    htxEnabled d s = true ↔
      d.val < s.ndev ∧ s.ie = true ∧ (s.dev d).txie = true ∧ (s.dev d).txReady = true := by
  simp [htxEnabled, and_assoc]

theorem envRxStep_next {d : Dev} {b : Byte} {s t : State} (h : envRxStep d b s = .next t) :
    d.val < s.ndev ∧ (s.dev d).rxValid = false ∧
      t = s.setDev d { s.dev d with rxData := b, rxValid := true } := by
  unfold envRxStep at h
  split at h
  · rename_i hc
    cases h
    simp at hc
    exact ⟨hc.1, hc.2, rfl⟩
  · cases h

theorem envTxReadyStep_next {d : Dev} {s t : State} (h : envTxReadyStep d s = .next t) :
    d.val < s.ndev ∧ (s.dev d).txReady = false ∧ t = s.setDev d { s.dev d with txReady := true } := by
  unfold envTxReadyStep at h
  split at h
  · rename_i hc
    cases h
    simp at hc
    exact ⟨hc.1, hc.2, rfl⟩
  · cases h

/-- What the body of `HRX(d)` does: the byte leaves the slot and is enqueued, or is counted as dropped. -/
theorem bodyHrx_next {d : Dev} {s t : State} (h : bodyHrx d s = .next t) :
    (s.dev d).initialised = true ∧
      (((s.dev d).rx.count ≠ (s.dev d).rx.cap ∧
          t = s.setDev d { s.dev d with rxValid := false, rxLog := (s.dev d).rxLog ++ [(s.dev d).rxData],
                                        rxData := Config.freeRxData s.freeIdx d.val ((s.dev d).rxLog ++ [(s.dev d).rxData]),
                                        rx := ((s.dev d).rx.enqueue (s.dev d).rxData).1 }) ∨
       ((s.dev d).rx.count = (s.dev d).rx.cap ∧
          t = s.setDev d { s.dev d with rxValid := false, rxLog := (s.dev d).rxLog ++ [(s.dev d).rxData],
                                        rxData := Config.freeRxData s.freeIdx d.val ((s.dev d).rxLog ++ [(s.dev d).rxData]),
                                        rxDrop := sat8Inc (s.dev d).rxDrop })) := by
  obtain ⟨hi, h⟩ := onInitialised_next h
  have hd := s.lt_of_initialised d hi
  refine ⟨hi, ?_⟩
  simp only [rxTake, State.dev_setDev_self s d _ hd, State.setDev_setDev_self] at h
  rcases (s.dev d).rx.enqueue_cases (s.dev d).rxData with ⟨hc, he⟩ | ⟨hc, he⟩
  · rw [he] at h; cases h; exact .inr ⟨hc, rfl⟩
  · rw [he] at h; cases h; exact .inl ⟨hc, by rw [he]⟩

/-- What the body of `HTX(d)` does: the oldest byte is put, or the source is disabled. -/
theorem bodyHtx_next {d : Dev} {s t : State} (h : bodyHtx d s = .next t) :
    (s.dev d).initialised = true ∧
      (((s.dev d).tx.count ≠ 0 ∧
          t = s.setDev d { s.dev d with tx := (s.dev d).tx.dequeue.1, txData := (s.dev d).tx.cell (s.dev d).tx.tail,
                                        txReady := false,
                                        txLog := (s.dev d).txLog ++ [(s.dev d).tx.cell (s.dev d).tx.tail] }) ∨
       ((s.dev d).tx.count = 0 ∧ t = s.setDev d { s.dev d with txie := false })) := by
  obtain ⟨hi, h⟩ := onInitialised_next h
  have hd := s.lt_of_initialised d hi
  refine ⟨hi, ?_⟩
  rcases (s.dev d).tx.dequeue_cases with ⟨hc, he⟩ | ⟨hc, he⟩
  · rw [he] at h; cases h; exact .inr ⟨hc, rfl⟩
  · rw [he] at h; cases h
    refine .inl ⟨hc, ?_⟩
    rw [he]
    simp only [txPut, State.dev_setDev_self s d _ hd, State.setDev_setDev_self]

end Sys2Proof.Machine
end

