-- ==== Sys2Proof/Laws/Effects.lean ====
section
/-! SUPPORT. What a wrapped command does to the one device it names, once for all of them: `bodyEffect`. The micro-step F2
and the whole command are stated over it, so that a proof about all commands is a proof about `bodyEffect`. -/

namespace Sys2Proof.Machine

/-! ## Fields of what a command and its step F2 leave -/

@[simp] theorem State.answered_ie (s : State) (i : Instr) (r : Response) :
    (s.answered i r).ie = s.ie := rfl
@[simp] theorem State.answered_devs (s : State) (i : Instr) (r : Response) :
    (s.answered i r).devs = s.devs := rfl
@[simp] theorem State.answered_csStack (s : State) (i : Instr) (r : Response) :
    (s.answered i r).csStack = s.csStack := rfl
@[simp] theorem State.answered_fg (s : State) (i : Instr) (r : Response) :
    (s.answered i r).fg = ⟨.idle, .legal i, s.ie, r⟩ := rfl
@[simp] theorem State.answered_rspOut (s : State) (i : Instr) (r : Response) :
    (s.answered i r).rspOut = s.rspOut ++ [r.word] := rfl
@[simp] theorem State.answered_cmdIn (s : State) (i : Instr) (r : Response) :
    (s.answered i r).cmdIn = s.cmdIn := rfl
@[simp] theorem State.answered_sched (s : State) (i : Instr) (r : Response) :
    (s.answered i r).sched = s.sched := rfl
@[simp] theorem State.answered_dev (s : State) (i : Instr) (r : Response) (e : Dev) :
    (s.answered i r).dev e = s.dev e := rfl

@[simp] theorem State.afterBody_ie (s : State) (d : Dev) (D : Device) (r : Response) :
    (s.afterBody d D r).ie = s.ie := rfl
@[simp] theorem State.afterBody_csStack (s : State) (d : Dev) (D : Device) (r : Response) :
    (s.afterBody d D r).csStack = s.csStack := rfl
@[simp] theorem State.afterBody_fg (s : State) (d : Dev) (D : Device) (r : Response) :
    (s.afterBody d D r).fg = ⟨.opDone, s.fg.cmd, s.fg.sv, r⟩ := rfl
@[simp] theorem State.afterBody_rspOut (s : State) (d : Dev) (D : Device) (r : Response) :
    (s.afterBody d D r).rspOut = s.rspOut := rfl
@[simp] theorem State.afterBody_cmdIn (s : State) (d : Dev) (D : Device) (r : Response) :
    (s.afterBody d D r).cmdIn = s.cmdIn := rfl
@[simp] theorem State.afterBody_sched (s : State) (d : Dev) (D : Device) (r : Response) :
    (s.afterBody d D r).sched = s.sched := rfl
@[simp] theorem State.afterBody_dev (s : State) (d : Dev) (D : Device) (r : Response) (e : Dev) :
    (s.afterBody d D r).dev e = (s.setDev d D).dev e := rfl

/-- The device after step F2 of a wrapped command, and the response it writes; `none` for a use before `INIT` (R174) and
for the commands that have no F2. -/
def bodyEffect (i : Instr) (D : Device) : Option (Device × Response) :=
  match i with
  | .init _ => some ({ D with rx := D.rx.init, tx := D.tx.init, initialised := true }, ⟨.ok, 0⟩)
  | .rxsize _ => if D.initialised then some (D, ⟨.ok, countValue D.rx.size⟩) else none
  | .rxdeq _ => if D.initialised then some ({ D with rx := D.rx.dequeue.1 }, byteResponse D.rx.dequeue.2) else none
  | .rxpeek _ x => if D.initialised then some (D, byteResponse (D.rx.peek (peekIndex x))) else none
  | .send _ b =>
    if D.initialised then some ({ D with tx := (D.tx.enqueue b).1 }, acceptResponse (D.tx.enqueue b).2) else none
  | .sendb _ bytes =>
    if D.initialised then
      some ({ D with tx := (D.tx.enqueueBatch bytes).1 }, batchResponse bytes.length (D.tx.enqueueBatch bytes).2)
    else none
  | .rxdrops _ => some (D, ⟨.ok, zext9 D.rxDrop⟩)
  | .irqen _ => none
  | .gie _ => none
  | .csenter => none
  | .csexit => none

/-- Step F4 on the device: `SEND` and `SENDB` arm, the others have no F4 (R121). -/
def armEffect (i : Instr) (D : Device) : Device :=
  match i.arms with
  | some _ => { D with txie := true }
  | none => D

/-- F2 of a wrapped command on a device of the block. -/
theorem bodyOf_eq (i : Instr) (d : Dev) (s : State) (hw : i.wrapped = true) (hi : i.dev? = some d) (hd : d.val < s.ndev) :
    bodyOf i s =
      match bodyEffect i (s.dev d) with
      | some (D, r) => .next ((s.setDev d D).setRsp r)
      | none => .fault (.uninitialised d) := by
  cases i <;> simp_all [Instr.wrapped, Instr.dev?, bodyOf, bodyEffect, bodyInit, bodyRxdrops, bodyRxsize, bodyRxdeq,
    bodyRxpeek, bodySend, bodySendb, onInitialised] <;> (try split) <;> simp_all [s.setDev_dev d hd]

/-- A whole wrapped command on a device of the block, from `fg.phase = IDLE`. -/
theorem exec_wrapped_eq (i : Instr) (d : Dev) (s : State) (hw : i.wrapped = true) (hi : i.dev? = some d)
    (hp : s.fg.phase = .idle) (hd : d.val < s.ndev) :
    exec i s =
      match bodyEffect i (s.dev d) with
      | some (D, r) => .next ((s.setDev d (armEffect i D)).answered i r)
      | none => .fault (.uninitialised d) := by
  have hd' : d.val < (enterStep (acceptStep i s)).ndev := hd
  have hb := bodyOf_eq i d (enterStep (acceptStep i s)) hw hi hd'
  have he : exec i s = match i.arms with
      | some e => runWrappedArmed d i (bodyOf i) s
      | none => runWrapped d i (bodyOf i) s := by
    cases i <;> simp_all [Instr.wrapped, Instr.dev?, Instr.arms] <;> rfl
  rw [he]
  have hdev : (enterStep (acceptStep i s)).dev d = s.dev d := rfl
  rw [hdev] at hb
  cases hE : bodyEffect i (s.dev d) with
  | none =>
    rw [hE] at hb
    cases i.arms <;> simp [runWrapped, runWrappedArmed, whenIdle_eq _ _ hp, whenPresent_eq _ _ _ hd, bodyStep, hb]
  | some p =>
    obtain ⟨D, r⟩ := p
    rw [hE] at hb
    cases ha : i.arms with
    | none =>
      rw [runWrapped_eq d i _ s _ hp hd hb]
      simp [armEffect, ha, respondStep, exitStep, csImplicitExit, State.answered, State.respond, State.setPhase,
        enterStep, acceptStep, csImplicitEnter, State.setDev, State.setRsp]
    | some e =>
      have hed : e = d := by cases i <;> simp_all [Instr.arms, Instr.dev?]
      rw [runWrappedArmed_eq d i _ s _ hp hd hb]
      have hdd : ((enterStep (acceptStep i s)).setDev d D).dev d = D := State.dev_setDev_self _ d D hd'
      have h2 : (exitStep ((((enterStep (acceptStep i s)).setDev d D).setRsp r).setPhase .opDone)).dev d = D := hdd
      simp only [armStep, h2]
      simp [armEffect, ha, respondStep, exitStep, csImplicitExit, State.answered, State.respond, State.setPhase,
        enterStep, acceptStep, csImplicitEnter, State.setDev, State.setRsp]

/-- A wrapped command on a device the block does not have. -/
theorem exec_absent_eq (i : Instr) (d : Dev) (s : State) (hi : i.dev? = some d) (hp : s.fg.phase = .idle)
    (hd : ¬ d.val < s.ndev) : exec i s = .next (s.respond ⟨.err, 0⟩) := by
  cases i <;> simp_all [Instr.dev?] <;>
    simp [exec, execInit, execIrqen, execRxsize, execRxdeq, execRxpeek, execSend, execSendb, execRxdrops, runWrapped,
      runWrappedArmed, whenIdle, hp, whenPresent, hd, answerIllegal]

/-- No command is taken while another is in progress. -/
theorem exec_next_idle {i : Instr} {s t : State} (h : exec i s = .next t) : s.fg.phase = .idle := by
  cases i <;> exact (whenIdle_next h).1

/-- What F2 leaves of a device: all but the buffers and the flag of U1. -/
theorem bodyEffect_frame {i : Instr} {D E : Device} {r : Response} (h : bodyEffect i D = some (E, r)) :
    (E.rxie = D.rxie ∧ E.txie = D.txie ∧ E.rxDrop = D.rxDrop ∧ E.rxValid = D.rxValid ∧ E.rxData = D.rxData ∧
      E.txReady = D.txReady ∧ E.txData = D.txData ∧ E.rxLog = D.rxLog ∧ E.txLog = D.txLog) ∧
    E.rx.k = D.rx.k ∧ E.tx.k = D.tx.k ∧ (D.initialised = true → E.initialised = true) := by
  cases i <;> simp [bodyEffect] at h
  case init => obtain ⟨rfl, -⟩ := h; simp
  case rxdrops => obtain ⟨rfl, -⟩ := h; simp
  all_goals
    obtain ⟨hi, rfl, -⟩ := h
    simp [hi]

end Sys2Proof.Machine
end

