-- ==== Sys2Proof/Laws/PerInstr.lean ====
section
/-! SUPPORT. One lemma per command, for the host's case split: from a stream that begins with the words of a command,
the port takes exactly those words (spec/30_encoding.md R76). -/

namespace Sys2Proof.Laws.EncodeSplits

/-- The command's words are taken off a stream that begins with them, and the rest is left. -/
def Statement (i : Instr) : Prop :=
  i.payloadFits = true → ∀ rest : List Word,
    takeCommand (encode i ++ rest) = some (encodeHeader i, i.payload.map payloadWord, rest)

/-- A command whose header asks for as many payload words as it has. -/
theorem of_count (i : Instr) (h : payloadCount (encodeHeader i) = i.payload.length) (rest : List Word) :
    takeCommand (encode i ++ rest) = some (encodeHeader i, i.payload.map payloadWord, rest) := by
  simp [encode, takeCommand, h]

theorem init (d : Dev) : Statement (.init d) := fun _ => of_count _ (by simp [payloadCount, encodeHeader, Instr.payload])
theorem irqen (d : Dev) : Statement (.irqen d) := fun _ => of_count _ (by simp [payloadCount, encodeHeader, Instr.payload])
theorem gie (v : Bool) : Statement (.gie v) := fun _ => of_count _ (by simp [payloadCount, encodeHeader, Instr.payload])
theorem csenter : Statement .csenter := fun _ => of_count _ (by simp [payloadCount, encodeHeader, Instr.payload])
theorem csexit : Statement .csexit := fun _ => of_count _ (by simp [payloadCount, encodeHeader, Instr.payload])
theorem rxsize (d : Dev) : Statement (.rxsize d) := fun _ => of_count _ (by simp [payloadCount, encodeHeader, Instr.payload])
theorem rxdeq (d : Dev) : Statement (.rxdeq d) := fun _ => of_count _ (by simp [payloadCount, encodeHeader, Instr.payload])
theorem rxpeek (d : Dev) (i : Byte) : Statement (.rxpeek d i) :=
  fun _ => of_count _ (by simp [payloadCount, encodeHeader, Instr.payload])
theorem send (d : Dev) (b : Byte) : Statement (.send d b) :=
  fun _ => of_count _ (by simp [payloadCount, encodeHeader, Instr.payload])
theorem sendb (d : Dev) (bytes : List Byte) : Statement (.sendb d bytes) := fun h =>
  of_count _ (by
    have h' : bytes.length ≤ 255 := of_decide_eq_true h
    simp only [payloadCount, encodeHeader, Instr.payload, opField_header, operandField_header, if_true,
      BitVec.toNat_ofNat]
    omega)
theorem rxdrops (d : Dev) : Statement (.rxdrops d) :=
  fun _ => of_count _ (by simp [payloadCount, encodeHeader, Instr.payload])

end Sys2Proof.Laws.EncodeSplits
end

