-- ==== Sys2Proof/Laws/Sequencer.lean ====
section
/-! SUPPORT. What a whole command and one micro-step of FG can do, once each (spec/42_channel_commands.md R121): if the
step answers a next state, then one of the listed cases holds. Provers cite these instead of unfolding the sequencer. -/

namespace Sys2Proof.Machine

/-! ## Whole commands -/

/-- Every wrapped command names a device (R72). -/
theorem wrapped_dev {i : Instr} (h : i.wrapped = true) : ∃ d, i.dev? = some d := by
  cases i <;> simp_all [Instr.wrapped, Instr.dev?]

theorem exec_wrapped_next {i : Instr} {s t : State} {d : Dev} (hw : i.wrapped = true) (hi : i.dev? = some d)
    (h : exec i s = .next t) :
    s.fg.phase = .idle ∧ ((¬ d.val < s.ndev ∧ t = s.respond ⟨.err, 0⟩) ∨
      (d.val < s.ndev ∧ ∃ D r, bodyEffect i (s.dev d) = some (D, r) ∧
        t = (s.setDev d (armEffect i D)).answered i r)) := by
  have hp := exec_next_idle h
  refine ⟨hp, ?_⟩
  by_cases hd : d.val < s.ndev
  · rw [exec_wrapped_eq i d s hw hi hp hd] at h
    cases hE : bodyEffect i (s.dev d) with
    | none => rw [hE] at h; cases h
    | some p => obtain ⟨D, r⟩ := p; rw [hE] at h; cases h; exact .inr ⟨hd, D, r, rfl, rfl⟩
  · rw [exec_absent_eq i d s hi hp hd] at h
    cases h; exact .inl ⟨hd, rfl⟩

theorem irqen_next {d : Dev} {s t : State} (h : exec (.irqen d) s = .next t) :
    s.fg.phase = .idle ∧ ((¬ d.val < s.ndev ∧ t = s.respond ⟨.err, 0⟩) ∨
      (d.val < s.ndev ∧ t = (s.setDev d { s.dev d with rxie := true }).respond ⟨.ok, 0⟩)) := by
  obtain ⟨hp, h⟩ := whenIdle_next h
  refine ⟨hp, ?_⟩
  rcases whenPresent_next h with ⟨hd, h⟩ | h
  · cases h; exact .inr ⟨hd, rfl⟩
  · exact .inl h

theorem gie_next {v : Bool} {s t : State} (h : exec (.gie v) s = .next t) :
    s.fg.phase = .idle ∧ t = ({ s with ie := v } : State).respond ⟨.ok, 0⟩ := by
  obtain ⟨hp, h⟩ := whenIdle_next h
  cases h; exact ⟨hp, rfl⟩

theorem csenter_next {s t : State} (h : exec .csenter s = .next t) :
    s.fg.phase = .idle ∧ ((s.csSize = s.csDepth ∧ t = s.respond ⟨.err, 0⟩) ∨
      (s.csSize ≠ s.csDepth ∧
        t = ({ s with csStack := s.ie :: s.csStack, ie := false } : State).respond ⟨.ok, 0⟩)) := by
  obtain ⟨hp, h⟩ := whenIdle_next h
  split at h <;> cases h
  · exact ⟨hp, .inl ⟨‹_›, rfl⟩⟩
  · exact ⟨hp, .inr ⟨‹_›, rfl⟩⟩

theorem csexit_next {s t : State} (h : exec .csexit s = .next t) :
    s.fg.phase = .idle ∧ ((s.csStack = [] ∧ t = s.respond ⟨.err, 0⟩) ∨
      (∃ v rest, s.csStack = v :: rest ∧ t = ({ s with csStack := rest, ie := v } : State).respond ⟨.ok, 0⟩)) := by
  obtain ⟨hp, h⟩ := whenIdle_next h
  split at h <;> cases h
  · exact ⟨hp, .inl ⟨‹_›, rfl⟩⟩
  · exact ⟨hp, .inr ⟨_, _, ‹_›, rfl⟩⟩

/-! ## Taking a command from the port -/

/-- What decode hands the sequencer is well formed, and taking it changes the port only (R78). -/
theorem nextCommand_some {s u : State} {c : Command} (h : nextCommand s = some (c, u)) :
    (∃ w p rest, takeCommand s.cmdIn = some (w, p, rest) ∧ c = decodeCommand s.ndev w p ∧
      u = { s with cmdIn := rest }) := by
  unfold nextCommand at h
  split at h
  · cases h
  · rename_i w p rest ht
    cases h
    exact ⟨w, p, rest, ht, rfl, rfl⟩

/-- A legal command of decode names a device the block has, if it names one (R77 (c)). -/
theorem decodeCommand_legal {ndev : Nat} {w : Word} {p : List Word} {i : Instr}
    (h : decodeCommand ndev w p = .legal i) : i.devExists ndev = true := by
  unfold decodeCommand at h
  split at h
  · split at h
    · cases h; assumption
    · cases h
  · cases h

/-! ## One micro-step -/

/-- F2: the body does its effect on the device the command names, and writes `fg.rsp`. -/
theorem bodyOf_next {i : Instr} {s v : State} (h : bodyOf i s = .next v) :
    i.wrapped = true ∧ ∃ d, i.dev? = some d ∧ ∃ D r, bodyEffect i (s.dev d) = some (D, r) ∧
      v = (s.setDev d D).setRsp r := by
  cases i with
  | init d => cases h; exact ⟨rfl, d, rfl, _, _, rfl, rfl⟩
  | rxdrops d =>
    cases h
    refine ⟨rfl, d, rfl, _, _, rfl, ?_⟩
    by_cases hd : d.val < s.ndev
    · rw [s.setDev_dev d hd]
    · simp [State.setDev, List.set_eq_of_length_le (Nat.not_lt.1 hd)]
  | rxsize d =>
    simp only [bodyOf, bodyRxsize] at h
    obtain ⟨hi, h⟩ := onInitialised_next h
    cases h
    exact ⟨rfl, d, rfl, _, _, by simp only [bodyEffect, hi]; rfl, by rw [s.setDev_dev d (s.lt_of_initialised d hi)]⟩
  | rxpeek d x =>
    simp only [bodyOf, bodyRxpeek] at h
    obtain ⟨hi, h⟩ := onInitialised_next h
    cases h
    exact ⟨rfl, d, rfl, _, _, by simp only [bodyEffect, hi]; rfl, by rw [s.setDev_dev d (s.lt_of_initialised d hi)]⟩
  | rxdeq d =>
    simp only [bodyOf, bodyRxdeq] at h
    obtain ⟨hi, h⟩ := onInitialised_next h
    cases h
    exact ⟨rfl, d, rfl, _, _, by simp only [bodyEffect, hi]; rfl, rfl⟩
  | send d b =>
    simp only [bodyOf, bodySend] at h
    obtain ⟨hi, h⟩ := onInitialised_next h
    cases h
    exact ⟨rfl, d, rfl, _, _, by simp only [bodyEffect, hi]; rfl, rfl⟩
  | sendb d bytes =>
    simp only [bodyOf, bodySendb] at h
    obtain ⟨hi, h⟩ := onInitialised_next h
    cases h
    exact ⟨rfl, d, rfl, _, _, by simp only [bodyEffect, hi]; rfl, rfl⟩
  | irqen d => cases h
  | gie v => cases h
  | csenter => cases h
  | csexit => cases h

/-- F2 of a wrapped command on a device of the block, where its body is defined (R121, R174). -/
theorem fgMicro_body_eq {i : Instr} {s : State} {d : Dev} {D : Device} {r : Response} (hp : s.fg.phase = .cs)
    (hc : s.fg.cmd = .legal i) (hw : i.wrapped = true) (hi : i.dev? = some d) (hd : d.val < s.ndev)
    (hE : bodyEffect i (s.dev d) = some (D, r)) : fgMicro s = .next (s.afterBody d D r) := by
  have hb : fgBody s = bodyStep (bodyOf i) s := by unfold fgBody; rw [hc]
  unfold fgMicro
  rw [hp]
  simp only [hb, bodyStep, bodyOf_eq i d s hw hi hd, hE]
  rfl

/-- F2, where it answers a next state. -/
theorem fgMicro_body_next {i : Instr} {s t : State} (hp : s.fg.phase = .cs) (hc : s.fg.cmd = .legal i)
    (h : fgMicro s = .next t) :
    i.wrapped = true ∧ ∃ d, i.dev? = some d ∧ ∃ D r, bodyEffect i (s.dev d) = some (D, r) ∧ t = s.afterBody d D r := by
  have hb : fgBody s = bodyStep (bodyOf i) s := by unfold fgBody; rw [hc]
  unfold fgMicro at h
  rw [hp] at h
  simp only [hb] at h
  obtain ⟨v, hv, h⟩ := andThen_next h
  obtain ⟨hw, d, hd, D, r, hE, rfl⟩ := bodyOf_next hv
  cases h
  exact ⟨hw, d, hd, D, r, hE, rfl⟩

/-- Everything one micro-step of FG can do. -/
theorem fgMicro_next {s t : State} (h : fgMicro s = .next t) :
    (s.fg.phase = .idle ∧ ∃ u, nextCommand s = some (.illegal, u) ∧ t = u.respond ⟨.err, 0⟩) ∨
    (s.fg.phase = .idle ∧ ∃ i u, nextCommand s = some (.legal i, u) ∧ i.wrapped = true ∧ t = acceptStep i u) ∨
    (s.fg.phase = .idle ∧ ∃ i u, nextCommand s = some (.legal i, u) ∧ i.wrapped = false ∧ exec i u = .next t) ∨
    (s.fg.phase = .accepted ∧ t = enterStep s) ∨
    (s.fg.phase = .cs ∧ ∃ i, s.fg.cmd = .legal i ∧ ∃ v, bodyOf i s = .next v ∧ t = v.setPhase .opDone) ∨
    (s.fg.phase = .opDone ∧ t = exitStep s) ∨
    (s.fg.phase = .restored ∧ ∃ d, Command.arms s.fg.cmd = some d ∧ t = armStep d s) ∨
    (s.fg.phase = .restored ∧ Command.arms s.fg.cmd = none ∧ t = respondStep s) ∨
    (s.fg.phase = .armed ∧ t = respondStep s) := by
  unfold fgMicro at h
  split at h
  · unfold fgAccept at h
    split at h
    · cases h
    · rename_i u hn; cases h; exact .inl ⟨‹_›, u, hn, rfl⟩
    · rename_i i u hn
      split at h
      · cases h; exact .inr (.inl ⟨‹_›, i, u, hn, ‹_›, rfl⟩)
      · exact .inr (.inr (.inl ⟨‹_›, i, u, hn, by simp_all, h⟩))
  · cases h; exact .inr (.inr (.inr (.inl ⟨‹_›, rfl⟩)))
  · unfold fgBody at h
    split at h
    · rename_i i hc
      obtain ⟨v, hv, h⟩ := andThen_next h
      cases h
      exact .inr (.inr (.inr (.inr (.inl ⟨‹_›, i, hc, v, hv, rfl⟩))))
    · cases h
  · cases h; exact .inr (.inr (.inr (.inr (.inr (.inl ⟨‹_›, rfl⟩)))))
  · unfold fgAfterExit at h
    split at h
    · rename_i d ha; cases h; exact .inr (.inr (.inr (.inr (.inr (.inr (.inl ⟨‹_›, d, ha, rfl⟩))))))
    · rename_i ha; cases h; exact .inr (.inr (.inr (.inr (.inr (.inr (.inr (.inl ⟨‹_›, ha, rfl⟩)))))))
  · cases h; exact .inr (.inr (.inr (.inr (.inr (.inr (.inr (.inr ⟨‹_›, rfl⟩)))))))

/-! ## Micro-steps in a row -/

/-- What holds of a state and itself, and of one micro-step, and chains, holds of any number of micro-steps. -/
theorem fgRun_chain {P : State → State → Prop} (hrefl : ∀ s, P s s)
    (htrans : ∀ {s t u}, P s t → P t u → P s u) (hmicro : ∀ {s t}, fgMicro s = .next t → P s t) :
    ∀ (n : Nat) {s t : State}, fgRun n s = .next t → P s t
  | 0, _, _, h => by cases h; exact hrefl _
  | n + 1, s, t, h => by
    unfold fgRun at h
    split at h
    · cases h; exact hrefl _
    · obtain ⟨u, hu, h⟩ := andThen_next h
      exact htrans (hmicro hu) (fgRun_chain hrefl htrans hmicro n h)

/-! ## What a step does to the devices -/

/-- A write of a device the block does not have does nothing. -/
theorem State.setDev_absent (s : State) (d : Dev) (D : Device) (h : ¬ d.val < s.ndev) : s.setDev d D = s := by
  simp [State.setDev, List.set_eq_of_length_le (Nat.not_lt.1 h)]

/-- One micro-step of FG leaves the devices alone, or writes `RXIE[d]` (`IRQEN`), does a body (F2), or arms (F4). -/
theorem fgMicro_devs {s t : State} (h : fgMicro s = .next t) :
    t.devs = s.devs ∨
    (∃ d : Dev, s.fg.phase = .idle ∧ t.devs = (s.setDev d { s.dev d with rxie := true }).devs) ∨
    (∃ (i : Instr) (d : Dev) (D : Device) (r : Response), s.fg.phase = .cs ∧ s.fg.cmd = .legal i ∧
      i.wrapped = true ∧ i.dev? = some d ∧ bodyEffect i (s.dev d) = some (D, r) ∧ t.devs = (s.setDev d D).devs) ∨
    (∃ d : Dev, s.fg.phase = .restored ∧ Command.arms s.fg.cmd = some d ∧
      t.devs = (s.setDev d { s.dev d with txie := true }).devs) := by
  rcases fgMicro_next h with ⟨hp, u, hn, rfl⟩ | ⟨hp, i, u, hn, hw, rfl⟩ | ⟨hp, i, u, hn, hw, he⟩ | ⟨hp, rfl⟩ |
    ⟨hp, i, hc, v, hv, rfl⟩ | ⟨hp, rfl⟩ | ⟨hp, d, hd, rfl⟩ | ⟨hp, hd, rfl⟩ | ⟨hp, rfl⟩
  · obtain ⟨_, _, _, _, _, rfl⟩ := nextCommand_some hn; exact .inl rfl
  · obtain ⟨_, _, _, _, _, rfl⟩ := nextCommand_some hn; exact .inl rfl
  · obtain ⟨_, _, _, _, _, rfl⟩ := nextCommand_some hn
    cases i <;> simp [Instr.wrapped] at hw
    · obtain ⟨_, ⟨_, rfl⟩ | ⟨_, rfl⟩⟩ := irqen_next he
      · exact .inl rfl
      · exact .inr (.inl ⟨_, hp, rfl⟩)
    · obtain ⟨_, rfl⟩ := gie_next he; exact .inl rfl
    · obtain ⟨_, ⟨_, rfl⟩ | ⟨_, rfl⟩⟩ := csenter_next he <;> exact .inl rfl
    · obtain ⟨_, ⟨_, rfl⟩ | ⟨_, _, _, rfl⟩⟩ := csexit_next he <;> exact .inl rfl
  · exact .inl rfl
  · obtain ⟨hw, d, hd, D, r, hE, rfl⟩ := bodyOf_next hv
    exact .inr (.inr (.inl ⟨i, d, D, r, hp, hc, hw, hd, hE, rfl⟩))
  · exact .inl rfl
  · exact .inr (.inr (.inr ⟨d, hp, hd, rfl⟩))
  · exact .inl rfl
  · exact .inl rfl

/-- A step of `HRX(d)` writes device `d` and leaves `IE = 1`. -/
theorem hrxStep_effect {d : Dev} {s t : State} (h : hrxStep d s = .next t) :
    hrxEnabled d s = true ∧ (s.dev d).initialised = true ∧ ∃ D, t = { s.setDev d D with ie := true } ∧
      (((s.dev d).rx.count ≠ (s.dev d).rx.cap ∧
          D = { s.dev d with rxValid := false, rxLog := (s.dev d).rxLog ++ [(s.dev d).rxData],
                             rxData := Config.freeRxData s.freeIdx d.val ((s.dev d).rxLog ++ [(s.dev d).rxData]),
                             rx := ((s.dev d).rx.enqueue (s.dev d).rxData).1 }) ∨
       ((s.dev d).rx.count = (s.dev d).rx.cap ∧
          D = { s.dev d with rxValid := false, rxLog := (s.dev d).rxLog ++ [(s.dev d).rxData],
                             rxData := Config.freeRxData s.freeIdx d.val ((s.dev d).rxLog ++ [(s.dev d).rxData]),
                             rxDrop := sat8Inc (s.dev d).rxDrop })) := by
  obtain ⟨he, u, hu, rfl⟩ := hrxStep_next h
  obtain ⟨hi, ⟨h1, rfl⟩ | ⟨h1, rfl⟩⟩ := bodyHrx_next hu
  · exact ⟨he, hi, _, rfl, .inl ⟨h1, rfl⟩⟩
  · exact ⟨he, hi, _, rfl, .inr ⟨h1, rfl⟩⟩

/-- A step of `HTX(d)` writes device `d` and leaves `IE = 1`. -/
theorem htxStep_effect {d : Dev} {s t : State} (h : htxStep d s = .next t) :
    htxEnabled d s = true ∧ (s.dev d).initialised = true ∧ ∃ D, t = { s.setDev d D with ie := true } ∧
      (((s.dev d).tx.count ≠ 0 ∧
          D = { s.dev d with tx := (s.dev d).tx.dequeue.1, txData := (s.dev d).tx.cell (s.dev d).tx.tail,
                             txReady := false,
                             txLog := (s.dev d).txLog ++ [(s.dev d).tx.cell (s.dev d).tx.tail] }) ∨
       ((s.dev d).tx.count = 0 ∧ D = { s.dev d with txie := false })) := by
  obtain ⟨he, u, hu, rfl⟩ := htxStep_next h
  obtain ⟨hi, ⟨h1, rfl⟩ | ⟨h1, rfl⟩⟩ := bodyHtx_next hu
  · exact ⟨he, hi, _, rfl, .inl ⟨h1, rfl⟩⟩
  · exact ⟨he, hi, _, rfl, .inr ⟨h1, rfl⟩⟩

/-- The reset event on one device. -/
theorem resetEvent_dev (s : State) (d : Dev) (hd : d.val < s.ndev) :
    (resetEvent s).dev d = (s.dev d).afterReset s.freeIdx d := by
  have : d.val < s.devs.length := hd
  simp [resetEvent, State.dev, List.getD_eq_getElem?_getD, this]

end Sys2Proof.Machine
end

