-- ==== Sys2Proof/Machine/Script.lean ====
section
/-! DEFINITION. The textual forms of spec/30_encoding.md: assembler lines (R79), pseudo-commands (R81) and script lines
(R82). They are notation for writing executions down, not hardware; the details of spacing are log entry 20. -/

namespace Sys2Proof.Machine

/-! ## Tokens -/

inductive Token where
  | word (cs : List Char)
  | text (cs : List Char)
  | comma
  | openList
  | closeList
  | bad
  deriving DecidableEq, Repr

/-- The double quote. -/
def quoteChar : Char := Char.ofNat 34

/-- The word read so far, if there is one. -/
def flushWord (acc : List Char) : List Token := if acc.isEmpty then [] else [.word acc.reverse]

/-- The tokens of a line: `inText` says that a quoted text is open, `acc` holds what is read of it or of a word, last
character first. `;` starts a comment (R79). -/
def tokens (inText : Bool) (acc : List Char) : List Char → List Token
  | [] => if inText then [.bad] else flushWord acc
  | c :: cs =>
    if inText then if c = quoteChar then .text acc.reverse :: tokens false [] cs else tokens true (c :: acc) cs
    else if c = ';' then flushWord acc
    else if c = ' ' then flushWord acc ++ tokens false [] cs
    else if c = ',' then flushWord acc ++ .comma :: tokens false [] cs
    else if c = '[' then flushWord acc ++ .openList :: tokens false [] cs
    else if c = ']' then flushWord acc ++ .closeList :: tokens false [] cs
    else if c = quoteChar then flushWord acc ++ tokens true [] cs
    else tokens false (c :: acc) cs

/-! ## Numbers (R79: decimal, or hexadecimal after `0x`) -/

/-- The value of a digit. -/
def digit (c : Char) : Option Nat :=
  if 48 ≤ c.toNat ∧ c.toNat ≤ 57 then some (c.toNat - 48)
  else if 65 ≤ c.toNat ∧ c.toNat ≤ 70 then some (c.toNat - 55)
  else if 97 ≤ c.toNat ∧ c.toNat ≤ 102 then some (c.toNat - 87)
  else none

/-- The number of a row of digits in a base, with `acc` read before it. -/
def digits (base acc : Nat) : List Char → Option Nat
  | [] => some acc
  | c :: cs =>
    match digit c with
    | some v => if v < base then digits base (acc * base + v) cs else none
    | none => none

/-- A number. -/
def number : List Char → Option Nat
  | [] => none
  | [c] => digits 10 0 [c]
  | c :: x :: cs => if c = '0' ∧ x = 'x' ∧ cs ≠ [] then digits 16 0 cs else digits 10 0 (c :: x :: cs)

/-- A number below 256. -/
def byteOperand (cs : List Char) : Option Byte :=
  match number cs with
  | some v => if v < 256 then some (BitVec.ofNat 8 v) else none
  | none => none

/-- A device number: the `dev` field has 4 bits. -/
def devOperand (cs : List Char) : Option Dev :=
  match number cs with
  | some v => if h : v < 16 then some ⟨v, h⟩ else none
  | none => none

/-- The value of `GIE`. -/
def bitOperand (cs : List Char) : Option Bool :=
  match number cs with
  | some 0 => some false
  | some 1 => some true
  | _ => none

/-- The bytes of a bracketed list that has at least one, after its opening bracket, and nothing after the list. -/
def listItems : List Token → Option (List Byte)
  | [.word n, .closeList] => (byteOperand n).map fun b => [b]
  | .word n :: .comma :: ts =>
    match byteOperand n, listItems ts with
    | some b, some bs => some (b :: bs)
    | _, _ => none
  | _ => none

/-- The bytes of a bracketed list, after its opening bracket. -/
def listBytes (ts : List Token) : Option (List Byte) := if ts = [.closeList] then some [] else listItems ts

/-! ## Lines -/

/-- A line of a script (R82): a command, or what the other agents do. -/
inductive ScriptLine where
  | command (i : Instr)
  | moves (ms : List Move)
  /-- `@txrdy d`, which depends on `tx_ready[d]` -/
  | txrdy (d : Dev)
  deriving DecidableEq, Repr

/-- `@rx d, b` abbreviates `@env_rx d, b` then `@hrx d` (R82). -/
def rxMoves (d : Dev) (b : Byte) : List Move := [.envRx d b, .hrx d]

/-- `@txrdy d` abbreviates `@env_txrdy d`, omitted when `tx_ready[d]` is already 1, then `@htx d` (R82). -/
def txrdyMoves (d : Dev) (s : State) : List Move :=
  if (s.dev d).txReady then [.htx d] else [.envTxReady d, .htx d]

/-- A line with no operand. -/
def lineOfName (m : List Char) : Option ScriptLine :=
  if m = "CSENTER".toList then some (.command .csenter)
  else if m = "CSEXIT".toList then some (.command .csexit)
  else if m = "EI".toList then some (.command pseudoEI)
  else if m = "DI".toList then some (.command pseudoDI)
  else if m = "@reset".toList then some (.moves [.reset])
  else none

/-- A line with a device as its one operand. -/
def lineOfDev (m : List Char) (d : Dev) : Option ScriptLine :=
  if m = "INIT".toList then some (.command (.init d))
  else if m = "IRQEN".toList then some (.command (.irqen d))
  else if m = "RXSIZE".toList then some (.command (.rxsize d))
  else if m = "RXDEQ".toList then some (.command (.rxdeq d))
  else if m = "RXDROPS".toList then some (.command (.rxdrops d))
  else if m = "@env_txrdy".toList then some (.moves [.envTxReady d])
  else if m = "@hrx".toList then some (.moves [.hrx d])
  else if m = "@htx".toList then some (.moves [.htx d])
  else if m = "@txrdy".toList then some (.txrdy d)
  else none

/-- A line with a device and a byte. -/
def lineOfByte (m : List Char) (d : Dev) (b : Byte) : Option ScriptLine :=
  if m = "RXPEEK".toList then some (.command (.rxpeek d b))
  else if m = "SEND".toList then some (.command (.send d b))
  else if m = "@env_rx".toList then some (.moves [.envRx d b])
  else if m = "@rx".toList then some (.moves (rxMoves d b))
  else none

/-- A line from its tokens (R79, R81, R82); `none` for a line that is none. -/
def lineOfTokens : List Token → Option ScriptLine
  | [.word m] => lineOfName m
  | [.word m, .word n] =>
    if m = "GIE".toList then (bitOperand n).map fun v => .command (.gie v)
    else match devOperand n with
      | some d => lineOfDev m d
      | none => none
  | [.word m, .word n, .comma, .word x] =>
    match devOperand n, byteOperand x with
    | some d, some b => lineOfByte m d b
    | _, _ => none
  | [.word m, .word n, .comma, .text cs] =>
    match devOperand n with
    | some d =>
      if m = "SENDS".toList ∧ cs.length ≤ 255 ∧ cs.all (fun c => c.toNat < 128) then some (.command (pseudoSENDS d cs))
      else none
    | none => none
  | .word m :: .word n :: .comma :: .openList :: ts =>
    match devOperand n, listBytes ts with
    | some d, some bs => if m = "SENDB".toList ∧ bs.length ≤ 255 then some (.command (.sendb d bs)) else none
    | _, _ => none
  | _ => none

/-- A line of text. -/
def scriptLine (line : String) : Option ScriptLine := lineOfTokens (tokens false [] line.toList)

/-- The words the assembler emits for a line (R79, R81). -/
def assemble (line : String) : Option (List Word) :=
  match scriptLine line with
  | some (.command i) => some (encode i)
  | _ => none

/-- What a line does: a command line stands for all micro-steps of that command with no other agent's step between. -/
def runLine (l : ScriptLine) (s : State) : Result :=
  match l with
  | .command i => fgCommand { s with cmdIn := encode i ++ s.cmdIn }
  | .moves ms => moves ms s
  | .txrdy d => moves (txrdyMoves d s) s

end Sys2Proof.Machine
end

