-- ==== Sys2Proof/Tests/Slice0.lean ====
section
/-! SUPPORT. Tests with expected values from spec/95_test_vectors.md (the vector is named in each docstring), the
well-formedness smoke test, decoding of words written out from the encodings, and for every obligation that has hypotheses a
witness that meets them. -/

namespace Sys2Proof.Tests

open Sys2Proof Sys2Proof.Machine

/-! ## Small states -/

/-- The state a result holds, if it is a next state. -/
def after (o : Result) : Option State :=
  match o with
  | .next t => some t
  | .fault _ => none
  | .refused _ => none

/-- The fault a result is, if it is one. -/
def faultOf (o : Result) : Option Fault :=
  match o with
  | .fault r => some r
  | .next _ => none
  | .refused _ => none

/-- What `f` shows of the state a result holds. -/
def seen {α : Type} (f : State → α) (o : Result) : Option α := (after o).map f

/-- A RingBuffer of capacity 4: `([s0,s1,..], head, tail, count)`. -/
def ring4 (cells : Memory) (h t c : Nat) : RingBuffer := { k := 2, storage := cells, head := h, tail := t, count := c }

/-- An initialised device 0 of configuration `T` with these buffers, every enable 0, its transceiver idle. -/
def dev0 (rx tx : RingBuffer) : Device := { Device.atReset ⟨2, 2⟩ with rx := rx, tx := tx, initialised := true }

/-- Configuration `T` with this device 0, an initialised empty device 1, and `IE = 1`. -/
def blockOf (D : Device) : State :=
  { State.reset with ie := true, devs := [D, { Device.atReset ⟨1, 3⟩ with initialised := true }] }

/-- `([5,2,3,4], 1, 1, 4)`: full. -/
def ringFull : RingBuffer := ring4 [(0, 5), (1, 2), (2, 3), (3, 4)] 1 1 4

/-- `([1,2,3,u], 3, 1, 2)`. -/
def ringTwo : RingBuffer := ring4 [(0, 1), (1, 2), (2, 3)] 3 1 2

/-- Both buffers of device 0 empty. -/
def stEmpty : State := blockOf (dev0 (RingBuffer.atReset 2) (RingBuffer.atReset 2))

/-- Both buffers of device 0 full, every enable of device 0 set, a byte pending. -/
def stFull : State :=
  blockOf { dev0 ringFull ringFull with rxie := true, txie := true, rxValid := true, rxData := 6 }

/-- Two bytes in both buffers of device 0, every enable of device 0 set, a byte pending. -/
def stTwo : State :=
  blockOf { dev0 ringTwo ringTwo with rxie := true, txie := true, rxValid := true, rxData := 3 }

/-- `stEmpty` with every enable of device 0 set and a byte pending. -/
def stArmed : State :=
  blockOf { dev0 (RingBuffer.atReset 2) (RingBuffer.atReset 2) with
    rxie := true, txie := true, rxValid := true, rxData := 0x33 }

/-- A command in progress on device 0, with a byte pending; the gate is closed in the phases `CS` and `OP_DONE`. -/
def stBusy (p : Phase) (i : Instr) : State :=
  { stTwo with ie := !(p == .cs || p == .opDone), fg := { phase := p, cmd := .legal i, sv := true, rsp := ⟨.ok, 2⟩ } }

/-! ## Well-formedness: each check refuses an ill-formed term -/

theorem test_wf_accepts : (Instr.init 1).wf 2 = true ∧ (Instr.sendb 1 [1, 2]).wf 2 = true ∧ Instr.csenter.wf 2 = true := by
  decide
theorem test_wf_init_absent_device : (Instr.init 2).wf 2 = false := by decide
theorem test_wf_irqen_absent_device : (Instr.irqen 2).wf 2 = false := by decide
theorem test_wf_rxsize_absent_device : (Instr.rxsize 15).wf 2 = false := by decide
theorem test_wf_rxdeq_absent_device : (Instr.rxdeq 2).wf 2 = false := by decide
theorem test_wf_rxpeek_absent_device : (Instr.rxpeek 2 0).wf 2 = false := by decide
theorem test_wf_send_absent_device : (Instr.send 2 0xAA).wf 2 = false := by decide
theorem test_wf_sendb_absent_device : (Instr.sendb 2 []).wf 2 = false := by decide
theorem test_wf_rxdrops_absent_device : (Instr.rxdrops 2).wf 2 = false := by decide
theorem test_wf_payload_too_long :
    (Instr.sendb 0 (List.replicate 255 0)).wf 2 = true ∧ (Instr.sendb 0 (List.replicate 256 0)).wf 2 = false := by
  constructor <;> simp only [Instr.wf, Instr.payloadFits, Instr.payload, List.length_replicate] <;> decide

/-! ## Decoding: words of section 2.2, in configuration `T` -/

theorem test_decode_init : decodeCommand 2 0x1000 [] = .legal (.init 0) ∧ decodeCommand 2 0x1100 [] = .legal (.init 1) := by
  decide
theorem test_decode_irqen :
    decodeCommand 2 0x2000 [] = .legal (.irqen 0) ∧ decodeCommand 2 0x2100 [] = .legal (.irqen 1) := by decide
theorem test_decode_gie :
    decodeCommand 2 0x3000 [] = .legal (.gie false) ∧ decodeCommand 2 0x3001 [] = .legal (.gie true) := by decide
theorem test_decode_csenter : decodeCommand 2 0x4000 [] = .legal .csenter := by decide
theorem test_decode_csexit : decodeCommand 2 0x5000 [] = .legal .csexit := by decide
theorem test_decode_rxsize :
    decodeCommand 2 0x6000 [] = .legal (.rxsize 0) ∧ decodeCommand 2 0x6100 [] = .legal (.rxsize 1) := by decide
/-- V-ENC-13: `7F00` is `RXDEQ 15` with `NDEV = 16`, illegal in `T`. -/
theorem test_decode_rxdeq :
    decodeCommand 2 0x7100 [] = .legal (.rxdeq 1) ∧ decodeCommand 16 0x7F00 [] = .legal (.rxdeq 15) ∧
    decodeCommand 2 0x7F00 [] = .illegal := by decide
theorem test_decode_rxpeek :
    decodeCommand 2 0x8103 [] = .legal (.rxpeek 1 3) ∧ decodeCommand 2 0x80FF [] = .legal (.rxpeek 0 255) := by decide
theorem test_decode_send :
    decodeCommand 2 0x9041 [] = .legal (.send 0 0x41) ∧ decodeCommand 2 0x91FF [] = .legal (.send 1 0xFF) := by decide
/-- V-ENC-10: `p[15:8]` is ignored. -/
theorem test_decode_sendb :
    decodeCommand 2 0xA102 [0x0011, 0x0012] = .legal (.sendb 1 [0x11, 0x12]) ∧
    decodeCommand 2 0xA001 [0xFF41] = .legal (.sendb 0 [0x41]) ∧ decodeCommand 2 0xA000 [] = .legal (.sendb 0 []) := by
  decide
theorem test_decode_rxdrops :
    decodeCommand 2 0xB000 [] = .legal (.rxdrops 0) ∧ decodeCommand 2 0xB100 [] = .legal (.rxdrops 1) := by decide

/-- V-ENC-01 to V-ENC-08. -/
theorem test_decode_illegal :
    ([0x0000, 0xC000, 0xD123, 0xE000, 0xFFFF, 0x1001, 0x1200, 0x3002, 0x3003, 0x3100, 0x4001, 0x4100, 0x5080, 0x6201,
      0x7F00, 0xB001, 0x8200, 0x92AA] : List Word).all (fun w => decodeCommand 2 w [] = .illegal) = true := by decide

/-- V-ENC-09: an illegal `SENDB` still takes its payload; the next word is a header again. -/
theorem test_illegal_sendb_takes_its_payload :
    takeCommand [0xA203, 0x6000, 0x7000, 0x1000, 0x6000] = some (0xA203, [0x6000, 0x7000, 0x1000], [0x6000]) ∧
    decodeCommand 2 0xA203 [0x6000, 0x7000, 0x1000] = .illegal := by decide

/-- The rejections by name. -/
theorem test_rejects_by_name :
    rejects 2 0xC000 [] = some .reservedOpcode ∧ rejects 2 0x1001 [] = some .mustBeZero ∧
    rejects 2 0x1200 [] = some .noSuchDevice ∧ rejects 2 0x1100 [] = none := by decide

/-- The table numbers the bits of the first word from 0; payload words that it gives no bits are 0. -/
theorem test_decodeTableWord :
    decodeTableWord 16 0x9041 = some (.send 0 0x41) ∧ decodeTableWord 16 0xA102 = some (.sendb 1 [0, 0]) ∧
    decodeTableWord 32 0x0041A001 = some (.sendb 0 [0x41]) ∧ decodeTableWord 16 0xC000 = none := by decide

/-- The column "wrapped" of R72 stands once in the table and once by command. -/
theorem test_wrapped_agrees :
    opRows.all (fun r => r.wrapped == (r.build 0 0 []).wrapped) = true := by decide

/-- Response words of section 2.2. -/
theorem test_response_words :
    (Response.mk .ok 3).word = 0x0003 ∧ (Response.mk .ok 256).word = 0x0100 ∧ (Response.mk .empty 0).word = 0x4000 ∧
    (Response.mk .full 4).word = 0x8004 ∧ (Response.mk .err 0).word = 0xC000 ∧
    decodeResponse 0x0100 = ⟨.ok, 256⟩ ∧ decodeResponse 0x8004 = ⟨.full, 4⟩ := by decide

/-- The assembly table of section 2.2. -/
theorem test_assemble :
    assemble "SENDB 1, [0x11, 0x12]" = some [0xA102, 0x0011, 0x0012] ∧ assemble "RXPEEK 0, 255" = some [0x80FF] ∧
    assemble "SENDS 1, \"Hi\"" = some [0xA102, 0x0048, 0x0069] ∧ assemble "EI" = some [0x3001] ∧
    assemble "CSENTER ; open" = some [0x4000] := by decide

/-! ## The interrupt gate (section 2.3) -/

/-- V-CS-03, first step: `IE = 1` is pushed and cleared. -/
theorem test_csenter_saves : seen (fun t => (t.csStack, t.ie, t.rspOut)) (exec .csenter stEmpty) =
    some ([true], false, [0x0000]) := by decide
/-- V-CS-04: a full stack. -/
theorem test_csenter_full : seen (fun t => (t.csStack, t.ie, t.rspOut))
    (exec .csenter { stEmpty with ie := false, csStack := [false, true] }) =
    some ([false, true], false, [0xC000]) := by decide
/-- V-CS-07: the exit restores the saved 0 although `IE` is 1. -/
theorem test_csexit_restores_zero : seen (fun t => (t.csStack, t.ie, t.rspOut))
    (exec .csexit { stEmpty with csStack := [false] }) = some ([], false, [0x0000]) := by decide
/-- V-CS-05. -/
theorem test_csexit_empty : seen (fun t => (t.ie, t.rspOut)) (exec .csexit stEmpty) = some (true, [0xC000]) := by decide
/-- V-CS-06, its middle step. -/
theorem test_gie_leaves_the_stack : seen (fun t => (t.csStack, t.ie, t.rspOut))
    (exec (.gie true) { stEmpty with ie := false, csStack := [true] }) = some ([true], true, [0x0000]) := by decide
/-- V-CH-03. -/
theorem test_irqen_sets_rxie : seen (fun t => ((t.dev 0).rxie, (t.dev 0).txie, t.ie, t.rspOut))
    (exec (.irqen 0) { stEmpty with ie := false }) = some (true, false, false, [0x0000]) := by decide
/-- V-CS-01: after F1 `fg.sv = 1` and `IE = 0`. -/
theorem test_enter_saves_ie : seen (fun t => (t.fg.sv, t.ie))
    (moves [.fgMicro, .fgMicro] { stTwo with cmdIn := [0x6000] }) = some (true, false) := by decide

/-! ## Channel commands (section 2.4) -/

/-- V-CH-01. -/
theorem test_init_after_reset : seen (fun t => ((t.dev 0).initialised, (t.dev 1).initialised, t.ie, t.rspOut))
    (exec (.init 0) State.reset) = some (true, false, false, [0x0000]) := by decide
/-- V-CH-02: enables and the drop count are kept, both buffers are emptied. -/
theorem test_init_on_a_live_device :
    seen (fun t => ((t.dev 0).rx.count, (t.dev 0).tx.count, (t.dev 0).txie, (t.dev 0).rxie, (t.dev 0).rxDrop))
      (exec (.init 0) (stTwo.setDev 0 { stTwo.dev 0 with rxDrop := 3 })) = some (0, 0, true, true, 3) := by decide
/-- V-CH-10. -/
theorem test_rxsize : seen State.rspOut (exec (.rxsize 0) stEmpty) = some [0x0000] ∧
    seen State.rspOut (exec (.rxsize 0) stFull) = some [0x0004] := by decide
/-- V-CH-11: byte 0 is `OK`, an empty buffer is `EMPTY`. -/
theorem test_rxdeq_zero_byte : seen (fun t => ((t.dev 0).rx, t.rspOut))
    (exec (.rxdeq 0) (blockOf (dev0 (ring4 [] 1 0 1) ringTwo))) = some (ring4 [] 1 1 0, [0x0000]) := by decide
theorem test_rxdeq_empty : seen State.rspOut (exec (.rxdeq 0) stEmpty) = some [0x4000] := by decide
/-- V-CH-12, and `count - 1` against `count`. -/
theorem test_rxpeek : seen State.rspOut (exec (.rxpeek 0 0) stTwo) = some [0x0002] ∧
    seen State.rspOut (exec (.rxpeek 0 1) stTwo) = some [0x0003] ∧
    seen State.rspOut (exec (.rxpeek 0 2) stTwo) = some [0x4000] := by decide
/-- P1, line 16: the index wraps. -/
theorem test_rxpeek_wraps : seen State.rspOut (exec (.rxpeek 0 3) stFull) = some [0x0005] := by decide
/-- V-CH-20. -/
theorem test_send_full : seen (fun t => ((t.dev 0).tx, (t.dev 0).txie, t.ie, t.rspOut)) (exec (.send 0 0x99) stFull) =
    some (ringFull, true, true, [0x8000]) := by decide
/-- P2, line 3. -/
theorem test_send_arms : seen (fun t => ((t.dev 0).tx, (t.dev 0).txie, t.rspOut)) (exec (.send 0 0x41) stEmpty) =
    some (ring4 [(0, 0x41)] 1 0 1, true, [0x0001]) := by decide
/-- V-CH-23. -/
theorem test_sendb_partial : seen (fun t => ((t.dev 0).tx.contents, t.rspOut))
    (exec (.sendb 0 [1, 2, 3, 4, 5, 6]) stEmpty) = some ([1, 2, 3, 4], [0x8004]) := by decide
/-- V-CH-22: an empty batch arms. -/
theorem test_sendb_empty_arms : seen (fun t => ((t.dev 0).txie, t.rspOut)) (exec (.sendb 0 []) stEmpty) =
    some (true, [0x0000]) := by decide
/-- V-CH-25: neither the read nor `INIT` clears the count. -/
theorem test_rxdrops : seen State.rspOut
    (exec (.rxdrops 0) (stEmpty.setDev 0 { stEmpty.dev 0 with rxDrop := 255 })) = some [0x00FF] ∧
    seen State.rspOut (exec (.rxdrops 0) State.reset) = some [0x0000] := by decide

/-! ## Primitives (section 2.1) -/

/-- V-RB-07 and V-RB-08: the corrected scenario A, and partial acceptance. -/
theorem test_batch : ringTwo.enqueueBatch [4, 5] = (ringFull, 2) ∧
    (ring4 [(0, 1), (1, 2), (2, 3)] 3 0 3).enqueueBatch [4, 5] =
      (ring4 [(0, 1), (1, 2), (2, 3), (3, 4)] 0 0 4, 1) := by decide
/-- V-RB-11. -/
theorem test_peek_wraps : ringFull.peek 3 = some 5 ∧ ringFull.peek 4 = none := by decide
/-- V-RB-14: capacity 1. -/
theorem test_capacity_one :
    (RingBuffer.atReset 0).enqueue 0xAA = ({ k := 0, storage := [(0, 0xAA)], head := 0, tail := 0, count := 1 }, true) ∧
    ((RingBuffer.atReset 0).enqueue 0xAA).1.enqueue 0xBB = (((RingBuffer.atReset 0).enqueue 0xAA).1, false) ∧
    ((RingBuffer.atReset 0).enqueue 0xAA).1.dequeue.2 = some 0xAA := by decide
/-- V-RB-21: `rb_init` leaves storage, and the dead byte is not returned. -/
theorem test_init_then_enqueue : ringTwo.init = ring4 [(0, 1), (1, 2), (2, 3)] 0 0 0 ∧ ringTwo.init.peek 0 = none ∧
    (ringTwo.init.enqueue 7).1 = ring4 [(0, 7), (1, 2), (2, 3)] 1 0 1 := by decide
/-- Writing what an unlisted cell reads as takes the entry out, so equal memories are equal data. -/
theorem test_memory_canonical : Memory.write [(0, 1), (1, 2)] 0 0 = [(1, 2)] ∧
    Memory.write [(1, 2)] 0 7 = [(0, 7), (1, 2)] := by decide
/-- Storage has the canonical form after reset. -/
theorem test_reset_memory_wf : ∀ D ∈ State.reset.devs, Memory.wf D.rx.storage ∧ Memory.wf D.tx.storage := by decide

/-! ## Handlers (section 2.5) -/

/-- V-CH-26, first step, and V-H-02: a full buffer drops the byte and empties the slot. -/
theorem test_hrx_drops : seen (fun t => ((t.dev 0).rx, (t.dev 0).rxDrop, (t.dev 0).rxValid, (t.dev 0).rxLog, t.ie))
    (hrxStep 0 stFull) = some (ringFull, 1, false, [6], true) := by decide
/-- V-H-03: saturation. -/
theorem test_hrx_saturates : seen (fun t => (t.dev 0).rxDrop)
    (hrxStep 0 (stFull.setDev 0 { stFull.dev 0 with rxDrop := 255 })) = some 255 := by decide
/-- V-H-04. -/
theorem test_htx_puts : seen (fun t => ((t.dev 0).tx.contents, (t.dev 0).txData, (t.dev 0).txReady, (t.dev 0).txie,
    (t.dev 0).txLog)) (htxStep 0 stTwo) = some ([3], 2, false, true, [2]) := by decide
/-- V-H-05. -/
theorem test_htx_disables : seen (fun t => ((t.dev 0).txie, (t.dev 0).txReady, (t.dev 0).txLog)) (htxStep 0 stArmed) =
    some (false, true, []) := by decide
/-- V-H-07: the enabling of `HRX(0)`, all eight cases. -/
theorem test_hrx_enabling : ([(true, true, true), (true, true, false), (true, false, true), (true, false, false),
    (false, true, true), (false, true, false), (false, false, true), (false, false, false)] : List _).map
      (fun (a, b, c) =>
        hrxEnabled 0 { stTwo.setDev 0 { stTwo.dev 0 with rxie := b, rxValid := c } with ie := a }) =
    [true, false, false, false, false, false, false, false] := by decide
/-- V-H-09: the answer is the size at step F2. -/
theorem test_hrx_before_enter : seen State.rspOut
    (moves [.fgMicro, .hrx 0, .fgMicro, .fgMicro, .fgMicro, .fgMicro]
      { blockOf { dev0 (ring4 [(0, 1)] 1 0 1) ringTwo with rxie := true, rxValid := true, rxData := 2 } with
        cmdIn := [0x6000] }) = some [0x0002] := by decide
/-- V-CH-30: handler steps between F3 and F4. -/
theorem test_racy_send : seen (fun t => ((t.dev 0).tx, (t.dev 0).txie, (t.dev 0).txLog, t.rspOut, t.ie))
    (moves [.fgMicro, .fgMicro, .fgMicro, .fgMicro, .htx 0, .envTxReady 0, .htx 0, .envTxReady 0, .htx 0, .fgMicro,
      .fgMicro, .htx 0]
      { blockOf { dev0 ringTwo (ring4 [(0, 0x58)] 1 0 1) with txie := true } with cmdIn := [0x9059] }) =
    some (ring4 [(0, 0x58), (1, 0x59)] 2 2 0, false, [0x58, 0x59], [0x0001], true) := by decide

/-- R74: the four status codes. -/
theorem test_status_codes : ([.ok, .empty, .full, .err] : List Status).map (fun st => Response.word ⟨st, 1⟩) =
    [0x0001, 0x4001, 0x8001, 0xC001] := by decide

/-! ## Reset and the step (section 2.6) -/

/-- V-RST-01. -/
theorem test_reset_event : seen (fun t => (t.ie, t.csStack, t.fg.phase, t.rspOut))
    (move .reset { stBusy .cs (.send 0 0x41) with csStack := [true] }) =
    some (false, [], Phase.idle, []) := by decide
/-- V-RST-01, device 0. -/
theorem test_reset_event_device : seen (fun t => ((t.dev 0).rxie, (t.dev 0).txie, (t.dev 0).rxDrop, (t.dev 0).initialised,
    (t.dev 0).rxValid)) (move .reset (stFull.setDev 0 { stFull.dev 0 with rxDrop := 2 })) =
    some (false, false, 0, false, true) := by decide
/-- V-RST-02. -/
theorem test_use_before_init : faultOf (exec (.rxsize 0) State.reset) = some (.uninitialised 0) := by decide
/-- V-RST-04, its last command, as the first step after reset. -/
theorem test_step_after_reset : seen State.rspOut (step (State.reset.withFetchWord 16 0x5000)) = some [0xC000] ∧
    seen State.rspOut (step (State.reset.withFetchWord 16 0xC000)) = some [0xC000] := by decide
/-- P1, lines 1 to 4, through the schedule. -/
theorem test_receive_through_the_schedule : seen (fun t => ((t.dev 0).rx.contents, t.rspOut))
    ((List.replicate 5 step).foldl andThen
      (.next { State.reset with cmdIn := [0x1000, 0x2000, 0x3001],
                                sched := [.fgCommand, .fgCommand, .fgCommand, .envRx 0 1, .hrx 0] })) =
    some ([1], [0x0000, 0x0000, 0x0000]) := by decide

/-! ## Witnesses: for every statement with hypotheses, states and operands that meet them together -/

theorem witness_DecodeInvertsEncode :
    (Instr.sendb 15 [0xFF, 0x00]).payloadFits = true ∧ (Instr.sendb 0 []).payloadFits = true ∧
    (Instr.sendb 0 (List.replicate 255 0)).payloadFits = true := by
  simp only [Instr.payloadFits, Instr.payload, List.length_replicate]; decide
theorem witness_OpcodeRowsAreDisjoint : ∃ r, r ∈ opRows ∧ r.selects 0x3001 = true :=
  ⟨_, .tail _ (.tail _ (.head _)), by decide⟩
theorem witness_StepRunsTheDecodedCommand :
    (stTwo.fg.phase = .idle ∧ decode [0xA102, 0x0011, 0x0012, 0x6000] = .ok (.sendb 1 [0x11, 0x12], [0x6000]) ∧
      (Instr.sendb 1 [0x11, 0x12]).wf stTwo.ndev = true ∧ (Instr.sendb 1 [0x11, 0x12]).wrapped = true) ∧
    (decode [0x5000] = .ok (.csexit, []) ∧ Instr.csexit.wf stTwo.ndev = true ∧ Instr.csexit.wrapped = false) ∧
    (stTwo.sched = [] ∧ ({ stTwo with sched := [.fgCommand] } : State).sched = .fgCommand :: [] ∧
      ({ stTwo with sched := [.fgMicro, .hrx 0] } : State).sched = .fgMicro :: [.hrx 0]) :=
  ⟨⟨rfl, rfl, by decide, rfl⟩, ⟨rfl, by decide, rfl⟩, rfl, rfl, rfl⟩
theorem witness_StepMakesTheScheduledMove : ({ stTwo with sched := [.hrx 0, .reset] } : State).sched = .hrx 0 :: [.reset] :=
  rfl
/-- A state with this command at step F2. -/
def atBody (s : State) (i : Instr) : State :=
  { s with ie := false, fg := { phase := .cs, cmd := .legal i, sv := true, rsp := ⟨.ok, 0⟩ } }

theorem witness_MicroStepsOfAWrappedCommand :
    (stBusy .accepted (.rxsize 0)).fg.phase = .accepted ∧ (stBusy .opDone (.rxsize 0)).fg.phase = .opDone ∧
    ((stBusy .restored (.send 0 1)).fg.phase = .restored ∧ Command.sendsTo 0 (stBusy .restored (.send 0 1)).fg.cmd) ∧
    Command.sendsTo 0 (stBusy .restored (.sendb 0 [])).fg.cmd ∧ (stBusy .armed (.send 0 1)).fg.phase = .armed ∧
    ((stBusy .restored (.rxsize 0)).fg.phase = .restored ∧
      ∀ d : Dev, ¬ Command.sendsTo d (stBusy .restored (.rxsize 0)).fg.cmd) := by
  refine ⟨rfl, rfl, ⟨rfl, .inl ⟨1, rfl⟩⟩, .inr ⟨[], rfl⟩, rfl, rfl, ?_⟩
  rintro d (⟨b, h⟩ | ⟨b, h⟩) <;> cases h
/-- The clauses of F2: which need an initialised device, with the buffer empty, part full, full. -/
theorem witness_MicroStepsOfAWrappedCommand_body :
    (∀ i : Instr, (atBody stTwo i).fg.phase = .cs ∧ (atBody stTwo i).fg.cmd = .legal i) ∧
    (0 : Dev).val < (atBody stTwo (.init 0)).ndev ∧ ((atBody stTwo (.rxsize 0)).dev 0).initialised = true ∧
    (((atBody stArmed (.rxdeq 0)).dev 0).initialised = true ∧ ((atBody stArmed (.rxdeq 0)).dev 0).rx.count = 0) ∧
    ((atBody stTwo (.rxdeq 0)).dev 0).rx.count ≠ 0 ∧
    (1 : Byte).toNat < ((atBody stTwo (.rxpeek 0 1)).dev 0).rx.count ∧
    ((atBody stTwo (.rxpeek 0 2)).dev 0).rx.count ≤ (2 : Byte).toNat ∧
    (((atBody stFull (.send 0 1)).dev 0).initialised = true ∧
      ((atBody stFull (.send 0 1)).dev 0).tx.count = 2 ^ ((atBody stFull (.send 0 1)).dev 0).tx.k) ∧
    ((atBody stTwo (.send 0 1)).dev 0).tx.count ≠ 2 ^ ((atBody stTwo (.send 0 1)).dev 0).tx.k :=
  ⟨fun _ => ⟨rfl, rfl⟩, by decide, rfl, ⟨rfl, rfl⟩, by decide, by decide, by decide, ⟨rfl, by decide⟩, by decide⟩
theorem witness_MicroStepsOfAWrappedCommand_before_init :
    ((State.reset.dev 1).initialised = false ∧ (1 : Dev).val < State.reset.ndev) ∧
    (atBody State.reset (.init 1)).fg.phase = .cs := ⟨⟨rfl, by decide⟩, rfl⟩
/-- An illegal `SENDB` header takes its payload; an illegal header of opcode 0xC or 0x1 is one word, whatever its operand. -/
theorem witness_StepAnswersErrToAnIllegalHeader :
    (stTwo.fg.phase = .idle ∧ stTwo.sched = []) ∧
    (({ stTwo with cmdIn := [0xA201, 0x6000, 0x4000] } : State).cmdIn = 0xA201 :: ([0x6000] ++ [0x4000]) ∧
      ([0x6000] : List Word).length = (if opField 0xA201 = 0xA then (operandField 0xA201).toNat else 0) ∧
      decodeCommand stTwo.ndev 0xA201 [0x6000] = .illegal) ∧
    (({ stTwo with cmdIn := [0xC002, 0x6000] } : State).cmdIn = 0xC002 :: ([] ++ [0x6000]) ∧
      ([] : List Word).length = (if opField 0xC002 = 0xA then (operandField 0xC002).toNat else 0) ∧
      decodeCommand stTwo.ndev 0xC002 [] = .illegal) ∧
    (([] : List Word).length = (if opField 0x1001 = 0xA then (operandField 0x1001).toNat else 0) ∧
      decodeCommand stTwo.ndev 0x1001 [] = .illegal) := by decide
theorem witness_CommandOnAbsentDeviceAnswersErr :
    stTwo.fg.phase = .idle ∧ (Instr.send 2 0).dev? = some 2 ∧ stTwo.ndev ≤ (2 : Dev).val := by decide
theorem witness_InitEmptiesBothBuffers :
    State.reset.fg.phase = .idle ∧ (1 : Dev).val < State.reset.ndev ∧ State.reset.ndev ≤ (2 : Dev).val := by decide
theorem witness_IrqenEnablesReceive :
    State.reset.fg.phase = .idle ∧ (1 : Dev).val < State.reset.ndev ∧ State.reset.ndev ≤ (2 : Dev).val := by decide
theorem witness_GieWritesIe : State.reset.fg.phase = .idle := by decide
theorem witness_CsenterSavesAndClearsIe :
    ({ stTwo with csStack := [false, true] } : State).csStack.length = stTwo.csDepth ∧
    ({ stTwo with csStack := [true] } : State).csStack.length ≠ stTwo.csDepth ∧ stTwo.fg.phase = .idle := by decide
theorem witness_CsexitRestoresIe :
    stTwo.csStack = [] ∧ ({ stTwo with csStack := [false] } : State).csStack = false :: [] ∧ stTwo.fg.phase = .idle := by
  decide
theorem witness_RxsizeAnswersCount : stFull.fg.phase = .idle ∧ (stFull.dev 0).initialised = true := by decide
theorem witness_RxdeqReturnsTheOldestByte :
    stTwo.fg.phase = .idle ∧ stEmpty.fg.phase = .idle ∧
    ((stEmpty.dev 0).initialised = true ∧ (stEmpty.dev 0).rx.count = 0) ∧
    ((stTwo.dev 0).initialised = true ∧ (stTwo.dev 0).rx.count ≠ 0) := by decide
theorem witness_RxpeekShowsALogicalIndex :
    stTwo.fg.phase = .idle ∧ (stTwo.dev 0).initialised = true ∧ (1 : Byte).toNat < (stTwo.dev 0).rx.count ∧
    (stTwo.dev 0).rx.count ≤ (2 : Byte).toNat := by decide
/-- Full, and with one free cell (`V-RB-02` at capacity 4, `count = 3`). -/
theorem witness_SendEnqueuesAndArms :
    (stFull.fg.phase = .idle ∧ (stFull.dev 0).initialised = true ∧
      (stFull.dev 0).tx.count = 2 ^ (stFull.dev 0).tx.k) ∧
    ((blockOf (dev0 ringTwo (ring4 [(0, 1)] 3 0 3))).fg.phase = .idle ∧
      ((blockOf (dev0 ringTwo (ring4 [(0, 1)] 3 0 3))).dev 0).initialised = true ∧
      ((blockOf (dev0 ringTwo (ring4 [(0, 1)] 3 0 3))).dev 0).tx.count ≠
        2 ^ ((blockOf (dev0 ringTwo (ring4 [(0, 1)] 3 0 3))).dev 0).tx.k) := by decide
theorem witness_SendbEnqueuesAPrefixAndArms :
    stTwo.fg.phase = .idle ∧ (stTwo.dev 0).initialised = true ∧ (stTwo.dev 0).tx.storage.wf ∧ (stTwo.dev 0).tx.Ok ∧
    (stFull.dev 0).tx.storage.wf ∧ (stFull.dev 0).tx.Ok := by decide
theorem witness_RxdropsReadsTheCounter : State.reset.fg.phase = .idle ∧ (1 : Dev).val < State.reset.ndev := by decide
theorem witness_UseBeforeInitFaults :
    ((1 : Dev).val < State.reset.ndev ∧ (State.reset.dev 1).initialised = false ∧ State.reset.fg.phase = .idle) ∧
    (hrxEnabled 1 { State.reset.setDev 1 { State.reset.dev 1 with rxie := true, rxValid := true } with ie := true } = true ∧
      htxEnabled 1 { State.reset.setDev 1 { State.reset.dev 1 with txie := true } with ie := true } = true) := by decide
theorem witness_ReceiveCommandsFrame :
    (∃ t, exec (.rxsize 0) stTwo = .next t) ∧ (∃ t, exec (.rxdeq 0) stTwo = .next t) ∧
    (∃ t, exec (.rxdeq 0) stEmpty = .next t) ∧ (∃ t, exec (.rxpeek 0 1) stTwo = .next t) ∧
    (∃ t, exec (.rxdrops 1) State.reset = .next t) := ⟨⟨_, rfl⟩, ⟨_, rfl⟩, ⟨_, rfl⟩, ⟨_, rfl⟩, ⟨_, rfl⟩⟩
theorem witness_SendFrame :
    (∃ t, exec (.send 0 9) stTwo = .next t) ∧
    ((∃ t, exec (.send 0 9) stFull = .next t) ∧ (stFull.dev 0).tx.count = (stFull.dev 0).tx.cap) :=
  ⟨⟨_, rfl⟩, ⟨_, rfl⟩, rfl⟩
theorem witness_SendbFrame :
    ((∃ t, exec (.sendb 0 [4, 5, 6]) stTwo = .next t) ∧ (stTwo.dev 0).tx.head < (stTwo.dev 0).tx.cap) ∧
    (∃ t, exec (.sendb 0 []) stTwo = .next t) := ⟨⟨⟨_, rfl⟩, by decide⟩, ⟨_, rfl⟩⟩
theorem witness_InitFrame : ∃ t, exec (.init 0) stFull = .next t := ⟨_, rfl⟩
theorem witness_GateCommandsFrame :
    (∃ t, exec (.irqen 1) stTwo = .next t) ∧ (∃ t, exec (.gie false) stTwo = .next t) ∧
    (∃ t, exec .csenter stTwo = .next t) ∧ (∃ t, exec .csexit stTwo = .next t) ∧ (Instr.irqen 1).wrapped = false :=
  ⟨⟨_, rfl⟩, ⟨_, rfl⟩, ⟨_, rfl⟩, ⟨_, rfl⟩, rfl⟩
theorem witness_CommandsLeaveIeAsFound : ∃ t, exec (.send 0 9) stTwo = .next t := ⟨_, rfl⟩
theorem witness_CommandsOfOtherDevicesAreIndependent :
    (Instr.send 0 9).dev? ≠ some 1 ∧ Instr.csenter.dev? ≠ some 1 := by decide
theorem witness_HandlersOfOtherDevicesAreIndependent : (0 : Dev) ≠ 1 := by decide
theorem witness_EveryCommandIsAnsweredOnce :
    stTwo.fg.phase = .idle ∧ (∃ t, move .fgCommand { stTwo with cmdIn := [0x9009] } = .next t) ∧
    (∃ t, move .fgCommand { stTwo with cmdIn := [0xF000] } = .next t) := ⟨rfl, ⟨_, rfl⟩, ⟨_, rfl⟩⟩
theorem witness_RingPrimitiveEquations :
    (ringFull.count = 2 ^ ringFull.k ∧ (RingBuffer.atReset 2).count = 0) ∧
    (ringTwo.count ≠ 2 ^ ringTwo.k ∧ ringTwo.count ≠ 0) ∧ (ringTwo.count ≤ 2 ∧ 1 < ringTwo.count) := by decide
theorem witness_RingPrimitivesKeepTheInvariant : ringFull.Ok ∧ ringTwo.Ok ∧ (RingBuffer.atReset 0).Ok := by decide
theorem witness_RingPrimitivesActOnContents :
    (ringTwo.storage.wf ∧ ringTwo.Ok ∧ ringTwo.contents.length < 2 ^ ringTwo.k ∧
      ([4, 5] : List Byte).length ≤ 2 ^ ringTwo.k - ringTwo.contents.length) ∧
    (ringFull.storage.wf ∧ ringFull.Ok ∧ ringFull.contents.length = 2 ^ ringFull.k ∧
      ([] : List Byte).length ≤ 2 ^ ringFull.k - ringFull.contents.length) := by decide
theorem witness_BatchClosedForm : ringTwo.storage.wf ∧ ringTwo.Ok := by decide
theorem witness_ResultsDependOnLiveBytesOnly :
    ringTwo.storage.wf ∧ ringTwo.Ok ∧ (ring4 [(0, 2), (1, 3)] 2 0 2).storage.wf ∧ (ring4 [(0, 2), (1, 3)] 2 0 2).Ok ∧
    ringTwo.k = (ring4 [(0, 2), (1, 3)] 2 0 2).k ∧ ringTwo.contents = (ring4 [(0, 2), (1, 3)] 2 0 2).contents ∧
    ringTwo ≠ ring4 [(0, 2), (1, 3)] 2 0 2 := by decide
theorem witness_HandlerEnablingConditions :
    ((stBusy .cs (.rxsize 0)).FgOk ∧ (stBusy .cs (.rxsize 0)).fg.phase = .cs) ∧
    ((stBusy .opDone (.send 0 1)).FgOk ∧ (stBusy .opDone (.send 0 1)).fg.phase = .opDone) ∧
    hrxEnabled 0 stTwo = true ∧ htxEnabled 0 stTwo = true := by decide
theorem witness_HrxTakesOneByte :
    (hrxEnabled 0 stTwo = true ∧ (stTwo.dev 0).initialised = true ∧
      (stTwo.dev 0).rx.count ≠ 2 ^ (stTwo.dev 0).rx.k) ∧
    (hrxEnabled 0 stFull = true ∧ (stFull.dev 0).initialised = true ∧
      (stFull.dev 0).rx.count = 2 ^ (stFull.dev 0).rx.k) := by decide
theorem witness_HtxPutsOneByteOrDisables :
    (htxEnabled 0 stTwo = true ∧ (stTwo.dev 0).initialised = true ∧ (stTwo.dev 0).tx.count ≠ 0) ∧
    (htxEnabled 0 stArmed = true ∧ (stArmed.dev 0).initialised = true ∧ (stArmed.dev 0).tx.count = 0) := by decide
theorem witness_HandlerStepsFrame :
    (∃ t, hrxStep 0 stTwo = .next t) ∧ (∃ t, hrxStep 0 stFull = .next t) ∧ (∃ t, htxStep 0 stTwo = .next t) ∧
    (∃ t, htxStep 0 stArmed = .next t) := ⟨⟨_, rfl⟩, ⟨_, rfl⟩, ⟨_, rfl⟩, ⟨_, rfl⟩⟩

theorem inv_stTwo : stTwo.Inv := ⟨by decide, by decide, by decide, by decide, by decide⟩

/-- Every enable of both devices set, every request up (V-H-10). -/
def stBoth : State :=
  stTwo.setDev 1 { stTwo.dev 1 with rxie := true, txie := true, rxValid := true, rxData := 9 }

theorem witness_EnabledHandlerStepsCommute :
    hrxEnabled 0 stBoth = true ∧ htxEnabled 0 stBoth = true ∧ hrxEnabled 1 stBoth = true ∧ htxEnabled 1 stBoth = true ∧
    (stBoth.dev 0).initialised = true ∧ (stBoth.dev 1).initialised = true ∧ (0 : Dev) ≠ 1 := by decide
theorem witness_EnvironmentMovesDoWhatTheySay :
    ((1 : Dev).val < stTwo.ndev ∧ (stTwo.dev 1).rxValid = false ∧ (stTwo.dev 1).txReady = true) ∧
    ((0 : Dev).val < stTwo.ndev ∧ (stTwo.dev 0).rxValid = true) ∧
    ((1 : Dev).val < (stTwo.setDev 1 { stTwo.dev 1 with txReady := false }).ndev ∧
      ((stTwo.setDev 1 { stTwo.dev 1 with txReady := false }).dev 1).txReady = false) := by decide
theorem witness_RequestsAreNeverLost :
    ((∃ t, move (.htx 0) stTwo = .next t) ∧ (stTwo.dev 0).rxValid = true) ∧
    ((∃ t, move (.htx 0) stArmed = .next t) ∧ (stArmed.dev 0).txReady = true ∧ (stArmed.dev 0).tx.count = 0) ∧
    ((∃ t, move .reset stTwo = .next t) ∧ (stTwo.dev 0).txReady = true) :=
  ⟨⟨⟨_, rfl⟩, rfl⟩, ⟨⟨_, rfl⟩, rfl, rfl⟩, ⟨⟨_, rfl⟩, rfl⟩⟩
theorem witness_FlagsHaveOnlyTheirWriters :
    ((∃ t, move (.htx 0) stArmed = .next t ∧ (t.dev 0).txie = false) ∧ (stArmed.dev 0).txie = true ∧
      (stArmed.dev 0).rxie = true) ∧
    (∃ t, move (.envTxReady 0) (stTwo.setDev 0 { stTwo.dev 0 with txReady := false }) = .next t) :=
  ⟨⟨⟨_, rfl, rfl⟩, rfl, rfl⟩, ⟨_, rfl⟩⟩
theorem witness_ResetValuesOfTheSpec : (1 : Dev).val < Config.T.ndev := by decide
theorem witness_ResetEventAbandonsTheCommand : (1 : Dev).val < (stBusy .cs (.send 0 1)).ndev := by decide
theorem witness_InvariantHoldsAfterReset :
    Config.T.wf ∧ Config.wf { devs := List.replicate 16 ⟨0, 8⟩, csDepth := 1 } := by decide
theorem witness_EveryStepKeepsTheInvariant :
    stTwo.Inv ∧ (∃ t, step { stTwo with sched := [.htx 0] } = .next t) ∧
    (∃ t, step { stTwo with cmdIn := [0x9009] } = .next t) ∧ (∃ t, step { stTwo with sched := [.reset] } = .next t) :=
  ⟨inv_stTwo, ⟨_, rfl⟩, ⟨_, rfl⟩, ⟨_, rfl⟩⟩
/-- Good states in every phase of a command in progress. -/
theorem witness_Inv_in_progress : ∀ p : Phase, (stBusy p (.send 0 1)).Inv := by
  intro p
  cases p <;> exact ⟨by decide, by decide, by decide, by decide, by decide⟩
theorem witness_NoByteIsStranded :
    stTwo.Inv ∧ (∃ t, move .fgCommand { stTwo with cmdIn := [0x9009] } = .next t ∧ t.fg.phase = .idle ∧
      (t.dev 0).initialised = true ∧ 0 < (t.dev 0).tx.count) := ⟨inv_stTwo, _, rfl, rfl, rfl, by decide⟩
theorem witness_ConfigurationNeverChanges : ∃ t, move .reset stTwo = .next t := ⟨_, rfl⟩
theorem witness_WholeCommandIsItsMicroSteps :
    stTwo.fg.phase = .idle ∧ (∃ t, fgCommand { stTwo with cmdIn := [0x9009] } = .next t) := ⟨rfl, _, rfl⟩
theorem witness_ImplicitSectionRestoresIe :
    (stBusy .accepted (.send 0 1)).fg.phase = .accepted ∧ (∃ t u v, fgMicro (stBusy .accepted (.send 0 1)) = .next t ∧
      fgMicro t = .next u ∧ fgMicro u = .next v ∧ ∃ x, move (.envRx 1 7) t = .next x) :=
  ⟨rfl, _, _, _, rfl, rfl, rfl, _, rfl⟩
theorem witness_CriticalSectionIsAtomic :
    ((stBusy .cs (.send 0 1)).Inv ∧ (stBusy .cs (.send 0 1)).fg.phase = .cs ∧ (1 : Dev).val < stTwo.ndev ∧
      ((stBusy .cs (.send 0 1)).dev 1).rxValid = false) ∧
    ((stBusy .opDone (.send 0 1)).Inv ∧ (stBusy .opDone (.send 0 1)).fg.phase = .opDone) ∧
    (((stBusy .accepted (.send 0 1)).setDev 1 { stTwo.dev 1 with txReady := false }).Inv ∧
      ((stBusy .accepted (.send 0 1)).setDev 1 { stTwo.dev 1 with txReady := false }).fg.phase = .accepted ∧
      (((stBusy .accepted (.send 0 1)).setDev 1 { stTwo.dev 1 with txReady := false }).dev 1).txReady = false) :=
  ⟨⟨witness_Inv_in_progress _, rfl, by decide, rfl⟩, ⟨witness_Inv_in_progress _, rfl⟩, ⟨by decide, by decide, by decide, by decide, by decide⟩, rfl, rfl⟩
theorem witness_CommandsInProgressFinish :
    (stBusy .accepted (.send 0 1)).Inv ∧ (stBusy .accepted (.send 0 1)).fg.phase ≠ .idle ∧
    (∀ d : Dev, d.val < (stBusy .accepted (.send 0 1)).ndev → ((stBusy .accepted (.send 0 1)).dev d).initialised = true) :=
  ⟨witness_Inv_in_progress _, by decide, by decide⟩

/-- A run of every agent from an empty device 0: two sends, a byte sent out, a byte received and dequeued. -/
def runMoves : List Move := [.fgCommand, .htx 0, .envTxReady 0, .fgMicro, .envRx 0 0x77, .hrx 0, .fgCommand, .fgCommand]

/-- The start of that run. -/
def stRun : State :=
  { blockOf { dev0 (RingBuffer.atReset 2) (RingBuffer.atReset 2) with rxie := true } with
    cmdIn := [0xA002, 0x0041, 0x0042, 0x9043, 0x7000] }

theorem inv_stRun : stRun.Inv := ⟨by decide, by decide, by decide, by decide, by decide⟩

theorem witness_SendPathIsFifo :
    stRun.Inv ∧ (stRun.dev 0).initialised = true ∧ (stRun.dev 0).tx.count = 0 ∧ never (clears 0) runMoves stRun = true ∧
    (∃ t, moves runMoves stRun = .next t ∧ (t.dev 0).txLog = [0x41] ∧ (t.dev 0).tx.contents = [0x42, 0x43]) ∧
    along (acceptedBy 0) runMoves stRun = [0x41, 0x42, 0x43] :=
  ⟨inv_stRun, rfl, rfl, by decide, ⟨_, rfl, by decide, by decide⟩, by decide⟩
theorem witness_ReceivePathIsFifo :
    stRun.Inv ∧ (stRun.dev 0).rx.count = 0 ∧ along (keptBy 0) runMoves stRun = [0x77] ∧
    along (returnedBy 0) runMoves stRun = [0x77] := ⟨inv_stRun, rfl, by decide, by decide⟩

theorem witness_BodyStepFrame :
    ((atBody stTwo (.send 0 1)).fg.phase = .cs ∧ (∃ t, fgMicro (atBody stTwo (.send 0 1)) = .next t)) ∧
    ((∃ t, fgMicro (atBody stTwo (.sendb 0 [7, 8, 9])) = .next t) ∧
      ((atBody stTwo (.sendb 0 [7, 8, 9])).dev 0).tx.head < ((atBody stTwo (.sendb 0 [7, 8, 9])).dev 0).tx.cap) ∧
    ((∃ t, fgMicro (atBody stTwo (.rxdeq 0)) = .next t) ∧ ∀ d : Dev, ¬ Command.sendsTo d (.legal (.rxdeq 0))) := by
  refine ⟨⟨rfl, _, rfl⟩, ⟨⟨_, rfl⟩, by decide⟩, ⟨_, rfl⟩, ?_⟩
  rintro d (⟨b, h⟩ | ⟨b, h⟩) <;> cases h
theorem witness_HeaderTellsTheCommandLength :
    (({ stTwo with cmdIn := [0xA002, 0x0041, 0x0042] } : State).cmdIn = 0xA002 :: [0x0041, 0x0042] ∧
      2 = (if opField 0xA002 = 0xA then (operandField 0xA002).toNat else 0) ∧ 2 ≤ [0x0041, 0x0042].length) ∧
    ([0x0041].length < (if opField 0xA002 = 0xA then (operandField 0xA002).toNat else 0)) ∧
    (0 = (if opField 0xB0FF = 0xA then (operandField 0xB0FF).toNat else 0)) := by decide
/-- `stEmpty` with a send command between its steps F3 and F4. -/
def atArm (i : Instr) : State := { stEmpty with fg := { phase := .restored, cmd := .legal i, sv := true, rsp := ⟨.ok, 0⟩ } }

theorem witness_EnablesAreSetByTheirCommands :
    ((stEmpty.dev 1).rxie = false ∧
      ∃ t, move .fgCommand { stEmpty with cmdIn := [0x2100] } = .next t ∧ (t.dev 1).rxie = true) ∧
    ((stEmpty.dev 0).txie = false ∧
      ∃ t, move .fgCommand { stEmpty with cmdIn := [0x9041] } = .next t ∧ (t.dev 0).txie = true) ∧
    (∃ t, move .fgMicro (atArm (.send 0 1)) = .next t ∧ (t.dev 0).txie = true) ∧
    (∃ t, move .fgCommand (atArm (.sendb 0 [])) = .next t ∧ (t.dev 0).txie = true) :=
  ⟨⟨rfl, _, rfl, rfl⟩, ⟨rfl, _, rfl, rfl⟩, ⟨_, rfl, rfl⟩, ⟨_, rfl, rfl⟩⟩

end Sys2Proof.Tests
end

section
/-! The state after reset (spec/10_state.md R44) meets the invariant in every configuration within the bounds of R5. -/

namespace Sys2Proof.Machine

/-- The state after reset has the parameters it was made for (R45). -/
@[simp] theorem State.config_atReset (c : Config) : (State.atReset c).config = c := by
  have entries : c.devs.map ((fun D => ⟨D.rx.k, D.tx.k⟩) ∘ Device.atReset) = c.devs := List.map_id c.devs
  simp [State.config, State.atReset, entries]

/-- A RingBuffer after reset is within its widths and lists no cell (R21, R22). -/
theorem RingBuffer.shape_atReset (k : Nat) : (RingBuffer.atReset k).Shape :=
  have index_lt : 0 < (RingBuffer.atReset k).cap := RingBuffer.cap_pos _
  ⟨⟨List.Pairwise.nil, List.forall_mem_nil _⟩, List.forall_mem_nil _, index_lt, index_lt, Nat.two_pow_pos _⟩

/-- A device after reset is good: `INIT` has not run, so R23 is not asked of its buffers yet. -/
theorem Device.ok_atReset (e : DevConfig) : (Device.atReset e).Ok :=
  have not_initialised : (Device.atReset e).initialised ≠ true := Bool.false_ne_true
  ⟨⟨RingBuffer.shape_atReset _, RingBuffer.shape_atReset _⟩, fun h => absurd h not_initialised⟩

/-- No device is initialised after reset (U1), the absent ones among them. -/
theorem State.initialised_atReset (c : Config) (d : Dev) : ((State.atReset c).dev d).initialised = false := by
  by_cases h : d.val < (State.atReset c).ndev
  · obtain ⟨e, -, he⟩ := List.mem_map.1 (State.dev_mem _ d h)
    rw [← he]; rfl
  · exact Bool.eq_false_iff.2 fun hi => h (State.lt_of_initialised _ d hi)

/-- The state after reset meets the invariant: the sequencer is idle, `cs_stack` is empty, no device is initialised. -/
theorem State.inv_atReset (c : Config) (hc : c.wf) : (State.atReset c).Inv := by
  have devices : ∀ D ∈ (State.atReset c).devs, D.Ok := List.forall_mem_map.2 fun e _ => Device.ok_atReset e
  have stack : (State.atReset c).csSize ≤ (State.atReset c).csDepth := Nat.zero_le _
  have sequencer : (State.atReset c).FgOk := fun not_idle => absurd rfl not_idle
  have drain : (State.atReset c).DrainOk := fun d hi => by simp [State.initialised_atReset] at hi
  exact ⟨by rwa [State.config_atReset], devices, stack, sequencer, drain⟩

/-- Settles O47: `State.reset` is the state after reset of configuration `T`, which is within the bounds of R5. -/
theorem invariantHoldsAfterReset : Obligations.InvariantHoldsAfterReset :=
  ⟨State.inv_atReset Config.T (by decide), State.inv_atReset⟩

end Sys2Proof.Machine
end

section
/-! What the agents' writes of one device leave of the state (spec/10_state.md R20). -/

namespace Sys2Proof.Machine

/-- What holds between the device written and what is written, and between every device and itself, holds of every
device before and after the write. -/
theorem State.dev_setDev_rel {R : Dev → Device → Device → Prop} (hrefl : ∀ e D, R e D D) {s : State} {d : Dev}
    {D : Device} (h : R d (s.dev d) D) (e : Dev) : R e (s.dev e) ((s.setDev d D).dev e) := by
  by_cases hd : d.val < s.ndev
  · by_cases he : e = d
    · subst he; rwa [s.dev_setDev_self e D hd]
    · rw [s.dev_setDev_other d e D he]; exact hrefl e _
  · rw [s.setDev_absent d D hd]; exact hrefl e _

/-- A handler step finds the gate open and opens it again on return, so all it leaves is its device (R157, R158). -/
theorem State.setDev_ie_true {s : State} (h : s.ie = true) (d : Dev) (D : Device) :
    ({ s.setDev d D with ie := true } : State) = s.setDev d D := by
  cases s; cases h; rfl

/-- What is read for a device the block does not have. -/
theorem State.dev_of_absent {s : State} {d : Dev} (h : ¬ d.val < s.ndev) : s.dev d = Device.absent :=
  List.getD_eq_default _ _ (Nat.le_of_not_lt h)

/-- The reset event keeps the number of devices. -/
@[simp] theorem resetEvent_ndev (s : State) : (resetEvent s).ndev = s.ndev := List.length_mapIdx

end Sys2Proof.Machine
end

section
/-! A whole command is its micro-steps (spec/42_channel_commands.md R121, spec/30_encoding.md R82), so that what every
micro-step of FG keeps, a whole command keeps. -/

namespace Sys2Proof.Machine

/-- At `fg.phase = IDLE` no micro-step is left. -/
theorem fgRun_of_idle (n : Nat) {s : State} (h : s.fg.phase = .idle) : fgRun n s = .next s := by
  cases n with
  | zero => rfl
  | succ n => simp [fgRun, h]

/-- While a command is in progress, the next micro-step comes first. -/
theorem fgRun_succ_of_busy (n : Nat) {s : State} (h : s.fg.phase ≠ .idle) :
    fgRun (n + 1) s = andThen (fgMicro s) (fgRun n) := by simp [fgRun, h]

/-- `GIE`, `CSENTER`, `CSEXIT`, `IRQEN` leave the sequencer registers alone (R35). -/
theorem exec_unwrapped_fg {i : Instr} {s t : State} (hw : i.wrapped = false) (h : exec i s = .next t) : t.fg = s.fg := by
  cases i <;> simp [Instr.wrapped] at hw
  case irqen d => obtain ⟨-, ⟨-, rfl⟩ | ⟨-, rfl⟩⟩ := irqen_next h <;> rfl
  case gie v => obtain ⟨-, rfl⟩ := gie_next h; rfl
  case csenter => obtain ⟨-, ⟨-, rfl⟩ | ⟨-, rfl⟩⟩ := csenter_next h <;> rfl
  case csexit => obtain ⟨-, ⟨-, rfl⟩ | ⟨_, _, -, rfl⟩⟩ := csexit_next h <;> rfl

/-- A command that arms arms the device it names (R121). -/
theorem Instr.dev?_of_arms {i : Instr} {d : Dev} (h : i.arms = some d) : i.dev? = some d := by
  cases i <;> simp_all [Instr.arms, Instr.dev?]

/-- F4 comes next where the command has one. -/
theorem fgAfterExit_of_arms {s : State} {d : Dev} (h : Command.arms s.fg.cmd = some d) :
    fgAfterExit s = .next (armStep d s) := by simp [fgAfterExit, h]

/-- F5 comes next where the command has no F4. -/
theorem fgAfterExit_of_not_arms {s : State} (h : Command.arms s.fg.cmd = none) :
    fgAfterExit s = .next (respondStep s) := by simp [fgAfterExit, h]

/-- The micro-steps F3, F4 (where the command has one) and F5 after the body of a command taken in `s` (R121). -/
theorem fgRun_afterBody {i : Instr} {s : State} {d : Dev} (D : Device) (r : Response) (hi : i.dev? = some d)
    (hd : d.val < s.ndev) :
    fgRun 3 ((enterStep (acceptStep i s)).afterBody d D r) = .next ((s.setDev d (armEffect i D)).answered i r) := by
  have exit : fgRun 3 ((enterStep (acceptStep i s)).afterBody d D r) =
      andThen (fgAfterExit (exitStep ((enterStep (acceptStep i s)).afterBody d D r))) (fgRun 1) := rfl
  have cmd : Command.arms (exitStep ((enterStep (acceptStep i s)).afterBody d D r)).fg.cmd = i.arms := rfl
  rw [exit]
  cases ha : i.arms with
  | none =>
    have kept : armEffect i D = D := by simp [armEffect, ha]
    rw [fgAfterExit_of_not_arms (cmd.trans ha), kept]; rfl
  | some e =>
    obtain rfl : e = d := Option.some.inj ((Instr.dev?_of_arms ha).symm.trans hi)
    have armed : armEffect i D = { D with txie := true } := by simp [armEffect, ha]
    have read : (exitStep ((enterStep (acceptStep i s)).afterBody e D r)).dev e = D := s.dev_setDev_self e D hd
    rw [fgAfterExit_of_arms (cmd.trans ha), armStep, read, armed, ← State.setDev_setDev_self s e D]; rfl

/-- A wrapped command taken on a device of the block: F0, then the micro-steps to the end (R121). -/
theorem fgRun_acceptStep {i : Instr} {s : State} {d : Dev} (hw : i.wrapped = true) (hi : i.dev? = some d)
    (hp : s.fg.phase = .idle) (hd : d.val < s.ndev) : fgRun 5 (acceptStep i s) = exec i s := by
  have enter : fgRun 5 (acceptStep i s) = andThen (fgMicro (enterStep (acceptStep i s))) (fgRun 3) := rfl
  have read : (enterStep (acceptStep i s)).dev d = s.dev d := rfl
  have body := bodyOf_eq i d (enterStep (acceptStep i s)) hw hi hd
  rw [enter, exec_wrapped_eq i d s hw hi hp hd]
  rw [read] at body
  cases hE : bodyEffect i (s.dev d) with
  | none =>
    rw [hE] at body
    have stop : fgMicro (enterStep (acceptStep i s)) = .fault (.uninitialised d) := by
      change andThen (bodyOf i (enterStep (acceptStep i s))) _ = _
      rw [body]; rfl
    rw [stop]; rfl
  | some p =>
    have step : fgMicro (enterStep (acceptStep i s)) = .next ((enterStep (acceptStep i s)).afterBody d p.1 p.2) :=
      fgMicro_body_eq rfl rfl hw hi hd hE
    rw [step]
    exact fgRun_afterBody p.1 p.2 hi hd

/-- A legal command on the port names a device of the block, if it names one; taking it leaves all but the port alone. -/
theorem nextCommand_legal {s u : State} {i : Instr} (h : nextCommand s = some (.legal i, u)) :
    i.devExists s.ndev = true ∧ ∃ rest, u = { s with cmdIn := rest } := by
  obtain ⟨w, p, rest, -, hc, rfl⟩ := nextCommand_some h
  exact ⟨decodeCommand_legal hc.symm, rest, rfl⟩

/-- From `fg.phase = IDLE`, a whole command is F0 and then micro-steps until `IDLE` again (R82, R121). -/
theorem fgCommand_of_idle {s : State} (h : s.fg.phase = .idle) : fgCommand s = andThen (fgMicro s) (fgRun 5) := by
  have whole : fgCommand s = fgWhole s := by simp [fgCommand, h]
  have accept : fgMicro s = fgAccept s := by simp [fgMicro, h]
  rw [whole, accept, fgWhole, fgAccept]
  match hn : nextCommand s with
  | none => rfl
  | some (.illegal, u) =>
    obtain ⟨_, _, rest, -, -, rfl⟩ := nextCommand_some hn
    exact (fgRun_of_idle 5 (s := ({ s with cmdIn := rest } : State).respond ⟨.err, 0⟩) h).symm
  | some (.legal i, u) =>
    obtain ⟨hex, rest, rfl⟩ := nextCommand_legal hn
    cases hw : i.wrapped with
    | true =>
      obtain ⟨d, hd⟩ := wrapped_dev hw
      have present : d.val < s.ndev := by simpa [Instr.devExists, hd] using hex
      simp [hw, fgRun_acceptStep (s := { s with cmdIn := rest }) hw hd h present]
    | false =>
      cases he : exec i { s with cmdIn := rest } with
      | next t => simp [hw, he, fgRun_of_idle 5 ((congrArg Fg.phase (exec_unwrapped_fg hw he)).trans h)]
      | fault r => simp [hw, he]
      | refused r => simp [hw, he]

/-- A whole command, or all that is left of one, is micro-steps in a row: what holds of a state and itself and of every
micro-step, and chains, holds of it. -/
theorem fgCommand_chain {P : State → State → Prop} (hrefl : ∀ s, P s s)
    (htrans : ∀ {s t u}, P s t → P t u → P s u) (hmicro : ∀ {s t}, fgMicro s = .next t → P s t) {s t : State}
    (h : fgCommand s = .next t) : P s t := by
  by_cases hp : s.fg.phase = .idle
  · rw [fgCommand_of_idle hp] at h
    obtain ⟨u, hu, ht⟩ := andThen_next h
    exact htrans (hmicro hu) (fgRun_chain hrefl htrans hmicro 5 ht)
  · rw [fgCommand, if_neg hp] at h
    exact fgRun_chain hrefl htrans hmicro 5 h

end Sys2Proof.Machine
end

section
/-! What the primitives keep of a RingBuffer: R23 (spec/40_ringbuffer.md R98), and the widths of R21, R22. -/

namespace Sys2Proof.Machine

/-- The capacity is the constant `2^K`, so a primitive that keeps `k` keeps it (R90). -/
theorem RingBuffer.cap_congr {B E : RingBuffer} (h : E.k = B.k) : E.cap = B.cap := congrArg (2 ^ ·) h

/-- R23 of a buffer that `rb_init` has made. -/
theorem RingBuffer.ok_init (B : RingBuffer) : B.init.Ok := ⟨Nat.zero_le _, ⟨B.cap_pos, B.cap_pos⟩, rfl⟩

/-- `rb_enqueue` keeps R23: `head` and `count` go up together. -/
theorem RingBuffer.ok_enqueue {B : RingBuffer} (h : B.Ok) (b : Byte) : (B.enqueue b).1.Ok := by
  rcases B.enqueue_cases b with ⟨-, he⟩ | ⟨hfree, he⟩ <;> rw [he]
  · exact h
  · obtain ⟨hcount, ⟨-, htail⟩, hlive⟩ := h
    have live : ((((B.head + 1) % B.cap : Nat) : Int) - B.tail) ≡ ((B.count + 1 : Nat) : Int) [ZMOD B.cap] := by
      push_cast
      calc ((B.head + 1 : Int) % B.cap - B.tail)
          ≡ (B.head + 1 : Int) - B.tail [ZMOD B.cap] := (Int.mod_modEq _ _).sub_right _
        _ = (B.head - B.tail : Int) + 1 := by ring
        _ ≡ B.count + 1 [ZMOD B.cap] := Int.ModEq.add_right 1 hlive
    exact ⟨Nat.lt_of_le_of_ne hcount hfree, ⟨Nat.mod_lt _ B.cap_pos, htail⟩, live⟩

/-- `rb_dequeue` keeps R23: `tail` goes up as `count` goes down. -/
theorem RingBuffer.ok_dequeue {B : RingBuffer} (h : B.Ok) : B.dequeue.1.Ok := by
  rcases B.dequeue_cases with ⟨-, he⟩ | ⟨hlive, he⟩ <;> rw [he]
  · exact h
  · obtain ⟨hcount, ⟨hhead, -⟩, hmod⟩ := h
    have live : ((B.head : Int) - ((B.tail + 1) % B.cap : Nat)) ≡ ((B.count - 1 : Nat) : Int) [ZMOD B.cap] := by
      rw [Nat.cast_pred (Nat.pos_of_ne_zero hlive)]
      push_cast
      calc ((B.head : Int) - (B.tail + 1 : Int) % B.cap)
          ≡ B.head - (B.tail + 1) [ZMOD B.cap] := (Int.mod_modEq _ _).sub_left _
        _ = (B.head - B.tail : Int) - 1 := by ring
        _ ≡ B.count - 1 [ZMOD B.cap] := Int.ModEq.sub_right 1 hmod
    exact ⟨(Nat.sub_le _ _).trans hcount, ⟨hhead, Nat.mod_lt _ B.cap_pos⟩, live⟩

/-- A batch keeps what every single enqueue keeps. -/
theorem RingBuffer.enqueueBatch_keeps {P : RingBuffer → Prop} (henqueue : ∀ B b, P B → P (B.enqueue b).1) :
    ∀ (bs : List Byte) (B : RingBuffer), P B → P (B.enqueueBatch bs).1
  | [], _, h => h
  | b :: bs, B, h => by
    by_cases hfull : B.count = B.cap
    · rwa [B.enqueueBatch_full _ hfull]
    · rw [B.enqueueBatch_cons b bs hfull]
      exact RingBuffer.enqueueBatch_keeps henqueue bs _ (henqueue B b h)

/-- A buffer with R23 has its registers within their widths, once storage is (R21, R22). -/
theorem RingBuffer.shape_of_ok {B : RingBuffer} (hwf : B.storage.wf) (hcells : ∀ x ∈ B.storage, x.1 < B.cap)
    (h : B.Ok) : B.Shape := by
  obtain ⟨hcount, ⟨hhead, htail⟩, -⟩ := h
  exact ⟨hwf, hcells, hhead, htail, lt_of_le_of_lt hcount (Nat.pow_lt_pow_succ Nat.one_lt_two)⟩

/-- What `rb_init` leaves is within its widths: storage is as before. -/
theorem RingBuffer.shape_init {B : RingBuffer} (h : B.Shape) : B.init.Shape := by
  obtain ⟨hwf, hcells, -⟩ := h
  exact RingBuffer.shape_of_ok hwf hcells B.ok_init

/-- A buffer in use: within its widths, with R23. -/
def RingBuffer.Good (B : RingBuffer) : Prop := B.Shape ∧ B.Ok

/-- `rb_enqueue` keeps a buffer good: it writes the cell at `head`, which is inside. -/
theorem RingBuffer.good_enqueue (B : RingBuffer) (b : Byte) (h : B.Good) : (B.enqueue b).1.Good := by
  obtain ⟨⟨hwf, hcells, hhead, -⟩, hok⟩ := h
  have cells : ∀ x ∈ (B.enqueue b).1.storage, x.1 < (B.enqueue b).1.cap := by
    rw [RingBuffer.cap_congr (B.enqueue_k b)]
    rcases B.enqueue_cases b with ⟨-, he⟩ | ⟨-, he⟩ <;> rw [he]
    · exact hcells
    · exact Memory.write_bound _ _ _ _ hcells hhead
  exact ⟨RingBuffer.shape_of_ok (B.enqueue_wf b hwf) cells (RingBuffer.ok_enqueue hok b), RingBuffer.ok_enqueue hok b⟩

/-- `rb_enqueue_batch` keeps a buffer good. -/
theorem RingBuffer.good_enqueueBatch (B : RingBuffer) (bs : List Byte) (h : B.Good) : (B.enqueueBatch bs).1.Good :=
  RingBuffer.enqueueBatch_keeps RingBuffer.good_enqueue bs B h

/-- `rb_dequeue` keeps a buffer good: storage is as before. -/
theorem RingBuffer.good_dequeue (B : RingBuffer) (h : B.Good) : B.dequeue.1.Good := by
  obtain ⟨⟨hwf, hcells, -⟩, hok⟩ := h
  have cells : ∀ x ∈ B.dequeue.1.storage, x.1 < B.dequeue.1.cap := by
    rwa [B.dequeue_storage, RingBuffer.cap_congr B.dequeue_k]
  exact ⟨RingBuffer.shape_of_ok (B.dequeue_storage ▸ hwf) cells (RingBuffer.ok_dequeue hok), RingBuffer.ok_dequeue hok⟩

/-- After a reset event every register is cut to its width and storage is free inside `[0, C)` (R44). -/
theorem RingBuffer.shape_afterReset (n d : Nat) (q : Dir) (B : RingBuffer) : (B.afterReset n d q).Shape := by
  obtain ⟨hwf, hcells⟩ := freeStorage_shape n d q B.k
  exact ⟨hwf, hcells, Nat.mod_lt _ B.cap_pos, Nat.mod_lt _ B.cap_pos, Nat.mod_lt _ (Nat.two_pow_pos _)⟩

end Sys2Proof.Machine
end

section
/-! The parameters of R5 are constants of the block (spec/10_state.md R45): no move of any agent changes one. -/

namespace Sys2Proof.Machine

/-! ## Writing one device -/

/-- The capacities of a device, which no operation writes (R90). -/
def Device.capacities (D : Device) : DevConfig := ⟨D.rx.k, D.tx.k⟩

/-- `config` reads nothing but `CSDEPTH` and the capacities of the devices. -/
theorem State.config_congr {s t : State} (hdepth : t.csDepth = s.csDepth) (hdevs : t.devs = s.devs) :
    t.config = s.config := by simp [State.config, hdepth, hdevs]

/-- Writing a device that keeps its capacities changes no parameter. -/
theorem State.config_setDev {s : State} {d : Dev} {D : Device} (h : D.capacities = (s.dev d).capacities) :
    (s.setDev d D).config = s.config := by
  by_cases hd : d.val < s.ndev
  · have same : (s.setDev d D).config = (s.setDev d (s.dev d)).config := by
      have entry : (⟨D.rx.k, D.tx.k⟩ : DevConfig) = ⟨(s.dev d).rx.k, (s.dev d).tx.k⟩ := h
      simp only [State.config, State.setDev_devs, State.setDev_csDepth, List.map_set, entry]
    rw [same, s.setDev_dev d hd]
  · rw [s.setDev_absent d D hd]

/-! ## FG -/

/-- A command that is one step keeps `CSDEPTH`, and pushes onto `cs_stack` only below it (R30, R114, R115). -/
theorem exec_unwrapped_stack {i : Instr} {s t : State} (hw : i.wrapped = false) (h : exec i s = .next t) :
    t.csDepth = s.csDepth ∧ (s.csSize ≤ s.csDepth → t.csSize ≤ s.csDepth) := by
  cases i <;> simp [Instr.wrapped] at hw
  case irqen d => obtain ⟨-, ⟨-, rfl⟩ | ⟨-, rfl⟩⟩ := irqen_next h <;> exact ⟨rfl, id⟩
  case gie v => obtain ⟨-, rfl⟩ := gie_next h; exact ⟨rfl, id⟩
  case csenter =>
    obtain ⟨-, ⟨-, rfl⟩ | ⟨hfree, rfl⟩⟩ := csenter_next h
    · exact ⟨rfl, id⟩
    · exact ⟨rfl, fun hle => Nat.lt_of_le_of_ne hle hfree⟩
  case csexit =>
    obtain ⟨-, ⟨-, rfl⟩ | ⟨v, rest, hstack, rfl⟩⟩ := csexit_next h
    · exact ⟨rfl, id⟩
    · have popped : s.csSize = rest.length + 1 := congrArg List.length hstack
      exact ⟨rfl, fun hle => show rest.length ≤ s.csDepth by omega⟩

/-- A micro-step of FG keeps `CSDEPTH` and the bound on `cs_depth` (R30). -/
theorem fgMicro_stack {s t : State} (h : fgMicro s = .next t) :
    t.csDepth = s.csDepth ∧ (s.csSize ≤ s.csDepth → t.csSize ≤ s.csDepth) := by
  rcases fgMicro_next h with ⟨-, u, hn, rfl⟩ | ⟨-, i, u, hn, -, rfl⟩ | ⟨-, i, u, hn, hw, he⟩ | ⟨-, rfl⟩ |
    ⟨-, i, -, v, hv, rfl⟩ | ⟨-, rfl⟩ | ⟨-, d, -, rfl⟩ | ⟨-, -, rfl⟩ | ⟨-, rfl⟩
  · obtain ⟨_, _, _, -, -, rfl⟩ := nextCommand_some hn; exact ⟨rfl, id⟩
  · obtain ⟨_, rfl⟩ := (nextCommand_legal hn).2; exact ⟨rfl, id⟩
  · obtain ⟨rest, rfl⟩ := (nextCommand_legal hn).2
    exact exec_unwrapped_stack (s := { s with cmdIn := rest }) hw he
  · exact ⟨rfl, id⟩
  · obtain ⟨-, d, -, D, r, -, rfl⟩ := bodyOf_next hv; exact ⟨rfl, id⟩
  · exact ⟨rfl, id⟩
  · exact ⟨rfl, id⟩
  · exact ⟨rfl, id⟩
  · exact ⟨rfl, id⟩

/-- F2 keeps the capacities (R90). -/
theorem bodyEffect_capacities {i : Instr} {D E : Device} {r : Response} (h : bodyEffect i D = some (E, r)) :
    E.capacities = D.capacities := by
  obtain ⟨-, hrx, htx, -⟩ := bodyEffect_frame h
  simp only [Device.capacities, hrx, htx]

/-- A micro-step of FG keeps the parameters. -/
theorem fgMicro_config {s t : State} (h : fgMicro s = .next t) : t.config = s.config := by
  have depth := (fgMicro_stack h).1
  rcases fgMicro_devs h with hdevs | ⟨d, -, hdevs⟩ | ⟨i, d, D, r, -, -, -, -, hE, hdevs⟩ | ⟨d, -, -, hdevs⟩
  · exact State.config_congr depth hdevs
  · exact (State.config_congr (s := s.setDev d _) depth hdevs).trans (State.config_setDev rfl)
  · exact (State.config_congr (s := s.setDev d _) depth hdevs).trans (State.config_setDev (bodyEffect_capacities hE))
  · exact (State.config_congr (s := s.setDev d _) depth hdevs).trans (State.config_setDev rfl)

/-- A whole command keeps the parameters. -/
theorem fgCommand_config {s t : State} (h : fgCommand s = .next t) : t.config = s.config :=
  fgCommand_chain (P := fun s t => t.config = s.config) (fun _ => rfl) (fun hst htu => htu.trans hst) fgMicro_config h

/-! ## The other agents -/

/-- A step of `HRX(d)` keeps the parameters. -/
theorem hrxStep_config {d : Dev} {s t : State} (h : hrxStep d s = .next t) : t.config = s.config := by
  obtain ⟨-, -, D, rfl, ⟨-, rfl⟩ | ⟨-, rfl⟩⟩ := hrxStep_effect h
  · exact State.config_setDev (by simp [Device.capacities])
  · exact State.config_setDev rfl

/-- A step of `HTX(d)` keeps the parameters. -/
theorem htxStep_config {d : Dev} {s t : State} (h : htxStep d s = .next t) : t.config = s.config := by
  obtain ⟨-, -, D, rfl, ⟨-, rfl⟩ | ⟨-, rfl⟩⟩ := htxStep_effect h
  · exact State.config_setDev (by simp [Device.capacities])
  · exact State.config_setDev rfl

/-- The reset event keeps the parameters: they are no registers (R44, R45). -/
theorem resetEvent_config (s : State) : (resetEvent s).config = s.config := by
  have capacities : (resetEvent s).devs.map Device.capacities = s.devs.map Device.capacities := by
    apply List.ext_getElem
    · simp [resetEvent]
    · intro d _ _
      simp [resetEvent, Device.afterReset, RingBuffer.afterReset, Device.capacities]
  exact congrArg (Config.mk · s.csDepth) capacities

/-- No move of any agent changes a parameter. -/
theorem move_config {m : Move} {s t : State} (h : move m s = .next t) : t.config = s.config := by
  cases m with
  | fgMicro => exact fgMicro_config h
  | fgCommand => exact fgCommand_config h
  | hrx d => exact hrxStep_config h
  | htx d => exact htxStep_config h
  | envRx d b => obtain ⟨-, -, rfl⟩ := envRxStep_next h; exact State.config_setDev rfl
  | envTxReady d => obtain ⟨-, -, rfl⟩ := envTxReadyStep_next h; exact State.config_setDev rfl
  | reset => cases h; exact resetEvent_config s

/-- Settles O50: every move of every agent keeps the parameters of R5. -/
theorem configurationNeverChanges : Obligations.ConfigurationNeverChanges := fun _ _ _ h => move_config h

end Sys2Proof.Machine
end

section
/-! Every step keeps the invariant of the block, part by part: the devices (spec/10_state.md R21, R22, R23), the registers
of the sequencer (spec/42_channel_commands.md R121), and the bytes that wait in a send buffer (R133, R142). -/

namespace Sys2Proof.Machine

/-! ## Devices -/

/-- A device with two good buffers is good. -/
theorem Device.ok_of_good {D : Device} (hrx : D.rx.Good) (htx : D.tx.Good) : D.Ok := by
  obtain ⟨⟨rxShape, rxOk⟩, txShape, txOk⟩ := And.intro hrx htx
  exact ⟨⟨rxShape, txShape⟩, fun _ => ⟨rxOk, txOk⟩⟩

/-- The buffers of an initialised device are good. -/
theorem Device.good_of_ok {D : Device} (h : D.Ok) (hi : D.initialised = true) : D.rx.Good ∧ D.tx.Good := by
  obtain ⟨⟨rxShape, txShape⟩, hok⟩ := h
  obtain ⟨rxOk, txOk⟩ := hok hi
  exact ⟨⟨rxShape, rxOk⟩, txShape, txOk⟩

/-- F2 keeps a device good. -/
theorem Device.ok_bodyEffect {i : Instr} {D E : Device} {r : Response} (hE : bodyEffect i D = some (E, r)) (h : D.Ok) :
    E.Ok := by
  cases i <;> simp [bodyEffect] at hE
  case init d =>
    obtain ⟨rfl, -⟩ := hE
    obtain ⟨⟨rxShape, txShape⟩, -⟩ := h
    exact ⟨⟨RingBuffer.shape_init rxShape, RingBuffer.shape_init txShape⟩,
      fun _ => ⟨D.rx.ok_init, D.tx.ok_init⟩⟩
  case rxsize d => obtain ⟨-, rfl, -⟩ := hE; exact h
  case rxpeek d x => obtain ⟨-, rfl, -⟩ := hE; exact h
  case rxdrops d => obtain ⟨rfl, -⟩ := hE; exact h
  case rxdeq d =>
    obtain ⟨hi, rfl, -⟩ := hE
    obtain ⟨rx, tx⟩ := Device.good_of_ok h hi
    exact Device.ok_of_good (RingBuffer.good_dequeue _ rx) tx
  case send d b =>
    obtain ⟨hi, rfl, -⟩ := hE
    obtain ⟨rx, tx⟩ := Device.good_of_ok h hi
    exact Device.ok_of_good rx (RingBuffer.good_enqueue _ b tx)
  case sendb d bytes =>
    obtain ⟨hi, rfl, -⟩ := hE
    obtain ⟨rx, tx⟩ := Device.good_of_ok h hi
    exact Device.ok_of_good rx (RingBuffer.good_enqueueBatch _ bytes tx)

/-- A device after a reset event is good: `INIT` has to run before R23 is asked of it. -/
theorem Device.ok_afterReset (n d : Nat) (D : Device) : (D.afterReset n d).Ok :=
  have not_initialised : (D.afterReset n d).initialised ≠ true := Bool.false_ne_true
  ⟨⟨RingBuffer.shape_afterReset _ _ _ _, RingBuffer.shape_afterReset _ _ _ _⟩, fun h => absurd h not_initialised⟩

/-- Every device that can be read is good, the absent ones among them. -/
theorem State.dev_ok {s : State} (h : ∀ D ∈ s.devs, D.Ok) (d : Dev) : (s.dev d).Ok := by
  by_cases hd : d.val < s.ndev
  · exact h _ (s.dev_mem d hd)
  · exact State.dev_of_absent hd ▸ Device.ok_atReset _

/-- Writing a good device keeps all devices good. -/
theorem State.devs_ok_setDev {s : State} (h : ∀ D ∈ s.devs, D.Ok) {d : Dev} {D : Device} (hD : D.Ok) :
    ∀ E ∈ (s.setDev d D).devs, E.Ok := by
  intro E hE
  rcases List.mem_or_eq_of_mem_set hE with hE | rfl
  · exact h E hE
  · exact hD

/-- A micro-step of FG keeps all devices good. -/
theorem fgMicro_devs_ok {s t : State} (hstep : fgMicro s = .next t) (h : ∀ D ∈ s.devs, D.Ok) : ∀ D ∈ t.devs, D.Ok := by
  rcases fgMicro_devs hstep with hdevs | ⟨d, -, hdevs⟩ | ⟨i, d, D, r, -, -, -, -, hE, hdevs⟩ | ⟨d, -, -, hdevs⟩ <;>
    rw [hdevs]
  · exact h
  · exact State.devs_ok_setDev h (State.dev_ok h d)
  · exact State.devs_ok_setDev h (Device.ok_bodyEffect hE (State.dev_ok h d))
  · exact State.devs_ok_setDev h (State.dev_ok h d)

/-! ## The registers of the sequencer -/

/-- The payload taken with a header has at most 255 words: the count field has 8 bits (R73, R76). -/
theorem takeCommand_payload_length {ws p rest : List Word} {w : Word} (h : takeCommand ws = some (w, p, rest)) :
    p.length ≤ 255 := by
  cases ws with
  | nil => cases h
  | cons v ws =>
    have count : payloadCount v ≤ 255 := by
      have byte : (operandField v).toNat < 2 ^ 8 := (operandField v).isLt
      unfold payloadCount
      split <;> omega
    simp only [takeCommand] at h
    split at h <;> cases h
    exact (List.length_take_le _ _).trans count

/-- A row of the table builds a command with no payload but the one it is given (R72, R76). -/
theorem opRows_payload_length : ∀ r ∈ opRows, ∀ (d : Dev) (x : Byte) (bytes : List Byte),
    (r.build d x bytes).payload.length ≤ bytes.length := by
  simp [opRows, Instr.payload]

/-- Decode adds no byte to a payload (R76, R78). -/
theorem decodeCommand_payload_length {ndev : Nat} {w : Word} {p : List Word} {i : Instr}
    (h : decodeCommand ndev w p = .legal i) : i.payload.length ≤ p.length := by
  unfold decodeCommand decodeHeader at h
  cases hr : opRows.find? (·.selects w) with
  | none => simp [hr] at h
  | some r =>
    simp only [hr] at h
    split at h <;> cases h
    simpa [payloadBytes] using
      opRows_payload_length r (List.mem_of_find?_eq_some hr) (devField w) (operandField w) (payloadBytes p)

/-- A legal command on the port is a command of this block (R78). -/
theorem nextCommand_wf {s u : State} {i : Instr} (h : nextCommand s = some (.legal i, u)) : i.wf s.ndev = true := by
  obtain ⟨w, p, rest, ht, hc, -⟩ := nextCommand_some h
  have payload : i.payload.length ≤ 255 :=
    (decodeCommand_payload_length hc.symm).trans (takeCommand_payload_length ht)
  simp [Instr.wf, Instr.payloadFits, payload, decodeCommand_legal hc.symm]

/-- A micro-step of FG leaves the registers of the sequencer fit for the phase it comes to (R121). -/
theorem fgMicro_fgOk {s t : State} (hstep : fgMicro s = .next t) (h : s.FgOk) : t.FgOk := by
  rcases fgMicro_next hstep with ⟨hp, u, hn, rfl⟩ | ⟨hp, i, u, hn, hw, rfl⟩ | ⟨hp, i, u, hn, hw, he⟩ | ⟨hp, rfl⟩ |
    ⟨hp, i, -, v, hv, rfl⟩ | ⟨hp, rfl⟩ | ⟨hp, d, ha, rfl⟩ | ⟨hp, -, rfl⟩ | ⟨hp, rfl⟩
  · obtain ⟨_, _, _, -, -, rfl⟩ := nextCommand_some hn
    exact fun busy => absurd hp busy
  · obtain ⟨-, rest, rfl⟩ := nextCommand_legal hn
    have accepted : Command.inProgressOk s.ndev (.legal i) = true := by
      simp [Command.inProgressOk, hw, nextCommand_wf hn]
    exact fun _ => ⟨accepted, fun gate => by simp at gate, fun armed => by simp at armed⟩
  · obtain ⟨-, rest, rfl⟩ := nextCommand_legal hn
    have idle : t.fg.phase = .idle := (congrArg Fg.phase (exec_unwrapped_fg hw he)).trans hp
    exact fun busy => absurd idle busy
  · obtain ⟨hcmd, -⟩ := h (by simp [hp])
    exact fun _ => ⟨hcmd, fun _ => rfl, fun armed => by simp [enterStep] at armed⟩
  · obtain ⟨hcmd, gate, -⟩ := h (by simp [hp])
    obtain ⟨-, d, -, D, r, -, rfl⟩ := bodyOf_next hv
    exact fun _ => ⟨by simpa using hcmd, fun _ => gate (.inl hp), fun armed => by simp at armed⟩
  · obtain ⟨hcmd, -⟩ := h (by simp [hp])
    exact fun _ => ⟨hcmd, fun gate => by simp [exitStep] at gate, fun armed => by simp [exitStep] at armed⟩
  · obtain ⟨hcmd, -⟩ := h (by simp [hp])
    have arms : Command.arms s.fg.cmd ≠ none := by simp [ha]
    exact fun _ => ⟨by simpa [armStep] using hcmd, fun gate => by simp [armStep] at gate, fun _ => arms⟩
  · exact fun busy => absurd rfl busy
  · exact fun busy => absurd rfl busy

/-! ## Bytes that wait in a send buffer -/

/-- The send buffer of the device holds bytes and its source is disabled (R133, R142). -/
def Device.Stranded (D : Device) : Prop := D.initialised = true ∧ D.txie = false ∧ 0 < D.tx.count

/-- `DrainOk` asks that stranded bytes belong to a send command between F2 and F4. -/
theorem State.drainOk_iff (s : State) : s.DrainOk ↔ ∀ d : Dev, (s.dev d).Stranded →
    (s.fg.phase = .opDone ∨ s.fg.phase = .restored) ∧ Command.arms s.fg.cmd = some d :=
  forall_congr' fun _ => ⟨fun h ⟨hi, ht, hc⟩ => h hi ht hc, fun h hi ht hc => h ⟨hi, ht, hc⟩⟩

/-- Outside the steps from F2 to F4 nothing is stranded. -/
theorem State.not_stranded {s : State} (h : s.DrainOk) (hbody : s.fg.phase ≠ .opDone) (hexit : s.fg.phase ≠ .restored)
    (d : Dev) : ¬ (s.dev d).Stranded := fun hd => by
  obtain ⟨hp | hp, -⟩ := s.drainOk_iff.1 h d hd
  · exact hbody hp
  · exact hexit hp

/-- Writing a device strands bytes on no other. -/
theorem State.stranded_setDev {s : State} {d : Dev} {D : Device} (h : D.Stranded → (s.dev d).Stranded) (e : Dev) :
    ((s.setDev d D).dev e).Stranded → (s.dev e).Stranded :=
  State.dev_setDev_rel (R := fun _ D E => E.Stranded → D.Stranded) (fun _ _ => id) h e

/-- F2 of a command that does not arm strands no byte. -/
theorem bodyEffect_stranded {i : Instr} {D E : Device} {r : Response} (hE : bodyEffect i D = some (E, r))
    (ha : i.arms = none) (h : E.Stranded) : D.Stranded := by
  obtain ⟨hi, ht, hc⟩ := h
  cases i <;> simp [bodyEffect] at hE
  case init d => obtain ⟨rfl, -⟩ := hE; exact absurd hc (Nat.lt_irrefl 0)
  case rxsize d => obtain ⟨-, rfl, -⟩ := hE; exact ⟨hi, ht, hc⟩
  case rxpeek d x => obtain ⟨-, rfl, -⟩ := hE; exact ⟨hi, ht, hc⟩
  case rxdrops d => obtain ⟨rfl, -⟩ := hE; exact ⟨hi, ht, hc⟩
  case rxdeq d => obtain ⟨-, rfl, -⟩ := hE; exact ⟨hi, ht, hc⟩
  case send d b => cases ha
  case sendb d bytes => cases ha

/-- A command that is one step strands no byte: it touches no buffer. -/
theorem exec_unwrapped_stranded {i : Instr} {s t : State} (hw : i.wrapped = false) (h : exec i s = .next t) (e : Dev) :
    (t.dev e).Stranded → (s.dev e).Stranded := by
  cases i <;> simp [Instr.wrapped] at hw
  case irqen d =>
    obtain ⟨-, ⟨-, rfl⟩ | ⟨-, rfl⟩⟩ := irqen_next h
    · exact id
    · exact State.stranded_setDev (s := s) (D := { s.dev d with rxie := true }) id e
  case gie v => obtain ⟨-, rfl⟩ := gie_next h; exact id
  case csenter => obtain ⟨-, ⟨-, rfl⟩ | ⟨-, rfl⟩⟩ := csenter_next h <;> exact id
  case csexit => obtain ⟨-, ⟨-, rfl⟩ | ⟨_, _, -, rfl⟩⟩ := csexit_next h <;> exact id

/-- F2 strands bytes only on the device that F4 of its command arms. -/
theorem afterBody_drainOk {i : Instr} {s : State} {d : Dev} {D : Device} {r : Response} (hp : s.fg.phase = .cs)
    (hc : s.fg.cmd = .legal i) (hi : i.dev? = some d) (hE : bodyEffect i (s.dev d) = some (D, r)) (h : s.DrainOk) :
    (s.afterBody d D r).DrainOk := by
  have before := State.not_stranded h (by simp [hp]) (by simp [hp])
  refine (State.drainOk_iff _).2 fun e he => ⟨.inl rfl, ?_⟩
  have arms : Command.arms (s.afterBody d D r).fg.cmd = i.arms := congrArg Command.arms hc
  rw [arms]
  cases ha : i.arms with
  | none => exact absurd (State.stranded_setDev (bodyEffect_stranded hE ha) e he) (before e)
  | some a =>
    obtain rfl : a = d := Option.some.inj ((Instr.dev?_of_arms ha).symm.trans hi)
    by_contra hea
    rw [s.afterBody_dev, s.dev_setDev_other a e D fun h => hea (congrArg some h.symm)] at he
    exact before e he

/-- F4 arms the device that may have stranded bytes. -/
theorem armStep_drainOk {s : State} {d : Dev} (ha : Command.arms s.fg.cmd = some d) (h : s.DrainOk) :
    (armStep d s).DrainOk := by
  refine (State.drainOk_iff _).2 fun e he => ?_
  have armed : ∀ D : Device, ¬ ({ D with txie := true } : Device).Stranded := fun _ ⟨_, hdisabled, _⟩ => nomatch hdisabled
  have before : (s.dev e).Stranded := State.stranded_setDev (fun hd => absurd hd (armed _)) e he
  obtain ⟨-, he'⟩ := s.drainOk_iff.1 h e before
  obtain rfl : d = e := Option.some.inj (ha.symm.trans he')
  have read : (armStep d s).dev d = { s.dev d with txie := true } :=
    s.dev_setDev_self d _ (s.lt_of_initialised d before.1)
  exact absurd (read ▸ he) (armed _)

/-- A micro-step of FG strands a byte only inside a send command (R133). -/
theorem fgMicro_drainOk {s t : State} (hstep : fgMicro s = .next t) (h : s.DrainOk) : t.DrainOk := by
  rcases fgMicro_next hstep with ⟨hp, u, hn, rfl⟩ | ⟨hp, i, u, hn, -, rfl⟩ | ⟨hp, i, u, hn, hw, he⟩ | ⟨hp, rfl⟩ |
    ⟨hp, i, hc, v, hv, rfl⟩ | ⟨hp, rfl⟩ | ⟨hp, d, ha, rfl⟩ | ⟨hp, ha, rfl⟩ | ⟨hp, rfl⟩
  · obtain ⟨_, _, _, -, -, rfl⟩ := nextCommand_some hn
    exact h
  · obtain ⟨-, rest, rfl⟩ := nextCommand_legal hn
    exact (State.drainOk_iff _).2 fun e he => absurd he (State.not_stranded h (by simp [hp]) (by simp [hp]) e)
  · obtain ⟨-, rest, rfl⟩ := nextCommand_legal hn
    exact (State.drainOk_iff _).2 fun e hwaits =>
      absurd (exec_unwrapped_stranded hw he e hwaits) (State.not_stranded h (by simp [hp]) (by simp [hp]) e)
  · exact (State.drainOk_iff _).2 fun e he => absurd he (State.not_stranded h (by simp [hp]) (by simp [hp]) e)
  · obtain ⟨-, d, hi, D, r, hE, rfl⟩ := bodyOf_next hv
    exact afterBody_drainOk hp hc hi hE h
  · exact (State.drainOk_iff _).2 fun e he => ⟨.inr rfl, (s.drainOk_iff.1 h e he).2⟩
  · exact armStep_drainOk ha h
  · exact (State.drainOk_iff _).2 fun e he => nomatch ha.symm.trans (s.drainOk_iff.1 h e he).2
  · exact (State.drainOk_iff _).2 fun e he => absurd he (State.not_stranded h (by simp [hp]) (by simp [hp]) e)

/-! ## Every move -/

/-- A micro-step of FG keeps the invariant. -/
theorem fgMicro_inv {s t : State} (hstep : fgMicro s = .next t) (h : s.Inv) : t.Inv := by
  obtain ⟨hconfig, hdevs, hstack, hfg, hdrain⟩ := h
  obtain ⟨hdepth, bounded⟩ := fgMicro_stack hstep
  exact ⟨fgMicro_config hstep ▸ hconfig, fgMicro_devs_ok hstep hdevs, hdepth ▸ bounded hstack,
    fgMicro_fgOk hstep hfg, fgMicro_drainOk hstep hdrain⟩

/-- A whole command keeps the invariant. -/
theorem fgCommand_inv {s t : State} (hstep : fgCommand s = .next t) : s.Inv → t.Inv :=
  fgCommand_chain (P := fun s t => s.Inv → t.Inv) (fun _ => id) (fun hst htu h => htu (hst h)) fgMicro_inv hstep

/-- An agent that writes one device keeps the invariant when the device stays good and strands no byte. -/
theorem State.inv_setDev {s : State} {d : Dev} {D : Device} (h : s.Inv) (hcap : D.capacities = (s.dev d).capacities)
    (hok : (s.dev d).Ok → D.Ok) (hstranded : D.Stranded → (s.dev d).Stranded) : (s.setDev d D).Inv := by
  obtain ⟨hconfig, hdevs, hstack, hfg, hdrain⟩ := h
  have sequencer : (s.setDev d D).FgOk := by
    unfold State.FgOk
    rwa [State.ndev_setDev]
  exact ⟨State.config_setDev hcap ▸ hconfig, State.devs_ok_setDev hdevs (hok (State.dev_ok hdevs d)), hstack, sequencer,
    (State.drainOk_iff _).2 fun e he => s.drainOk_iff.1 hdrain e (State.stranded_setDev hstranded e he)⟩

/-- A step of `HRX(d)` keeps the invariant. -/
theorem hrxStep_inv {d : Dev} {s t : State} (hstep : hrxStep d s = .next t) (h : s.Inv) : t.Inv := by
  obtain ⟨hen, hi, D, rfl, hD⟩ := hrxStep_effect hstep
  obtain ⟨-, gate, -⟩ := (hrxEnabled_iff d s).1 hen
  rw [State.setDev_ie_true gate]
  rcases hD with ⟨-, rfl⟩ | ⟨-, rfl⟩
  · refine State.inv_setDev h (by simp [Device.capacities]) (fun hok => ?_) id
    obtain ⟨rx, tx⟩ := Device.good_of_ok hok hi
    exact Device.ok_of_good (RingBuffer.good_enqueue _ _ rx) tx
  · exact State.inv_setDev h rfl id id

/-- A step of `HTX(d)` keeps the invariant: it disables the source on an empty buffer only (R142). -/
theorem htxStep_inv {d : Dev} {s t : State} (hstep : htxStep d s = .next t) (h : s.Inv) : t.Inv := by
  obtain ⟨hen, hi, D, rfl, hD⟩ := htxStep_effect hstep
  obtain ⟨-, gate, source, -⟩ := (htxEnabled_iff d s).1 hen
  rw [State.setDev_ie_true gate]
  rcases hD with ⟨-, rfl⟩ | ⟨hempty, rfl⟩
  · refine State.inv_setDev h (by simp [Device.capacities]) (fun hok => ?_) fun ⟨_, hdisabled, _⟩ => ?_
    · obtain ⟨rx, tx⟩ := Device.good_of_ok hok hi
      exact Device.ok_of_good rx (RingBuffer.good_dequeue _ tx)
    · exact nomatch source.symm.trans hdisabled
  · exact State.inv_setDev h rfl id fun ⟨_, _, hbyte⟩ => absurd hempty (Nat.ne_of_gt hbyte)

/-- No device is initialised after a reset event (R44, U1). -/
theorem resetEvent_initialised (s : State) (d : Dev) : ((resetEvent s).dev d).initialised = false := by
  by_cases hd : d.val < s.ndev
  · rw [resetEvent_dev s d hd]; rfl
  · rw [State.dev_of_absent (by rwa [resetEvent_ndev])]; rfl

/-- The reset event keeps the invariant, though it leaves the registers of every buffer free (R44). -/
theorem resetEvent_inv {s : State} (h : s.Inv) : (resetEvent s).Inv := by
  obtain ⟨hconfig, -⟩ := h
  have devices : ∀ D ∈ (resetEvent s).devs, D.Ok := by
    intro D hD
    obtain ⟨d, hd, rfl⟩ := List.mem_mapIdx.1 hD
    exact Device.ok_afterReset _ _ _
  have sequencer : (resetEvent s).FgOk := fun busy => absurd rfl busy
  have drain : (resetEvent s).DrainOk := fun d hi => nomatch hi.symm.trans (resetEvent_initialised s d)
  exact ⟨resetEvent_config s ▸ hconfig, devices, Nat.zero_le _, sequencer, drain⟩

/-- Every move keeps the invariant. -/
theorem move_inv {m : Move} {s t : State} (hstep : move m s = .next t) (h : s.Inv) : t.Inv := by
  cases m with
  | fgMicro => exact fgMicro_inv hstep h
  | fgCommand => exact fgCommand_inv hstep h
  | hrx d => exact hrxStep_inv hstep h
  | htx d => exact htxStep_inv hstep h
  | envRx d b => obtain ⟨-, -, rfl⟩ := envRxStep_next hstep; exact State.inv_setDev h rfl id id
  | envTxReady d => obtain ⟨-, -, rfl⟩ := envTxReadyStep_next hstep; exact State.inv_setDev h rfl id id
  | reset => cases hstep; exact resetEvent_inv h

/-- The schedule is no part of the invariant. -/
theorem nextMove_inv {s : State} (h : s.Inv) : (nextMove s).2.Inv := by
  unfold nextMove
  split <;> exact h

/-- Settles O48: a step is a move, and every move keeps the invariant part by part. -/
theorem everyStepKeepsTheInvariant : Obligations.EveryStepKeepsTheInvariant :=
  fun _ _ h hstep => move_inv hstep (nextMove_inv h)

end Sys2Proof.Machine
end

section
/-! Who writes the enables, the drop counter and `cs_stack` (spec/10_state.md R27, R28, R30, R31), and by which commands FG
sets the enables (spec/42_channel_commands.md R121, R123). -/

namespace Sys2Proof.Machine

/-! ## FG -/

/-- What FG may do to the flags of a device: set an enable. -/
def Device.FgMayWrite (D E : Device) : Prop :=
  (D.rxie = true → E.rxie = true) ∧ (D.txie = true → E.txie = true) ∧ E.rxDrop = D.rxDrop

/-- Leaving a device alone is among it. -/
theorem Device.FgMayWrite.refl (D : Device) : D.FgMayWrite D := ⟨id, id, rfl⟩

/-- Two writes of FG in a row set enables only. -/
theorem Device.FgMayWrite.trans {D E F : Device} (hDE : D.FgMayWrite E) (hEF : E.FgMayWrite F) : D.FgMayWrite F := by
  obtain ⟨rxie, txie, drop⟩ := hDE
  obtain ⟨rxie', txie', drop'⟩ := hEF
  exact ⟨rxie' ∘ rxie, txie' ∘ txie, drop'.trans drop⟩

/-- A micro-step of FG clears no enable and counts no drop. -/
theorem fgMicro_mayWrite {s t : State} (h : fgMicro s = .next t) (d : Dev) : (s.dev d).FgMayWrite (t.dev d) := by
  rcases fgMicro_devs h with hdevs | ⟨e, -, hdevs⟩ | ⟨i, e, D, r, -, -, -, -, hE, hdevs⟩ | ⟨e, -, -, hdevs⟩ <;>
    rw [State.dev_congr hdevs]
  · exact Device.FgMayWrite.refl _
  · refine State.dev_setDev_rel (fun _ => Device.FgMayWrite.refl) ?_ d
    exact ⟨fun _ => rfl, id, rfl⟩
  · obtain ⟨⟨rxie, txie, drop, -⟩, -⟩ := bodyEffect_frame hE
    exact State.dev_setDev_rel (fun _ => Device.FgMayWrite.refl) ⟨rxie.trans, txie.trans, drop⟩ d
  · refine State.dev_setDev_rel (fun _ => Device.FgMayWrite.refl) ?_ d
    exact ⟨id, fun _ => rfl, rfl⟩

/-- A whole command clears no enable and counts no drop. -/
theorem fgCommand_mayWrite {s t : State} (h : fgCommand s = .next t) (d : Dev) : (s.dev d).FgMayWrite (t.dev d) :=
  fgCommand_chain (P := fun s t => (s.dev d).FgMayWrite (t.dev d)) (fun _ => Device.FgMayWrite.refl _)
    Device.FgMayWrite.trans (fun hst => fgMicro_mayWrite hst d) h

/-! ## Every move -/

/-- Who writes the flags of device `d`, between its registers before and after the move `m`: only FG sets an enable,
only `HTX(d)` on an empty send buffer clears one, only `HRX(d)` counts drops, upwards. -/
def Device.FlagWriters (m : Move) (d : Dev) (D E : Device) : Prop :=
  (D.rxie = true → E.rxie = true) ∧
  (D.rxie = false → E.rxie = true → m = .fgMicro ∨ m = .fgCommand) ∧
  (D.txie = false → E.txie = true → m = .fgMicro ∨ m = .fgCommand) ∧
  (D.txie = true → E.txie = false → m = .htx d ∧ D.tx.count = 0) ∧
  (m ≠ .hrx d → E.rxDrop = D.rxDrop) ∧ D.rxDrop.toNat ≤ E.rxDrop.toNat

/-- FG sets enables only. -/
theorem Device.flagWriters_of_fg {m : Move} {d : Dev} {D E : Device} (hm : m = .fgMicro ∨ m = .fgCommand)
    (h : D.FgMayWrite E) : Device.FlagWriters m d D E := by
  obtain ⟨rxie, txie, drop⟩ := h
  exact ⟨rxie, fun _ _ => hm, fun _ _ => hm, fun on off => (nomatch off.symm.trans (txie on)), fun _ => drop,
    Nat.le_of_eq (congrArg BitVec.toNat drop.symm)⟩

/-- The drop counter never falls: it saturates (R31). -/
theorem toNat_le_toNat_sat8Inc (v : Byte) : v.toNat ≤ (sat8Inc v).toNat := by
  unfold sat8Inc
  split <;> bv_omega

/-- A move that keeps both enables and the drop counter of a device. -/
theorem Device.flagWriters_of_same (m : Move) (d : Dev) {D E : Device} (rxie : E.rxie = D.rxie) (txie : E.txie = D.txie)
    (drop : E.rxDrop = D.rxDrop) : Device.FlagWriters m d D E :=
  ⟨rxie.trans, fun off on => (nomatch on.symm.trans (rxie.trans off)),
    fun off on => (nomatch on.symm.trans (txie.trans off)), fun on off => (nomatch off.symm.trans (txie.trans on)),
    fun _ => drop, Nat.le_of_eq (congrArg BitVec.toNat drop.symm)⟩

/-- Leaving a device alone writes no flag. -/
theorem Device.flagWriters_refl (m : Move) (d : Dev) (D : Device) : Device.FlagWriters m d D D :=
  Device.flagWriters_of_same m d rfl rfl rfl

/-- `HRX(e)` counts at most one drop, on its own device. -/
theorem hrxStep_flagWriters {e : Dev} {s t : State} (h : hrxStep e s = .next t) (d : Dev) :
    Device.FlagWriters (.hrx e) d (s.dev d) (t.dev d) := by
  obtain ⟨-, -, D, rfl, hD⟩ := hrxStep_effect h
  have written : Device.FlagWriters (.hrx e) e (s.dev e) D := by
    rcases hD with ⟨-, rfl⟩ | ⟨-, rfl⟩
    · exact Device.flagWriters_of_same _ _ rfl rfl rfl
    · exact ⟨id, fun off on => (nomatch off.symm.trans on), fun off on => (nomatch off.symm.trans on),
        fun on off => (nomatch on.symm.trans off), fun other => absurd rfl other, toNat_le_toNat_sat8Inc _⟩
  exact State.dev_setDev_rel (Device.flagWriters_refl _) written d

/-- `HTX(e)` clears `TXIE[e]` on an empty send buffer and writes no other flag. -/
theorem htxStep_flagWriters {e : Dev} {s t : State} (h : htxStep e s = .next t) (d : Dev) :
    Device.FlagWriters (.htx e) d (s.dev d) (t.dev d) := by
  obtain ⟨-, -, D, rfl, hD⟩ := htxStep_effect h
  have written : Device.FlagWriters (.htx e) e (s.dev e) D := by
    rcases hD with ⟨-, rfl⟩ | ⟨hempty, rfl⟩
    · exact Device.flagWriters_of_same _ _ rfl rfl rfl
    · exact ⟨id, fun off on => (nomatch off.symm.trans on), fun _ on => (nomatch on), fun _ _ => ⟨rfl, hempty⟩,
        fun _ => rfl, le_rfl⟩
  exact State.dev_setDev_rel (Device.flagWriters_refl _) written d

/-- The flags of every device have only their writers. -/
theorem move_flagWriters {m : Move} {s t : State} (h : move m s = .next t) (hreset : m ≠ .reset) (d : Dev) :
    Device.FlagWriters m d (s.dev d) (t.dev d) := by
  cases m with
  | fgMicro => exact Device.flagWriters_of_fg (.inl rfl) (fgMicro_mayWrite h d)
  | fgCommand => exact Device.flagWriters_of_fg (.inr rfl) (fgCommand_mayWrite h d)
  | hrx e => exact hrxStep_flagWriters h d
  | htx e => exact htxStep_flagWriters h d
  | envRx e b =>
    obtain ⟨-, -, rfl⟩ := envRxStep_next h
    refine State.dev_setDev_rel (Device.flagWriters_refl _) ?_ d
    exact Device.flagWriters_of_same _ _ rfl rfl rfl
  | envTxReady e =>
    obtain ⟨-, -, rfl⟩ := envTxReadyStep_next h
    refine State.dev_setDev_rel (Device.flagWriters_refl _) ?_ d
    exact Device.flagWriters_of_same _ _ rfl rfl rfl
  | reset => exact absurd rfl hreset

/-- `cs_stack` is written by FG, and emptied by a reset event (R30). -/
theorem move_csStack {m : Move} {s t : State} (h : move m s = .next t) (hmicro : m ≠ .fgMicro)
    (hcommand : m ≠ .fgCommand) (hreset : m ≠ .reset) : t.csStack = s.csStack := by
  cases m with
  | fgMicro => exact absurd rfl hmicro
  | fgCommand => exact absurd rfl hcommand
  | hrx e => obtain ⟨-, -, D, rfl, -⟩ := hrxStep_effect h; rfl
  | htx e => obtain ⟨-, -, D, rfl, -⟩ := htxStep_effect h; rfl
  | envRx e b => obtain ⟨-, -, rfl⟩ := envRxStep_next h; rfl
  | envTxReady e => obtain ⟨-, -, rfl⟩ := envTxReadyStep_next h; rfl
  | reset => exact absurd rfl hreset

/-- Settles O44: by the moves, each of which writes the flags of one device at most. -/
theorem flagsHaveOnlyTheirWriters : Obligations.FlagsHaveOnlyTheirWriters := by
  intro s t m d h hreset
  obtain ⟨rxieKept, rxieSet, txieSet, txieCleared, drop, rise⟩ := move_flagWriters h hreset d
  exact ⟨rxieKept, rxieSet, txieSet, txieCleared, drop, rise, fun hmicro hcommand =>
    move_csStack h hmicro hcommand hreset⟩

end Sys2Proof.Machine
end

section
/-! By which commands FG sets the enables (spec/10_state.md R27, R28; spec/42_channel_commands.md R121, R123). -/

namespace Sys2Proof.Machine

/-! ## One micro-step -/

/-- The commands with a step F4 for device `d` are `SEND d` and `SENDB d` (R121). -/
theorem Command.sendsTo_of_arms {c : Command} {d : Dev} (h : Command.arms c = some d) : Command.sendsTo d c := by
  cases c with
  | illegal => cases h
  | legal i =>
    cases i <;> simp [Command.arms, Instr.arms] at h
    case send e b => exact .inl ⟨b, h ▸ rfl⟩
    case sendb e bytes => exact .inr ⟨bytes, h ▸ rfl⟩

/-- A command that is one step sets `RXIE[d]` only if it is `IRQEN d` (R123). -/
theorem exec_unwrapped_sets_rxie {i : Instr} {s t : State} {d : Dev} (hw : i.wrapped = false)
    (h : exec i s = .next t) (off : (s.dev d).rxie = false) (on : (t.dev d).rxie = true) : i = .irqen d := by
  cases i <;> simp [Instr.wrapped] at hw
  case irqen e =>
    obtain ⟨-, ⟨-, rfl⟩ | ⟨-, rfl⟩⟩ := irqen_next h
    · exact nomatch off.symm.trans on
    · by_contra hde
      have other : d ≠ e := fun hd => hde (hd ▸ rfl)
      rw [State.respond_dev, s.dev_setDev_other e d _ other] at on
      exact nomatch off.symm.trans on
  case gie v => obtain ⟨-, rfl⟩ := gie_next h; exact nomatch off.symm.trans on
  case csenter => obtain ⟨-, ⟨-, rfl⟩ | ⟨-, rfl⟩⟩ := csenter_next h <;> exact nomatch off.symm.trans on
  case csexit => obtain ⟨-, ⟨-, rfl⟩ | ⟨_, _, -, rfl⟩⟩ := csexit_next h <;> exact nomatch off.symm.trans on

/-- A micro-step sets `RXIE[d]` at `IDLE` only. -/
theorem fgMicro_rxie_of_busy {s t : State} (h : fgMicro s = .next t) (hp : s.fg.phase ≠ .idle) (d : Dev) :
    (t.dev d).rxie = (s.dev d).rxie := by
  rcases fgMicro_devs h with hdevs | ⟨e, idle, -⟩ | ⟨i, e, D, r, -, -, -, -, hE, hdevs⟩ | ⟨e, -, -, hdevs⟩
  · rw [State.dev_congr hdevs]
  · exact absurd idle hp
  · obtain ⟨⟨rxie, -⟩, -⟩ := bodyEffect_frame hE
    rw [State.dev_congr hdevs]
    exact State.dev_setDev_rel (R := fun _ D E => E.rxie = D.rxie) (fun _ _ => rfl) rxie d
  · rw [State.dev_congr hdevs]
    refine State.dev_setDev_rel (R := fun _ D E => E.rxie = D.rxie) (fun _ _ => rfl) ?_ d
    rfl

/-- A micro-step sets `TXIE[d]` only if it is F4 of `SEND d` or `SENDB d`. -/
theorem fgMicro_sets_txie {s t : State} {d : Dev} (h : fgMicro s = .next t) (off : (s.dev d).txie = false)
    (on : (t.dev d).txie = true) : s.fg.phase = .restored ∧ Command.sendsTo d s.fg.cmd := by
  have absurd_of_same (same : (t.dev d).txie = (s.dev d).txie) : False := nomatch off.symm.trans (same.symm.trans on)
  rcases fgMicro_devs h with hdevs | ⟨e, -, hdevs⟩ | ⟨i, e, D, r, -, -, -, -, hE, hdevs⟩ | ⟨e, hp, ha, hdevs⟩ <;>
    rw [State.dev_congr hdevs] at on absurd_of_same
  · exact (absurd_of_same rfl).elim
  · refine (absurd_of_same (State.dev_setDev_rel (R := fun _ D E => E.txie = D.txie) (fun _ _ => rfl) ?_ d)).elim
    rfl
  · obtain ⟨⟨-, txie, -⟩, -⟩ := bodyEffect_frame hE
    exact (absurd_of_same (State.dev_setDev_rel (R := fun _ D E => E.txie = D.txie) (fun _ _ => rfl) txie d)).elim
  · by_cases hd : d = e
    · exact ⟨hp, hd ▸ Command.sendsTo_of_arms ha⟩
    · exact (absurd_of_same (congrArg Device.txie (s.dev_setDev_other e d _ hd))).elim

/-- F0: the command on the port is done at once, or it is accepted (R121). -/
theorem fgMicro_of_idle {s t : State} (h : fgMicro s = .next t) (hp : s.fg.phase = .idle) :
    (t.fg.phase = .idle ∧ ∀ d : Dev, (s.dev d).rxie = false → (t.dev d).rxie = true →
      ∃ u, nextCommand s = some (.legal (.irqen d), u)) ∨
    (∃ i u, nextCommand s = some (.legal i, u) ∧ t = acceptStep i u) := by
  rcases fgMicro_next h with ⟨-, u, hn, rfl⟩ | ⟨-, i, u, hn, -, rfl⟩ | ⟨-, i, u, hn, hw, he⟩ | ⟨hq, -⟩ | ⟨hq, -⟩ |
    ⟨hq, -⟩ | ⟨hq, -⟩ | ⟨hq, -⟩ | ⟨hq, -⟩
  · obtain ⟨_, _, _, -, -, rfl⟩ := nextCommand_some hn
    exact .inl ⟨hp, fun _ off on => nomatch off.symm.trans on⟩
  · exact .inr ⟨i, u, hn, rfl⟩
  · obtain ⟨-, rest, rfl⟩ := nextCommand_legal hn
    refine .inl ⟨(congrArg Fg.phase (exec_unwrapped_fg hw he)).trans hp, fun d off on => ?_⟩
    exact ⟨_, exec_unwrapped_sets_rxie hw he off on ▸ hn⟩
  all_goals exact nomatch hp.symm.trans hq

/-- A micro-step sets `RXIE[d]` only if it takes `IRQEN d` at `IDLE` (R123). -/
theorem fgMicro_sets_rxie {s t : State} {d : Dev} (h : fgMicro s = .next t) (off : (s.dev d).rxie = false)
    (on : (t.dev d).rxie = true) : s.fg.phase = .idle ∧ ∃ u, nextCommand s = some (.legal (.irqen d), u) := by
  by_cases hp : s.fg.phase = .idle
  · rcases fgMicro_of_idle h hp with ⟨-, sets⟩ | ⟨i, u, hn, rfl⟩
    · exact ⟨hp, sets d off on⟩
    · obtain ⟨-, rest, rfl⟩ := nextCommand_legal hn
      exact nomatch off.symm.trans on
  · exact nomatch off.symm.trans ((fgMicro_rxie_of_busy h hp d).symm.trans on)

/-! ## A command in progress -/

/-- While a command is in progress `fg.cmd` is not written (R35). -/
theorem fgMicro_cmd_of_busy {s t : State} (h : fgMicro s = .next t) (hp : s.fg.phase ≠ .idle) :
    t.fg.cmd = s.fg.cmd := by
  rcases fgMicro_next h with ⟨hq, -⟩ | ⟨hq, -⟩ | ⟨hq, -⟩ | ⟨-, rfl⟩ | ⟨-, i, -, v, hv, rfl⟩ | ⟨-, rfl⟩ |
    ⟨-, d, -, rfl⟩ | ⟨-, -, rfl⟩ | ⟨-, rfl⟩
  · exact absurd hq hp
  · exact absurd hq hp
  · exact absurd hq hp
  · rfl
  · obtain ⟨-, d, -, D, r, -, rfl⟩ := bodyOf_next hv; rfl
  · rfl
  · rfl
  · rfl
  · rfl

/-- `fgRun` stops at `IDLE`, so what chains need hold only of micro-steps of a command in progress. -/
theorem fgRun_chain_busy {P : State → State → Prop} (hrefl : ∀ s, P s s) (htrans : ∀ {s t u}, P s t → P t u → P s u)
    (hmicro : ∀ {s t}, s.fg.phase ≠ .idle → fgMicro s = .next t → P s t) :
    ∀ (n : Nat) {s t : State}, fgRun n s = .next t → P s t
  | 0, _, _, h => by cases h; exact hrefl _
  | n + 1, s, t, h => by
    by_cases hp : s.fg.phase = .idle
    · rw [fgRun_of_idle _ hp] at h
      cases h; exact hrefl _
    · rw [fgRun_succ_of_busy n hp] at h
      obtain ⟨u, hu, ht⟩ := andThen_next h
      exact htrans (hmicro hp hu) (fgRun_chain_busy hrefl htrans hmicro n ht)

/-- What the rest of a command in progress may do to the enables: arm the device that the command sends to. -/
def ArmsOnly (s t : State) : Prop :=
  t.fg.cmd = s.fg.cmd ∧ ∀ d : Dev, (t.dev d).rxie = (s.dev d).rxie ∧
    ((s.dev d).txie = false → (t.dev d).txie = true → Command.sendsTo d s.fg.cmd)

/-- Two parts of one command in a row. -/
theorem ArmsOnly.trans {s t u : State} (hst : ArmsOnly s t) (htu : ArmsOnly t u) : ArmsOnly s u := by
  obtain ⟨cmd, enables⟩ := hst
  obtain ⟨cmd', enables'⟩ := htu
  refine ⟨cmd'.trans cmd, fun d => ?_⟩
  obtain ⟨rxie, txie⟩ := enables d
  obtain ⟨rxie', txie'⟩ := enables' d
  refine ⟨rxie'.trans rxie, fun off on => ?_⟩
  cases between : (t.dev d).txie with
  | true => exact txie off between
  | false => exact cmd ▸ txie' between on

/-- Micro-steps of a command in progress set no enable but the one the command arms. -/
theorem fgRun_armsOnly {n : Nat} {s t : State} (h : fgRun n s = .next t) : ArmsOnly s t :=
  fgRun_chain_busy (P := ArmsOnly) (fun _ => ⟨rfl, fun _ => ⟨rfl, fun off on => nomatch off.symm.trans on⟩⟩)
    ArmsOnly.trans
    (fun hp hstep => ⟨fgMicro_cmd_of_busy hstep hp, fun d =>
      ⟨fgMicro_rxie_of_busy hstep hp d, fun off on => (fgMicro_sets_txie hstep off on).2⟩⟩) n h

/-! ## A whole command -/

/-- A whole command sets `RXIE[d]` only if it is `IRQEN d`, taken at `IDLE`. -/
theorem fgCommand_sets_rxie {s t : State} {d : Dev} (h : fgCommand s = .next t) (off : (s.dev d).rxie = false)
    (on : (t.dev d).rxie = true) : s.fg.phase = .idle ∧ ∃ u, nextCommand s = some (.legal (.irqen d), u) := by
  by_cases hp : s.fg.phase = .idle
  · rw [fgCommand_of_idle hp] at h
    obtain ⟨v, hv, ht⟩ := andThen_next h
    obtain ⟨-, enables⟩ := fgRun_armsOnly ht
    obtain ⟨rxie, -⟩ := enables d
    exact fgMicro_sets_rxie hv off (rxie.symm.trans on)
  · rw [fgCommand, if_neg hp] at h
    obtain ⟨-, enables⟩ := fgRun_armsOnly h
    obtain ⟨rxie, -⟩ := enables d
    exact nomatch off.symm.trans (rxie.symm.trans on)

/-- A whole command, or what is left of one, sets `TXIE[d]` only if it is `SEND d` or `SENDB d`. -/
theorem fgCommand_sets_txie {s t : State} {d : Dev} (h : fgCommand s = .next t) (off : (s.dev d).txie = false)
    (on : (t.dev d).txie = true) :
    (s.fg.phase ≠ .idle ∧ Command.sendsTo d s.fg.cmd) ∨
    (s.fg.phase = .idle ∧ ∃ c u, nextCommand s = some (c, u) ∧ Command.sendsTo d c) := by
  by_cases hp : s.fg.phase = .idle
  · refine .inr ⟨hp, ?_⟩
    rw [fgCommand_of_idle hp] at h
    obtain ⟨v, hv, ht⟩ := andThen_next h
    have accept : (v.dev d).txie = false := by
      rw [← Bool.not_eq_true]
      intro hset
      obtain ⟨hq, -⟩ := fgMicro_sets_txie hv off hset
      exact nomatch hp.symm.trans hq
    rcases fgMicro_of_idle hv hp with ⟨idle, -⟩ | ⟨i, u, hn, rfl⟩
    · rw [fgRun_of_idle 5 idle] at ht
      cases ht
      exact nomatch accept.symm.trans on
    · obtain ⟨-, enables⟩ := fgRun_armsOnly ht
      exact ⟨_, u, hn, (enables d).2 accept on⟩
  · rw [fgCommand, if_neg hp] at h
    obtain ⟨-, enables⟩ := fgRun_armsOnly h
    exact .inl ⟨hp, (enables d).2 off on⟩

/-! ## Every move -/

/-- The reset event sets no enable. -/
theorem resetEvent_enables_off (s : State) (d : Dev) :
    ((resetEvent s).dev d).rxie = false ∧ ((resetEvent s).dev d).txie = false := by
  by_cases hd : d.val < s.ndev
  · rw [resetEvent_dev s d hd]; exact ⟨rfl, rfl⟩
  · rw [State.dev_of_absent (by rwa [resetEvent_ndev])]; exact ⟨rfl, rfl⟩

/-- A move that sets an enable is one of FG (R27, R28). -/
theorem move_of_sets_enable {m : Move} {s t : State} {d : Dev} (h : move m s = .next t)
    (sets : ((s.dev d).rxie = false ∧ (t.dev d).rxie = true) ∨ ((s.dev d).txie = false ∧ (t.dev d).txie = true)) :
    m = .fgMicro ∨ m = .fgCommand := by
  by_cases hm : m = .reset
  · subst hm; cases h
    obtain ⟨rxie, txie⟩ := resetEvent_enables_off s d
    obtain ⟨-, on⟩ | ⟨-, on⟩ := sets
    · exact nomatch rxie.symm.trans on
    · exact nomatch txie.symm.trans on
  · obtain ⟨-, rxie, txie, -⟩ := move_flagWriters h hm d
    obtain ⟨off, on⟩ | ⟨off, on⟩ := sets
    · exact rxie off on
    · exact txie off on

/-- Settles O59: only the two moves of FG set an enable, and each by the commands it takes or has in progress. -/
theorem enablesAreSetByTheirCommands : Obligations.EnablesAreSetByTheirCommands := by
  intro s t m d h
  refine ⟨fun off on => ?_, fun off on => ?_⟩
  · obtain rfl | rfl := move_of_sets_enable h (.inl ⟨off, on⟩)
    · exact ⟨.inl rfl, fgMicro_sets_rxie h off on⟩
    · exact ⟨.inr rfl, fgCommand_sets_rxie h off on⟩
  · obtain rfl | rfl := move_of_sets_enable h (.inr ⟨off, on⟩)
    · exact .inl ⟨rfl, fgMicro_sets_txie h off on⟩
    · obtain inProgress | taken := fgCommand_sets_txie h off on
      · exact .inr (.inl ⟨rfl, inProgress⟩)
      · exact .inr (.inr ⟨rfl, taken⟩)

end Sys2Proof.Machine
end

section
/-! The two moves of ENV (spec/10_state.md R41) and the values that the spec gives for reset (R44). -/

namespace Sys2Proof.Machine

/-- `EnvRx(d, b)` where its precondition holds. -/
theorem envRxStep_eq {s : State} {d : Dev} (b : Byte) (hd : d.val < s.ndev) (h : (s.dev d).rxValid = false) :
    envRxStep d b s = .next (s.setDev d { s.dev d with rxData := b, rxValid := true }) := by simp [envRxStep, hd, h]

/-- `EnvRx(d, b)` while a byte is pending. -/
theorem envRxStep_stuck {s : State} {d : Dev} (b : Byte) (h : (s.dev d).rxValid = true) :
    envRxStep d b s = .fault (.notEnabled (.envRx d b)) := by simp [envRxStep, h]

/-- `EnvTxReady(d)` where its precondition holds. -/
theorem envTxReadyStep_eq {s : State} {d : Dev} (hd : d.val < s.ndev) (h : (s.dev d).txReady = false) :
    envTxReadyStep d s = .next (s.setDev d { s.dev d with txReady := true }) := by simp [envTxReadyStep, hd, h]

/-- `EnvTxReady(d)` while the transceiver is ready. -/
theorem envTxReadyStep_stuck {s : State} {d : Dev} (h : (s.dev d).txReady = true) :
    envTxReadyStep d s = .fault (.notEnabled (.envTxReady d)) := by simp [envTxReadyStep, h]

/-- Settles O42: each move of ENV, with its precondition met and not met. -/
theorem environmentMovesDoWhatTheySay : Obligations.EnvironmentMovesDoWhatTheySay :=
  fun _ _ b hd => ⟨envRxStep_eq b hd, envRxStep_stuck b, envTxReadyStep_eq hd, envTxReadyStep_stuck⟩

/-- Every device of the block is after reset as its capacities say (R44). -/
theorem State.dev_atReset {c : Config} {d : Dev} (hd : d.val < c.ndev) :
    ∃ e ∈ c.devs, (State.atReset c).dev d = Device.atReset e := by
  have present : d.val < (State.atReset c).ndev := lt_of_lt_of_eq hd (List.length_map _).symm
  obtain ⟨e, he, hdev⟩ := List.mem_map.1 (State.dev_mem _ d present)
  exact ⟨e, he, hdev.symm⟩

/-- Settles O45: every device is one of `Device.atReset`, which has these values whatever its capacities. -/
theorem resetValuesOfTheSpec : Obligations.ResetValuesOfTheSpec := by
  intro c d hd
  obtain ⟨e, -, hdev⟩ := State.dev_atReset hd
  rw [hdev]
  exact ⟨rfl, rfl, rfl, rfl, rfl, rfl, rfl, rfl, rfl, State.config_atReset c⟩

end Sys2Proof.Machine
end

section
/-! What the primitives do to the live elements of a RingBuffer (spec/40_ringbuffer.md R91, R100, R102). -/

namespace Sys2Proof.Machine

/-- An empty buffer has no live element. -/
theorem RingBuffer.contents_of_empty {B : RingBuffer} (h : B.count = 0) : B.contents = [] :=
  List.eq_nil_of_length_eq_zero (B.contents_length.trans h)

/-- R23 (c): `head` is the cell after the live ones. -/
theorem RingBuffer.phys_count {B : RingBuffer} (h : B.Ok) : B.phys B.count = B.head := by
  obtain ⟨-, ⟨hhead, -⟩, hlive⟩ := h
  have after_live : ((B.tail + B.count : Nat) : Int) ≡ (B.head : Nat) [ZMOD B.cap] := by
    push_cast
    calc (B.tail + B.count : Int)
        ≡ B.tail + (B.head - B.tail) [ZMOD B.cap] := Int.ModEq.add_left _ (Int.ModEq.symm hlive)
      _ = B.head := by ring
  exact Nat.mod_eq_of_modEq (Int.natCast_modEq_iff.1 after_live) hhead

/-- Logical indices within the capacity have cells of their own (R56). -/
theorem RingBuffer.phys_inj {B : RingBuffer} {i j : Nat} (hi : i < B.cap) (hj : j < B.cap) (h : B.phys i = B.phys j) :
    i = j :=
  Nat.ModEq.eq_of_lt_of_lt (Nat.ModEq.add_left_cancel' B.tail h) hi hj

/-- `rb_enqueue` appends its byte where a cell is free (R100). -/
theorem RingBuffer.contents_enqueue {B : RingBuffer} (hwf : B.storage.wf) (h : B.Ok) (hfree : B.count ≠ B.cap)
    (b : Byte) : (B.enqueue b).1.contents = B.contents ++ [b] := by
  obtain ⟨hfull, -⟩ | ⟨-, he⟩ := B.enqueue_cases b
  · exact absurd hfull hfree
  have hlt : B.count < B.cap := Nat.lt_of_le_of_ne h.1 hfree
  have kept (i : Nat) (hi : i < B.count) : (B.storage.write B.head b).read (B.phys i) = B.cell (B.phys i) :=
    Memory.read_write_other _ _ _ _ fun hhead =>
      hi.ne (RingBuffer.phys_inj (hi.trans hlt) hlt (hhead.trans (RingBuffer.phys_count h).symm))
  have written : (B.storage.write B.head b).read (B.phys B.count) = b := by
    rw [RingBuffer.phys_count h, Memory.read_write_same _ _ _ hwf]
  rw [he]
  calc (List.range (B.count + 1)).map (fun i => (B.storage.write B.head b).read (B.phys i))
      = (List.range B.count).map (fun i => (B.storage.write B.head b).read (B.phys i)) ++ [b] := by
        rw [List.range_succ, List.map_append, List.map_singleton, written]
    _ = B.contents ++ [b] := by
        rw [List.map_congr_left fun i hi => kept i (List.mem_range.1 hi), RingBuffer.contents]

/-- `rb_enqueue_batch` appends as many of its bytes as there are free cells (R102). -/
theorem RingBuffer.contents_enqueueBatch (bs : List Byte) :
    ∀ {B : RingBuffer}, B.storage.wf → B.Ok →
      (B.enqueueBatch bs).1.contents = B.contents ++ bs.take (B.cap - B.count) := by
  induction bs with
  | nil => intro B _ _; simp
  | cons b bs ih =>
    intro B hwf h
    by_cases hfull : B.count = B.cap
    · simp [B.enqueueBatch_full _ hfull, hfull]
    · have count : (B.enqueue b).1.count = B.count + 1 := by
        obtain ⟨hf, -⟩ | ⟨-, he⟩ := B.enqueue_cases b
        · exact absurd hf hfull
        · rw [he]
      have free : B.cap - B.count = (B.cap - (B.count + 1)) + 1 := by
        have hle := h.1
        omega
      rw [B.enqueueBatch_cons b bs hfull, ih (B.enqueue_wf b hwf) (RingBuffer.ok_enqueue h b),
        RingBuffer.contents_enqueue hwf h hfull, RingBuffer.cap_congr (B.enqueue_k b), count, free,
        List.take_succ_cons, List.append_assoc, List.singleton_append]

/-- `rb_enqueue` is a batch of one byte. -/
theorem RingBuffer.enqueueBatch_singleton (B : RingBuffer) (b : Byte) : (B.enqueueBatch [b]).1 = (B.enqueue b).1 := by
  obtain ⟨hfull, he⟩ | ⟨hfree, -⟩ := B.enqueue_cases b
  · rw [B.enqueueBatch_full _ hfull, he]
  · rw [B.enqueueBatch_cons b [] hfree, RingBuffer.enqueueBatch_nil]

/-- `rb_dequeue` on an empty buffer returns no byte. -/
theorem RingBuffer.dequeue_snd_of_empty {B : RingBuffer} (h : B.count = 0) : B.dequeue.2 = none := by
  simp [RingBuffer.dequeue, RingBuffer.isEmpty, h]

/-- `rb_dequeue` on a buffer that holds bytes returns the one at `tail`. -/
theorem RingBuffer.dequeue_snd_of_live {B : RingBuffer} (h : B.count ≠ 0) : B.dequeue.2 = some (B.cell B.tail) := by
  simp [RingBuffer.dequeue, RingBuffer.isEmpty, h]

/-- `rb_dequeue` takes the oldest live element off, if there is one (R100). -/
theorem RingBuffer.dequeue_append_contents {B : RingBuffer} (htail : B.tail < B.cap) :
    B.dequeue.2.toList ++ B.dequeue.1.contents = B.contents := by
  obtain ⟨-, he⟩ | ⟨hlive, he⟩ := B.dequeue_cases
  · rw [he]; rfl
  have oldest : B.phys 0 = B.tail := Nat.mod_eq_of_lt htail
  have shifted (i : Nat) : ((B.tail + 1) % B.cap + i) % B.cap = B.phys (i + 1) := by
    rw [Nat.mod_add_mod, RingBuffer.phys, Nat.add_assoc, Nat.add_comm 1 i]
  have count : B.count = B.count - 1 + 1 := (Nat.succ_pred_eq_of_ne_zero hlive).symm
  rw [he]
  calc B.cell B.tail :: (List.range (B.count - 1)).map (fun i => B.cell (((B.tail + 1) % B.cap + i) % B.cap))
      = B.cell (B.phys 0) :: (List.range (B.count - 1)).map (fun i => B.cell (B.phys (i + 1))) := by
        simp only [oldest, shifted]
    _ = (List.range (B.count - 1 + 1)).map (fun i => B.cell (B.phys i)) := by
        rw [List.range_succ_eq_map, List.map_cons, List.map_map]; rfl
    _ = B.contents := by rw [← count, RingBuffer.contents]

end Sys2Proof.Machine
end

section
/-! What a move of FG does to the buffers and the traces of one device (spec/42_channel_commands.md R121): the body of the
command whose step F2 the move holds, if it names the device, and nothing else. -/

namespace Sys2Proof.Machine

/-! ## One device -/

/-- All of a device but its enables, which FG sets outside a body too (R27, R28). -/
def Device.data (D : Device) : Device := { D with rxie := false, txie := false }

/-- What FIFO order is about is in the data. -/
theorem Device.fields_of_data {D E : Device} (h : E.data = D.data) :
    E.rx = D.rx ∧ E.rxLog = D.rxLog ∧ E.tx = D.tx ∧ E.txLog = D.txLog :=
  have field {α : Type} (f : Device → α) : f E.data = f D.data := congrArg f h
  ⟨field Device.rx, field Device.rxLog, field Device.tx, field Device.txLog⟩

/-- Device `d` goes from `D` to `E`, up to its enables, by the body of the command `i?`, if there is one and it names
`d`. -/
def Device.Undergoes (d : Dev) (i? : Option Instr) (D E : Device) : Prop :=
  ((∀ i, i? = some i → i.dev? ≠ some d) ∧ E.data = D.data) ∨
  ∃ i F r, i? = some i ∧ i.dev? = some d ∧ bodyEffect i D = some (F, r) ∧ E.data = F.data

/-- Without a body the data stays. -/
theorem Device.undergoes_none {d : Dev} {D E : Device} (h : E.data = D.data) : Device.Undergoes d none D E :=
  .inl ⟨fun _ hi => (nomatch hi), h⟩

/-- What only sets enables after the body does not matter. -/
theorem Device.Undergoes.congr {d : Dev} {i? : Option Instr} {D E F : Device} (h : Device.Undergoes d i? D E)
    (hF : F.data = E.data) : Device.Undergoes d i? D F := by
  obtain ⟨hi, hE⟩ | ⟨i, G, r, hi, hd, hG, hE⟩ := h
  · exact .inl ⟨hi, hF.trans hE⟩
  · exact .inr ⟨i, G, r, hi, hd, hG, hF.trans hE⟩

/-! ## One micro-step -/

/-- `F2` is where the sequencer is at `CS` with a wrapped command (R121). -/
theorem bodyIn_fgMicro {s : State} {i : Instr} (hp : s.fg.phase = .cs) (hc : s.fg.cmd = .legal i)
    (hw : i.wrapped = true) : bodyIn .fgMicro s = some i := by simp [bodyIn, bodyIn.commandIn, hp, hc, hw]

/-- The micro-steps but F2 set enables at most. -/
theorem fgMicro_data {s t : State} (h : fgMicro s = .next t) (hp : s.fg.phase ≠ .cs) (d : Dev) :
    (t.dev d).data = (s.dev d).data := by
  obtain hdevs | ⟨e, -, hdevs⟩ | ⟨i, e, D, r, body, -⟩ | ⟨e, -, -, hdevs⟩ := fgMicro_devs h
  · rw [State.dev_congr hdevs]
  · rw [State.dev_congr hdevs]
    refine State.dev_setDev_rel (R := fun _ D E => E.data = D.data) (fun _ _ => rfl) ?_ d
    rfl
  · exact absurd body hp
  · rw [State.dev_congr hdevs]
    refine State.dev_setDev_rel (R := fun _ D E => E.data = D.data) (fun _ _ => rfl) ?_ d
    rfl

/-- A micro-step does its body, if it is F2. -/
theorem fgMicro_undergoes {s t : State} {d : Dev} (h : fgMicro s = .next t) (hd : d.val < s.ndev) :
    Device.Undergoes d (bodyIn .fgMicro s) (s.dev d) (t.dev d) := by
  by_cases hp : s.fg.phase = .cs
  · obtain ⟨i, hc⟩ : ∃ i, s.fg.cmd = .legal i := by
      cases hc : s.fg.cmd with
      | legal i => exact ⟨i, rfl⟩
      | illegal => simp [fgMicro, hp, fgBody, hc] at h
    obtain ⟨hw, e, hi, D, r, hE, rfl⟩ := fgMicro_body_next hp hc h
    rw [bodyIn_fgMicro hp hc hw, State.afterBody_dev]
    by_cases hde : d = e
    · subst hde
      rw [s.dev_setDev_self d D hd]
      exact .inr ⟨i, D, r, rfl, hi, hE, rfl⟩
    · rw [s.dev_setDev_other e d D hde]
      refine .inl ⟨fun j hj hjd => hde ?_, rfl⟩
      cases hj
      exact Option.some.inj (hjd.symm.trans hi)
  · have none : bodyIn .fgMicro s = none := by simp [bodyIn, hp]
    exact none ▸ Device.undergoes_none (fgMicro_data h hp d)

/-! ## A whole command -/

/-- The body of the command in progress is done, or no command is in progress. -/
def Phase.BodyDone (p : Phase) : Prop := p ≠ .accepted ∧ p ≠ .cs

/-- After the body come F3, F4, F5 (R121). -/
theorem fgMicro_bodyDone {s t : State} (h : fgMicro s = .next t) (busy : s.fg.phase ≠ .idle)
    (hp : s.fg.phase ≠ .accepted) : t.fg.phase.BodyDone := by
  obtain ⟨hq, -⟩ | ⟨hq, -⟩ | ⟨hq, -⟩ | ⟨hq, -⟩ | ⟨-, i, -, v, -, rfl⟩ | ⟨-, rfl⟩ | ⟨-, d, -, rfl⟩ | ⟨-, -, rfl⟩ |
    ⟨-, rfl⟩ := fgMicro_next h
  · exact absurd hq busy
  · exact absurd hq busy
  · exact absurd hq busy
  · exact absurd hq hp
  all_goals exact ⟨Phase.noConfusion, Phase.noConfusion⟩

/-- Once the body is done, the micro-steps that are left set enables at most. -/
theorem fgRun_data {n : Nat} {s t : State} (h : fgRun n s = .next t) (hp : s.fg.phase.BodyDone) (d : Dev) :
    (t.dev d).data = (s.dev d).data := by
  have both : s.fg.phase.BodyDone → t.fg.phase.BodyDone ∧ (t.dev d).data = (s.dev d).data :=
    fgRun_chain_busy
      (P := fun s t => s.fg.phase.BodyDone → t.fg.phase.BodyDone ∧ (t.dev d).data = (s.dev d).data)
      (fun _ hp => ⟨hp, rfl⟩)
      (fun hst htu hp => by
        obtain ⟨ht, hdata⟩ := hst hp
        obtain ⟨hu, hdata'⟩ := htu ht
        exact ⟨hu, hdata'.trans hdata⟩)
      (fun busy hstep hp => ⟨fgMicro_bodyDone hstep busy hp.1, fgMicro_data hstep hp.2 d⟩) n h
  exact (both hp).2

/-- F2 and the micro-steps after it do the body of the command in progress. -/
theorem fgRun_undergoes_of_cs {n : Nat} {s t : State} {d : Dev} (h : fgRun (n + 1) s = .next t) (hp : s.fg.phase = .cs)
    (hd : d.val < s.ndev) : Device.Undergoes d (bodyIn .fgCommand s) (s.dev d) (t.dev d) := by
  have busy : s.fg.phase ≠ .idle := by simp [hp]
  have same : bodyIn .fgCommand s = bodyIn .fgMicro s := by simp [bodyIn, hp]
  rw [fgRun_succ_of_busy n busy] at h
  obtain ⟨u, hu, ht⟩ := andThen_next h
  exact same ▸ (fgMicro_undergoes hu hd).congr (fgRun_data ht (fgMicro_bodyDone hu busy (by simp [hp])) d)

/-- What is left of a command in progress does the body, unless it is done. -/
theorem fgRun_undergoes {s t : State} {d : Dev} (h : fgRun 5 s = .next t) (busy : s.fg.phase ≠ .idle)
    (hd : d.val < s.ndev) : Device.Undergoes d (bodyIn .fgCommand s) (s.dev d) (t.dev d) := by
  by_cases hp : s.fg.phase.BodyDone
  · have none : bodyIn .fgCommand s = none := by
      obtain ⟨accepted, cs⟩ := hp
      unfold bodyIn
      cases hq : s.fg.phase <;> simp_all
    exact none ▸ Device.undergoes_none (fgRun_data h hp d)
  · by_cases hcs : s.fg.phase = .cs
    · exact fgRun_undergoes_of_cs h hcs hd
    · have haccepted : s.fg.phase = .accepted := by
        by_contra hne
        exact hp ⟨hne, hcs⟩
      have enter : fgMicro s = .next (enterStep s) := by simp [fgMicro, haccepted]
      have same : bodyIn .fgCommand s = bodyIn .fgCommand (enterStep s) := by simp [bodyIn, haccepted, enterStep]
      rw [fgRun_succ_of_busy 4 busy, enter] at h
      exact same ▸ fgRun_undergoes_of_cs (s := enterStep s) h rfl hd

/-- F0 does at once a command without a body, or accepts the command that the port presents. -/
theorem fgMicro_of_idle_bodyIn {s t : State} (h : fgMicro s = .next t) (hp : s.fg.phase = .idle) :
    (t.fg.phase = .idle ∧ bodyIn .fgCommand s = none) ∨
    (t.fg.phase = .accepted ∧ t.devs = s.devs ∧ bodyIn .fgCommand t = bodyIn .fgCommand s) := by
  obtain ⟨-, u, hn, rfl⟩ | ⟨-, i, u, hn, -, rfl⟩ | ⟨-, i, u, hn, hw, he⟩ | ⟨hq, -⟩ | ⟨hq, -⟩ | ⟨hq, -⟩ | ⟨hq, -⟩ |
    ⟨hq, -⟩ | ⟨hq, -⟩ := fgMicro_next h
  · obtain ⟨_, _, _, -, -, rfl⟩ := nextCommand_some hn
    exact .inl ⟨hp, by simp [bodyIn, bodyIn.commandIn, hp, hn]⟩
  · obtain ⟨-, rest, rfl⟩ := nextCommand_legal hn
    exact .inr ⟨rfl, rfl, by simp [bodyIn, hp, hn]⟩
  · obtain ⟨-, rest, rfl⟩ := nextCommand_legal hn
    exact .inl ⟨(congrArg Fg.phase (exec_unwrapped_fg hw he)).trans hp,
      by simp [bodyIn, bodyIn.commandIn, hp, hn, hw]⟩
  all_goals exact nomatch hp.symm.trans hq

/-- A whole command, or what is left of one, does its body, unless that is done. -/
theorem fgCommand_undergoes {s t : State} {d : Dev} (h : fgCommand s = .next t) (hd : d.val < s.ndev) :
    Device.Undergoes d (bodyIn .fgCommand s) (s.dev d) (t.dev d) := by
  by_cases hp : s.fg.phase = .idle
  · rw [fgCommand_of_idle hp] at h
    obtain ⟨u, hu, ht⟩ := andThen_next h
    obtain ⟨idle, none⟩ | ⟨accepted, devs, same⟩ := fgMicro_of_idle_bodyIn hu hp
    · rw [fgRun_of_idle 5 idle] at ht
      cases ht
      exact none ▸ Device.undergoes_none (fgMicro_data hu (by simp [hp]) d)
    · rw [← same, ← State.dev_congr devs]
      exact fgRun_undergoes ht (by simp [accepted]) (State.ndev_congr devs ▸ hd)
  · rw [fgCommand, if_neg hp] at h
    exact fgRun_undergoes h hp hd

end Sys2Proof.Machine
end

section
/-! Runs of moves (spec/20_memory.md R57, R60): what one move of a device in use does to a path, chained along the run. -/

namespace Sys2Proof.Machine

/-! ## A device in use -/

/-- A good state in which device `d` is initialised. -/
def State.InUse (d : Dev) (s : State) : Prop := s.Inv ∧ (s.dev d).initialised = true

/-- The buffers of a device in use are good. -/
theorem State.InUse.good {d : Dev} {s : State} (h : s.InUse d) : (s.dev d).rx.Good ∧ (s.dev d).tx.Good := by
  obtain ⟨⟨-, hdevs, -⟩, hi⟩ := h
  exact Device.good_of_ok (State.dev_ok hdevs d) hi

/-- A device in use is one of the block. -/
theorem State.InUse.lt_ndev {d : Dev} {s : State} (h : s.InUse d) : d.val < s.ndev := s.lt_of_initialised d h.2

/-- A micro-step of FG keeps a device initialised (U1). -/
theorem fgMicro_initialised {s t : State} (h : fgMicro s = .next t) (d : Dev) (hi : (s.dev d).initialised = true) :
    (t.dev d).initialised = true := by
  have written {e : Dev} {D : Device} (hD : (s.dev e).initialised = true → D.initialised = true) :
      ((s.setDev e D).dev d).initialised = true :=
    State.dev_setDev_rel (R := fun _ D E => D.initialised = true → E.initialised = true) (fun _ _ => id) hD d hi
  obtain hdevs | ⟨e, -, hdevs⟩ | ⟨i, e, D, r, -, -, -, -, hE, hdevs⟩ | ⟨e, -, -, hdevs⟩ := fgMicro_devs h <;>
    rw [State.dev_congr hdevs]
  · exact hi
  · exact written id
  · obtain ⟨-, -, -, kept⟩ := bodyEffect_frame hE
    exact written kept
  · exact written id

/-- Every move but the reset event keeps a device initialised (U1). -/
theorem move_initialised {m : Move} {s t : State} (h : move m s = .next t) (hreset : m ≠ .reset) (d : Dev)
    (hi : (s.dev d).initialised = true) : (t.dev d).initialised = true := by
  have written {e : Dev} {D : Device} (hD : D.initialised = (s.dev e).initialised) :
      ((s.setDev e D).dev d).initialised = true :=
    State.dev_setDev_rel (R := fun _ D E => D.initialised = true → E.initialised = true) (fun _ _ => id) hD.trans d hi
  cases m with
  | fgMicro => exact fgMicro_initialised h d hi
  | fgCommand =>
    exact fgCommand_chain (P := fun s t => (s.dev d).initialised = true → (t.dev d).initialised = true)
      (fun _ => id) (fun hst htu hi => htu (hst hi)) (fun hst => fgMicro_initialised hst d) h hi
  | hrx e => obtain ⟨-, -, D, rfl, ⟨-, rfl⟩ | ⟨-, rfl⟩⟩ := hrxStep_effect h <;> exact written rfl
  | htx e => obtain ⟨-, -, D, rfl, ⟨-, rfl⟩ | ⟨-, rfl⟩⟩ := htxStep_effect h <;> exact written rfl
  | envRx e b => obtain ⟨-, -, rfl⟩ := envRxStep_next h; exact written rfl
  | envTxReady e => obtain ⟨-, -, rfl⟩ := envTxReadyStep_next h; exact written rfl
  | reset => exact absurd rfl hreset

/-- A move clears the buffers of `d` by the reset event or by `INIT d`, and not otherwise. -/
theorem clears_eq_false {d : Dev} {m : Move} {s : State} :
    clears d m s = false ↔ m ≠ .reset ∧ bodyIn m s ≠ some (.init d) := by simp [clears]

/-- A device stays in use until a reset event. -/
theorem State.InUse.move {d : Dev} {m : Move} {s t : State} (h : s.InUse d) (hm : m ≠ .reset)
    (hstep : Machine.move m s = .next t) : t.InUse d :=
  ⟨move_inv hstep h.1, move_initialised hstep hm d h.2⟩

/-! ## Along a run -/

/-- Two stretches of a buffer in a row: bytes `xs` out, what it holds from `D` to `E` to `F`, bytes `ys` in. -/
theorem fifo_trans {D E F xs ys xs' ys' : List Byte} (hDE : xs ++ E = D ++ ys) (hEF : xs' ++ F = E ++ ys') :
    (xs ++ xs') ++ F = D ++ (ys ++ ys') :=
  calc (xs ++ xs') ++ F
      = xs ++ (E ++ ys') := by rw [List.append_assoc, hEF]
    _ = D ++ (ys ++ ys') := by rw [← List.append_assoc, hDE, List.append_assoc]

/-- What a run adds to what `f` says of its first move. -/
theorem along_cons {f : Move → State → List Byte} {m : Move} {s t : State} (h : move m s = .next t) (ms : List Move) :
    along f (m :: ms) s = f m s ++ along f ms t := by simp [along, h]

/-- No move of a run clears `d`: neither the first nor any after it. -/
theorem never_cons {p : Move → State → Bool} {m : Move} {ms : List Move} {s t : State} (h : move m s = .next t) :
    never p (m :: ms) s = true ↔ p m s = false ∧ never p ms t = true := by simp [never, h]

/-- What relates a device in use before and after a move that does not clear it, with the bytes that `f` and `g` say of
the move, and chains, relates it before and after a run, with what they say along the run. -/
theorem moves_chain {d : Dev} {f g : Move → State → List Byte} {R : Device → List Byte → List Byte → Device → Prop}
    (hrefl : ∀ D, R D [] [] D)
    (htrans : ∀ {D E F xs ys xs' ys'}, R D xs ys E → R E xs' ys' F → R D (xs ++ xs') (ys ++ ys') F)
    (hmove : ∀ {m s t}, s.InUse d → m ≠ .reset → bodyIn m s ≠ some (.init d) → move m s = .next t →
      R (s.dev d) (f m s) (g m s) (t.dev d)) :
    ∀ (ms : List Move) {s t : State}, s.InUse d → never (clears d) ms s = true → moves ms s = .next t →
      R (s.dev d) (along f ms s) (along g ms s) (t.dev d)
  | [], _, _, _, _, h => by cases h; exact hrefl _
  | m :: ms, s, t, huse, hnever, h => by
    obtain ⟨u, hu, ht⟩ := andThen_next h
    obtain ⟨hclears, hrest⟩ := (never_cons hu).1 hnever
    obtain ⟨hreset, hinit⟩ := clears_eq_false.1 hclears
    rw [along_cons hu, along_cons hu]
    exact htrans (hmove huse hreset hinit hu) (moves_chain hrefl htrans hmove ms (huse.move hreset hu) hrest ht)

end Sys2Proof.Machine
end

section
/-! The send path is FIFO (spec/20_memory.md R60 (a)). -/

namespace Sys2Proof.Machine

/-! ## What one move puts and accepts -/

/-- The byte that `HTX(d)` puts in a move, if it puts one (R141). -/
def putBy (d : Dev) : Move → State → List Byte
  | .htx e, s => if e = d then (s.dev d).tx.dequeue.2.toList else []
  | _, _ => []

/-- Device `d` goes from `D` to `E` on the send path: the bytes `puts` went to the trace, and they and the bytes still
buffered are the bytes buffered before and those `accepted`, in order. -/
def Device.SendPath (D : Device) (puts accepted : List Byte) (E : Device) : Prop :=
  E.txLog = D.txLog ++ puts ∧ puts ++ E.tx.contents = D.tx.contents ++ accepted

/-- A device with its send buffer and trace as before. -/
theorem Device.sendPath_of_same {D E : Device} (htx : E.tx = D.tx) (hlog : E.txLog = D.txLog) : D.SendPath [] [] E := by
  simp [Device.SendPath, htx, hlog]

/-- Two stretches of the send path in a row. -/
theorem Device.SendPath.trans {D E F : Device} {xs ys xs' ys' : List Byte} (hDE : D.SendPath xs ys E)
    (hEF : E.SendPath xs' ys' F) : D.SendPath (xs ++ xs') (ys ++ ys') F := by
  obtain ⟨log, fifo⟩ := hDE
  obtain ⟨log', fifo'⟩ := hEF
  exact ⟨by rw [log', log, List.append_assoc], fifo_trans fifo fifo'⟩

/-- Only a command that names `d` offers bytes to its send buffer. -/
theorem Instr.offers_of_ne {d : Dev} {i : Instr} (h : i.dev? ≠ some d) : Instr.offers d i = [] := by
  cases i <;> simp_all [Instr.dev?, Instr.offers]

/-- A move with no body on `d` accepts nothing for it. -/
theorem acceptedBy_eq_nil {d : Dev} {m : Move} {s : State} (h : ∀ i, bodyIn m s = some i → i.dev? ≠ some d) :
    acceptedBy d m s = [] := by
  unfold acceptedBy
  split
  · rename_i i hi
    rw [Instr.offers_of_ne (h i hi), List.take_nil]
  · rfl

/-- A body appends to the send buffer what it offers, as far as cells are free (R127, R128). -/
theorem bodyEffect_contents_tx {i : Instr} {d : Dev} {D E : Device} {r : Response} (hE : bodyEffect i D = some (E, r))
    (hd : i.dev? = some d) (hinit : i ≠ .init d) (hgood : D.tx.Good) :
    E.tx.contents = D.tx.contents ++ (Instr.offers d i).take (D.tx.cap - D.tx.count) := by
  obtain ⟨⟨hwf, -⟩, hok⟩ := hgood
  cases i <;> simp [bodyEffect, Instr.dev?] at hE hd
  case init e => exact absurd (hd ▸ rfl) hinit
  case rxsize e => obtain ⟨-, rfl, -⟩ := hE; simp [Instr.offers]
  case rxdeq e => obtain ⟨-, rfl, -⟩ := hE; simp [Instr.offers]
  case rxpeek e x => obtain ⟨-, rfl, -⟩ := hE; simp [Instr.offers]
  case rxdrops e => obtain ⟨rfl, -⟩ := hE; simp [Instr.offers]
  case send e b =>
    obtain ⟨-, rfl, -⟩ := hE
    simpa [Instr.offers, hd, RingBuffer.enqueueBatch_singleton] using RingBuffer.contents_enqueueBatch [b] hwf hok
  case sendb e bytes =>
    obtain ⟨-, rfl, -⟩ := hE
    simpa [Instr.offers, hd] using RingBuffer.contents_enqueueBatch bytes hwf hok

/-- A move of FG puts nothing, and buffers what it accepts. -/
theorem Device.Undergoes.sendPath {m : Move} {d : Dev} {s : State} {E : Device} (huse : s.InUse d)
    (hinit : bodyIn m s ≠ some (.init d)) (h : Device.Undergoes d (bodyIn m s) (s.dev d) E) :
    (s.dev d).SendPath [] (acceptedBy d m s) E := by
  obtain ⟨hother, hdata⟩ | ⟨i, F, r, hi, hd, hF, hdata⟩ := h <;> obtain ⟨-, -, htx, hlog⟩ := Device.fields_of_data hdata
  · rw [acceptedBy_eq_nil hother]
    exact Device.sendPath_of_same htx hlog
  · have accepted : acceptedBy d m s = (Instr.offers d i).take ((s.dev d).tx.cap - (s.dev d).tx.count) := by
      simp [acceptedBy, hi]
    have hne : i ≠ .init d := fun h => hinit (h ▸ hi)
    obtain ⟨⟨-, -, -, -, -, -, -, -, log⟩, -⟩ := bodyEffect_frame hF
    exact ⟨by rw [hlog, log, List.append_nil],
      by rw [htx, accepted, List.nil_append, bodyEffect_contents_tx hF hd hne huse.good.2]⟩

/-- A step of `HTX(e)` puts the oldest byte of its own send buffer (R141). -/
theorem htxStep_sendPath {d e : Dev} {s t : State} (huse : s.InUse d) (h : htxStep e s = .next t) :
    (s.dev d).SendPath (putBy d (.htx e) s) [] (t.dev d) := by
  obtain ⟨-, -, D, rfl, hD⟩ := htxStep_effect h
  change (s.dev d).SendPath _ _ ((s.setDev e D).dev d)
  by_cases hed : e = d
  · subst hed
    obtain ⟨⟨-, -, -, htail, -⟩, -⟩ := huse.good.2
    have fifo := RingBuffer.dequeue_append_contents htail
    rw [s.dev_setDev_self e D huse.lt_ndev, putBy, if_pos rfl]
    obtain ⟨hlive, rfl⟩ | ⟨hempty, rfl⟩ := hD
    · exact ⟨by rw [RingBuffer.dequeue_snd_of_live hlive]; rfl, fifo.trans (List.append_nil _).symm⟩
    · rw [RingBuffer.dequeue_snd_of_empty hempty]
      exact Device.sendPath_of_same rfl rfl
  · rw [s.dev_setDev_other e d D (Ne.symm hed), putBy, if_neg hed]
    exact Device.sendPath_of_same rfl rfl

/-- Every move that does not clear device `d` keeps its send path in order. -/
theorem move_sendPath {d : Dev} {m : Move} {s t : State} (huse : s.InUse d) (hreset : m ≠ .reset)
    (hinit : bodyIn m s ≠ some (.init d)) (h : move m s = .next t) :
    (s.dev d).SendPath (putBy d m s) (acceptedBy d m s) (t.dev d) := by
  have same {e : Dev} {D : Device} (htx : D.tx = (s.dev e).tx) (hlog : D.txLog = (s.dev e).txLog) :
      (s.dev d).SendPath [] [] ((s.setDev e D).dev d) :=
    State.dev_setDev_rel (R := fun _ D E => D.SendPath [] [] E) (fun _ _ => Device.sendPath_of_same rfl rfl)
      (Device.sendPath_of_same htx hlog) d
  cases m with
  | fgMicro => exact (fgMicro_undergoes h huse.lt_ndev).sendPath huse hinit
  | fgCommand => exact (fgCommand_undergoes h huse.lt_ndev).sendPath huse hinit
  | htx e => exact htxStep_sendPath huse h
  | hrx e => obtain ⟨-, -, D, rfl, ⟨-, rfl⟩ | ⟨-, rfl⟩⟩ := hrxStep_effect h <;> exact same rfl rfl
  | envRx e b => obtain ⟨-, -, rfl⟩ := envRxStep_next h; exact same rfl rfl
  | envTxReady e => obtain ⟨-, -, rfl⟩ := envTxReadyStep_next h; exact same rfl rfl
  | reset => exact absurd rfl hreset

/-- Settles O55: every move keeps the send path in order, so a run does, and the buffer is empty at its start. -/
theorem sendPathIsFifo : Obligations.SendPathIsFifo := by
  intro ms s t d hinv hi hempty hnever hrun
  obtain ⟨log, fifo⟩ : (s.dev d).SendPath (along (putBy d) ms s) (along (acceptedBy d) ms s) (t.dev d) :=
    moves_chain (fun _ => Device.sendPath_of_same rfl rfl) Device.SendPath.trans move_sendPath ms ⟨hinv, hi⟩ hnever hrun
  rw [RingBuffer.contents_of_empty hempty, List.nil_append] at fifo
  exact ⟨_, log, fifo⟩

end Sys2Proof.Machine
end

section
/-! The receive path is FIFO (spec/20_memory.md R60 (b)). -/

namespace Sys2Proof.Machine

/-! ## What one move returns and keeps -/

/-- Device `d` goes from `D` to `E` on the receive path: the bytes `returned` and those still buffered are the bytes
buffered before and those `kept`, in order, and these are among the bytes taken, which went to the trace. -/
def Device.ReceivePath (D : Device) (returned kept : List Byte) (E : Device) : Prop :=
  returned ++ E.rx.contents = D.rx.contents ++ kept ∧ ∃ taken, E.rxLog = D.rxLog ++ taken ∧ kept.Sublist taken

/-- A device with its receive buffer and trace as before. -/
theorem Device.receivePath_of_same {D E : Device} (hrx : E.rx = D.rx) (hlog : E.rxLog = D.rxLog) :
    D.ReceivePath [] [] E :=
  ⟨by simp [hrx], [], by simp [hlog], List.Sublist.refl _⟩

/-- Two stretches of the receive path in a row. -/
theorem Device.ReceivePath.trans {D E F : Device} {xs ys xs' ys' : List Byte} (hDE : D.ReceivePath xs ys E)
    (hEF : E.ReceivePath xs' ys' F) : D.ReceivePath (xs ++ xs') (ys ++ ys') F := by
  obtain ⟨fifo, taken, log, sub⟩ := hDE
  obtain ⟨fifo', taken', log', sub'⟩ := hEF
  exact ⟨fifo_trans fifo fifo', taken ++ taken', by rw [log', log, List.append_assoc], sub.append sub'⟩

/-- A move other than `HRX(d)` keeps no byte for `d`. -/
theorem keptBy_of_ne {d : Dev} {m : Move} {s : State} (h : m ≠ .hrx d) : keptBy d m s = [] :=
  if_neg fun ⟨hm, _⟩ => h hm

/-- A move without the body of `RXDEQ d` returns no byte of `d`. -/
theorem returnedBy_of_ne {d : Dev} {m : Move} {s : State} (h : bodyIn m s ≠ some (.rxdeq d)) : returnedBy d m s = [] :=
  if_neg h

/-- `RXDEQ` takes the oldest byte off the receive buffer; no other body but that of `INIT` touches it (R125). -/
theorem bodyEffect_contents_rx {i : Instr} {d : Dev} {D E : Device} {r : Response} (hE : bodyEffect i D = some (E, r))
    (hd : i.dev? = some d) (hinit : i ≠ .init d) (hgood : D.rx.Good) :
    (if i = .rxdeq d then D.rx.dequeue.2.toList else []) ++ E.rx.contents = D.rx.contents := by
  obtain ⟨⟨-, -, -, htail, -⟩, -⟩ := hgood
  cases i <;> simp [bodyEffect, Instr.dev?] at hE hd
  case init e => exact absurd (hd ▸ rfl) hinit
  case rxsize e => obtain ⟨-, rfl, -⟩ := hE; simp
  case rxpeek e x => obtain ⟨-, rfl, -⟩ := hE; simp
  case rxdrops e => obtain ⟨rfl, -⟩ := hE; simp
  case send e b => obtain ⟨-, rfl, -⟩ := hE; simp
  case sendb e bytes => obtain ⟨-, rfl, -⟩ := hE; simp
  case rxdeq e =>
    obtain ⟨-, rfl, -⟩ := hE
    simpa [hd] using RingBuffer.dequeue_append_contents htail

/-- A move of FG keeps nothing, and returns from the front of the receive buffer. -/
theorem Device.Undergoes.receivePath {m : Move} {d : Dev} {s : State} {E : Device} (huse : s.InUse d)
    (hinit : bodyIn m s ≠ some (.init d)) (h : Device.Undergoes d (bodyIn m s) (s.dev d) E) :
    (s.dev d).ReceivePath (returnedBy d m s) [] E := by
  obtain ⟨hother, hdata⟩ | ⟨i, F, r, hi, hd, hF, hdata⟩ := h <;> obtain ⟨hrx, hlog, -⟩ := Device.fields_of_data hdata
  · rw [returnedBy_of_ne fun hdeq => hother _ hdeq rfl]
    exact Device.receivePath_of_same hrx hlog
  · have returned : returnedBy d m s = if i = .rxdeq d then (s.dev d).rx.dequeue.2.toList else [] := by
      simp [returnedBy, hi]
    have hne : i ≠ .init d := fun h => hinit (h ▸ hi)
    obtain ⟨⟨-, -, -, -, -, -, -, log, -⟩, -⟩ := bodyEffect_frame hF
    exact ⟨by rw [returned, hrx, List.append_nil, bodyEffect_contents_rx hF hd hne huse.good.1],
      [], by rw [hlog, log, List.append_nil], List.Sublist.refl _⟩

/-- A step of `HRX(e)` takes a byte and keeps it, unless its own receive buffer is full (R140). -/
theorem hrxStep_receivePath {d e : Dev} {s t : State} (huse : s.InUse d) (h : hrxStep e s = .next t) :
    (s.dev d).ReceivePath [] (keptBy d (.hrx e) s) (t.dev d) := by
  obtain ⟨-, -, D, rfl, hD⟩ := hrxStep_effect h
  change (s.dev d).ReceivePath _ _ ((s.setDev e D).dev d)
  by_cases hed : e = d
  · subst hed
    obtain ⟨⟨hwf, -⟩, hok⟩ := huse.good.1
    rw [s.dev_setDev_self e D huse.lt_ndev]
    obtain ⟨hfree, rfl⟩ | ⟨hfull, rfl⟩ := hD
    · have kept : keptBy e (.hrx e) s = [(s.dev e).rxData] := by simp [keptBy, RingBuffer.isFull, hfree]
      rw [kept]
      exact ⟨RingBuffer.contents_enqueue hwf hok hfree _, _, rfl, List.Sublist.refl _⟩
    · have dropped : keptBy e (.hrx e) s = [] := by simp [keptBy, RingBuffer.isFull, hfull]
      rw [dropped]
      exact ⟨(List.append_nil _).symm, _, rfl, List.nil_sublist _⟩
  · rw [s.dev_setDev_other e d D (Ne.symm hed), keptBy_of_ne (by simpa using hed)]
    exact Device.receivePath_of_same rfl rfl

/-- Every move that does not clear device `d` keeps its receive path in order. -/
theorem move_receivePath {d : Dev} {m : Move} {s t : State} (huse : s.InUse d) (hreset : m ≠ .reset)
    (hinit : bodyIn m s ≠ some (.init d)) (h : move m s = .next t) :
    (s.dev d).ReceivePath (returnedBy d m s) (keptBy d m s) (t.dev d) := by
  have same {e : Dev} {D : Device} (hrx : D.rx = (s.dev e).rx) (hlog : D.rxLog = (s.dev e).rxLog) :
      (s.dev d).ReceivePath [] [] ((s.setDev e D).dev d) :=
    State.dev_setDev_rel (R := fun _ D E => D.ReceivePath [] [] E) (fun _ _ => Device.receivePath_of_same rfl rfl)
      (Device.receivePath_of_same hrx hlog) d
  cases m with
  | fgMicro =>
    rw [keptBy_of_ne Move.noConfusion]
    exact (fgMicro_undergoes h huse.lt_ndev).receivePath huse hinit
  | fgCommand =>
    rw [keptBy_of_ne Move.noConfusion]
    exact (fgCommand_undergoes h huse.lt_ndev).receivePath huse hinit
  | hrx e => exact hrxStep_receivePath huse h
  | htx e =>
    rw [keptBy_of_ne Move.noConfusion]
    obtain ⟨-, -, D, rfl, ⟨-, rfl⟩ | ⟨-, rfl⟩⟩ := htxStep_effect h <;> exact same rfl rfl
  | envRx e b =>
    rw [keptBy_of_ne Move.noConfusion]
    obtain ⟨-, -, rfl⟩ := envRxStep_next h; exact same rfl rfl
  | envTxReady e =>
    rw [keptBy_of_ne Move.noConfusion]
    obtain ⟨-, -, rfl⟩ := envTxReadyStep_next h; exact same rfl rfl
  | reset => exact absurd rfl hreset

/-- Settles O56: every move keeps the receive path in order, so a run does, and the buffer is empty at its start. -/
theorem receivePathIsFifo : Obligations.ReceivePathIsFifo := by
  intro ms s t d hinv hi hempty hnever hrun
  obtain ⟨fifo, taken⟩ : (s.dev d).ReceivePath (along (returnedBy d) ms s) (along (keptBy d) ms s) (t.dev d) :=
    moves_chain (fun _ => Device.receivePath_of_same rfl rfl) Device.ReceivePath.trans move_receivePath ms ⟨hinv, hi⟩
      hnever hrun
  rw [RingBuffer.contents_of_empty hempty, List.nil_append] at fifo
  exact ⟨fifo, taken⟩

end Sys2Proof.Machine
end

section
/-! The step makes the scheduled move, a wrapped command is atomic between F1 and F3 (spec/20_memory.md R58, R59), and a
command in progress makes progress whatever the other agents do (R62). -/

namespace Sys2Proof.Machine

/-- Settles O7: the head of the schedule is the move that `nextMove` names. -/
theorem stepMakesTheScheduledMove : Obligations.StepMakesTheScheduledMove := by
  intro s m ms h
  have next : nextMove s = (m, { s with sched := ms }) := by simp [nextMove, h]
  rw [step, next]

/-! ## A command in progress -/

/-- In a good state the registers of the sequencer fit its phase. -/
theorem State.Inv.fgOk {s : State} (h : s.Inv) : s.FgOk := by
  obtain ⟨-, -, -, hfg, -⟩ := h
  exact hfg

/-- The command in progress is wrapped and names a device of the block (R78, R121). -/
theorem State.FgOk.command {s : State} (h : s.FgOk) (busy : s.fg.phase ≠ .idle) :
    ∃ i d, s.fg.cmd = .legal i ∧ i.wrapped = true ∧ i.dev? = some d ∧ d.val < s.ndev := by
  obtain ⟨hcmd, -⟩ := h busy
  cases hc : s.fg.cmd with
  | illegal => simp [hc, Command.inProgressOk] at hcmd
  | legal i =>
    have hi : i.wrapped = true ∧ i.wf s.ndev = true := by simpa [hc, Command.inProgressOk] using hcmd
    obtain ⟨hw, hwf⟩ := hi
    obtain ⟨d, hd⟩ := wrapped_dev hw
    have present : i.devExists s.ndev = true := by
      rw [Instr.wf, Bool.and_eq_true] at hwf
      exact hwf.2
    exact ⟨i, d, rfl, hw, hd, by simpa [Instr.devExists, hd] using present⟩

/-- F2 on a device that its command needs initialised and that is not (R174). -/
theorem fgMicro_body_fault {i : Instr} {s : State} {d : Dev} (hp : s.fg.phase = .cs) (hc : s.fg.cmd = .legal i)
    (hw : i.wrapped = true) (hi : i.dev? = some d) (hd : d.val < s.ndev) (hE : bodyEffect i (s.dev d) = none) :
    fgMicro s = .fault (.uninitialised d) := by
  have body : fgMicro s = bodyStep (bodyOf i) s := by simp [fgMicro, hp, fgBody, hc]
  rw [body, bodyStep, bodyOf_eq i d s hw hi hd, hE]; rfl

/-- F1 comes next at `ACCEPTED` (R121). -/
theorem fgMicro_of_accepted {s : State} (hp : s.fg.phase = .accepted) : fgMicro s = .next (enterStep s) := by
  simp [fgMicro, hp]

/-- F3 comes next at `OP_DONE` (R121). -/
theorem fgMicro_of_opDone {s : State} (hp : s.fg.phase = .opDone) : fgMicro s = .next (exitStep s) := by
  simp [fgMicro, hp]

/-- A micro-step keeps the number of devices (R45). -/
theorem fgMicro_ndev {s t : State} (h : fgMicro s = .next t) : t.ndev = s.ndev := by
  have same : t.config.ndev = s.config.ndev := congrArg Config.ndev (fgMicro_config h)
  simpa [State.config, Config.ndev, State.ndev] using same

/-- A micro-step leaves the requests of the interface alone: ENV and the handlers write them (R37, R38). -/
theorem fgMicro_requests {s t : State} (h : fgMicro s = .next t) (d : Dev) :
    (t.dev d).rxValid = (s.dev d).rxValid ∧ (t.dev d).txReady = (s.dev d).txReady := by
  have written {e : Dev} {D : Device} (hvalid : D.rxValid = (s.dev e).rxValid) (hready : D.txReady = (s.dev e).txReady) :
      ((s.setDev e D).dev d).rxValid = (s.dev d).rxValid ∧ ((s.setDev e D).dev d).txReady = (s.dev d).txReady :=
    State.dev_setDev_rel (R := fun _ D E => E.rxValid = D.rxValid ∧ E.txReady = D.txReady) (fun _ _ => ⟨rfl, rfl⟩)
      ⟨hvalid, hready⟩ d
  obtain hdevs | ⟨e, -, hdevs⟩ | ⟨i, e, D, r, -, -, -, -, hE, hdevs⟩ | ⟨e, -, -, hdevs⟩ := fgMicro_devs h <;>
    rw [State.dev_congr hdevs]
  · exact ⟨rfl, rfl⟩
  · exact written rfl rfl
  · obtain ⟨⟨-, -, -, valid, -, ready, -⟩, -⟩ := bodyEffect_frame hE
    exact written valid ready
  · exact written rfl rfl

/-! ## Atomicity -/

/-- A write of one device that no command's body takes account of: either may come first. -/
def Device.CommutesWithBodies (g : Device → Device) : Prop :=
  ∀ (i : Instr) (D : Device), bodyEffect i (g D) = (bodyEffect i D).map fun p => (g p.1, p.2)

/-- No body reads or writes the receiver's side of the interface (R37). -/
theorem Device.commutesWithBodies_rx (b : Byte) :
    Device.CommutesWithBodies fun D => { D with rxData := b, rxValid := true } := by
  intro i D
  cases i <;> simp [bodyEffect, apply_ite]

/-- No body reads or writes the transmitter's side of the interface (R38). -/
theorem Device.commutesWithBodies_txReady : Device.CommutesWithBodies fun D => { D with txReady := true } := by
  intro i D
  cases i <;> simp [bodyEffect, apply_ite]

/-- F2 takes no account of such a write, to the device of its command or to another. -/
theorem fgMicro_setDev_of_cs {g : Device → Device} (hg : Device.CommutesWithBodies g) {s : State} {d : Dev}
    (hd : d.val < s.ndev) (hfg : s.FgOk) (hp : s.fg.phase = .cs) :
    fgMicro (s.setDev d (g (s.dev d))) = andThen (fgMicro s) fun t => .next (t.setDev d (g (t.dev d))) := by
  obtain ⟨i, e, hc, hw, hi, he⟩ := hfg.command (by simp [hp])
  have he' : e.val < (s.setDev d (g (s.dev d))).ndev := by simpa using he
  have effect : bodyEffect i ((s.setDev d (g (s.dev d))).dev e) =
      (bodyEffect i (s.dev e)).map fun p => (if e = d then g p.1 else p.1, p.2) := by
    by_cases hed : e = d
    · subst hed; simp only [s.dev_setDev_self e _ hd, if_true, hg i]
    · simp only [s.dev_setDev_other d e _ hed, if_neg hed, Prod.mk.eta, Option.map_id']
  cases hE : bodyEffect i (s.dev e) with
  | none =>
    rw [fgMicro_body_fault hp hc hw hi he hE,
      fgMicro_body_fault (s := s.setDev d (g (s.dev d))) hp hc hw hi he' (by rw [effect, hE]; rfl)]
    rfl
  | some p =>
    obtain ⟨D, r⟩ := p
    rw [fgMicro_body_eq hp hc hw hi he hE,
      fgMicro_body_eq (s := s.setDev d (g (s.dev d))) hp hc hw hi he' (by rw [effect, hE]; rfl), andThen_next_eq,
      State.afterBody_dev]
    by_cases hed : e = d
    · subst hed
      rw [s.dev_setDev_self e D hd, if_pos rfl]
      simp [State.afterBody, State.setDev]
    · rw [s.dev_setDev_other e d D (Ne.symm hed), if_neg hed, State.afterBody, State.setDev_comm s d e _ D (Ne.symm hed)]
      rfl

/-- F1, F2 and F3 take no account of such a write. -/
theorem fgMicro_setDev {g : Device → Device} (hg : Device.CommutesWithBodies g) {s : State} {d : Dev}
    (hd : d.val < s.ndev) (hfg : s.FgOk) (hp : s.fg.phase = .accepted ∨ s.fg.phase = .cs ∨ s.fg.phase = .opDone) :
    fgMicro (s.setDev d (g (s.dev d))) = andThen (fgMicro s) fun t => .next (t.setDev d (g (t.dev d))) := by
  obtain hp | hp | hp := hp
  · rw [fgMicro_of_accepted hp, fgMicro_of_accepted (s := s.setDev d _) hp]; rfl
  · exact fgMicro_setDev_of_cs hg hd hfg hp
  · rw [fgMicro_of_opDone hp, fgMicro_of_opDone (s := s.setDev d _) hp]; rfl

/-- What goes on after a result matters only where there is a next state. -/
theorem andThen_congr {o : Result} {k l : State → Result} (h : ∀ t, o = .next t → k t = l t) :
    andThen o k = andThen o l := by
  cases o with
  | next t => exact h t rfl
  | fault r => rfl
  | refused r => rfl

/-- Settles O53: the gate is closed in `CS` and `OP_DONE`, and what ENV writes is of no account to F1, F2 and F3. -/
theorem criticalSectionIsAtomic : Obligations.CriticalSectionIsAtomic := by
  intro s d b hinv hd
  have hfg := hinv.fgOk
  refine ⟨fun hp => ?_, fun hp => ⟨fun hvalid => ?_, fun hready => ?_⟩⟩
  · have busy : s.fg.phase ≠ .idle := by obtain hp | hp := hp <;> simp [hp]
    obtain ⟨-, gate, -⟩ := hfg busy
    simp [hrxEnabled, htxEnabled, gate hp]
  · rw [envRxStep_eq b hd hvalid, andThen_next_eq, fgMicro_setDev (Device.commutesWithBodies_rx b) hd hfg hp]
    exact andThen_congr fun t ht =>
      (envRxStep_eq b (fgMicro_ndev ht ▸ hd) ((fgMicro_requests ht d).1.trans hvalid)).symm
  · rw [envTxReadyStep_eq hd hready, andThen_next_eq, fgMicro_setDev Device.commutesWithBodies_txReady hd hfg hp]
    exact andThen_congr fun t ht =>
      (envTxReadyStep_eq (fgMicro_ndev ht ▸ hd) ((fgMicro_requests ht d).2.trans hready)).symm

/-! ## Progress -/

/-- How many micro-steps are left at most until `fg.phase = IDLE` (R121). -/
def Phase.stepsLeft : Phase → Nat
  | .idle => 0
  | .armed => 1
  | .restored => 2
  | .opDone => 3
  | .cs => 4
  | .accepted => 5

/-- Every body is defined on an initialised device (R174). -/
theorem bodyEffect_of_initialised {i : Instr} {D : Device} (hw : i.wrapped = true) (hi : D.initialised = true) :
    ∃ E r, bodyEffect i D = some (E, r) := by
  cases i <;> simp_all [Instr.wrapped, bodyEffect]

/-- The next micro-step of a command in progress on an initialised device is always enabled, and leaves fewer. -/
theorem fgMicro_progress {s : State} (hfg : s.FgOk) (busy : s.fg.phase ≠ .idle)
    (hall : ∀ d : Dev, d.val < s.ndev → (s.dev d).initialised = true) :
    ∃ t, fgMicro s = .next t ∧ t.fg.phase.stepsLeft < s.fg.phase.stepsLeft := by
  cases hp : s.fg.phase with
  | idle => exact absurd hp busy
  | accepted => exact ⟨_, fgMicro_of_accepted hp, Nat.lt_succ_self 4⟩
  | cs =>
    obtain ⟨i, d, hc, hw, hi, hd⟩ := hfg.command busy
    obtain ⟨D, r, hE⟩ := bodyEffect_of_initialised hw (hall d hd)
    exact ⟨_, fgMicro_body_eq hp hc hw hi hd hE, Nat.lt_succ_self 3⟩
  | opDone => exact ⟨_, fgMicro_of_opDone hp, Nat.lt_succ_self 2⟩
  | restored =>
    have after : fgMicro s = fgAfterExit s := by simp [fgMicro, hp]
    rw [after]
    cases ha : Command.arms s.fg.cmd with
    | none => exact ⟨_, fgAfterExit_of_not_arms ha, Nat.zero_lt_two⟩
    | some d => exact ⟨_, fgAfterExit_of_arms ha, Nat.one_lt_two⟩
  | armed => exact ⟨respondStep s, by simp [fgMicro, hp], Nat.zero_lt_one⟩

/-- As many micro-steps as are left at most lead to `IDLE`. -/
theorem fgRun_finishes : ∀ (n : Nat) {s : State}, s.Inv → (∀ d : Dev, d.val < s.ndev → (s.dev d).initialised = true) →
    s.fg.phase.stepsLeft ≤ n → ∃ t, fgRun n s = .next t ∧ t.fg.phase = .idle
  | 0, s, _, _, hn => by
    refine ⟨s, rfl, ?_⟩
    cases hp : s.fg.phase <;> simp [hp, Phase.stepsLeft] at hn ⊢
  | n + 1, s, hinv, hall, hn => by
    by_cases hp : s.fg.phase = .idle
    · exact ⟨s, fgRun_of_idle _ hp, hp⟩
    · obtain ⟨t, ht, fewer⟩ := fgMicro_progress hinv.fgOk hp hall
      have hall' : ∀ d : Dev, d.val < t.ndev → (t.dev d).initialised = true := fun d hd =>
        fgMicro_initialised ht d (hall d (fgMicro_ndev ht ▸ hd))
      rw [fgRun_succ_of_busy n hp, ht, andThen_next_eq]
      exact fgRun_finishes n (fgMicro_inv ht hinv) hall' (Nat.le_of_lt_succ (fewer.trans_le hn))

/-- Settles O54: in every phase at most five micro-steps are left. -/
theorem commandsInProgressFinish : Obligations.CommandsInProgressFinish := by
  intro s hinv _ hall
  have five : s.fg.phase.stepsLeft ≤ 5 := by cases s.fg.phase <;> decide
  exact fgRun_finishes 5 hinv hall five

end Sys2Proof.Machine
end

section
/-! The encoding (spec/30_encoding.md): a command and a response are read back from their words (R71 to R74, R76), and the
rows of the opcode map and the illegal headers are told by the opcode field (R72, R77). -/

namespace Sys2Proof

/-! ## Commands -/

/-- The port takes exactly the words of a command off a stream that begins with them (R76). -/
theorem takeCommand_encode : ∀ i : Instr, Laws.EncodeSplits.Statement i
  | .init d => Laws.EncodeSplits.init d
  | .irqen d => Laws.EncodeSplits.irqen d
  | .gie v => Laws.EncodeSplits.gie v
  | .csenter => Laws.EncodeSplits.csenter
  | .csexit => Laws.EncodeSplits.csexit
  | .rxsize d => Laws.EncodeSplits.rxsize d
  | .rxdeq d => Laws.EncodeSplits.rxdeq d
  | .rxpeek d x => Laws.EncodeSplits.rxpeek d x
  | .send d b => Laws.EncodeSplits.send d b
  | .sendb d bytes => Laws.EncodeSplits.sendb d bytes
  | .rxdrops d => Laws.EncodeSplits.rxdrops d

/-- A header and the payload words of a command select it in the opcode map (R72). -/
theorem decodeHeader_encodeHeader (i : Instr) :
    decodeHeader (encodeHeader i) (i.payload.map payloadWord) = .ok i := by
  cases i with
  | gie v => cases v <;> decide
  | _ => simp [encodeHeader, decodeHeader_header, Instr.payload]

/-- Settles O1: the port cuts the command off the stream, and its header selects it. -/
theorem decodeInvertsEncode : Obligations.DecodeInvertsEncode := by
  intro i rest fits
  rw [decode, takeCommand_encode i fits rest]
  simp only [decodeHeader_encodeHeader]

/-! ## The rows of the opcode map -/

/-- Every row compares the whole opcode field, so it selects words of its own opcode only (R72). -/
theorem opField_of_selects {r : OpRow} (hr : r ∈ opRows) {w : Word} (h : r.selects w = true) :
    opField w = opField r.pat := by
  have masked : w &&& r.mask = r.pat := by simpa [OpRow.selects] using h
  have whole : ∀ r ∈ opRows, opField r.mask = BitVec.allOnes 4 := by decide
  calc opField w = opField w &&& opField r.mask := by rw [whole r hr, BitVec.and_allOnes]
    _ = opField (w &&& r.mask) := BitVec.extractLsb'_and.symm
    _ = opField r.pat := by rw [masked]

/-- Settles O2: the rows have pairwise distinct opcodes. -/
theorem opcodeRowsAreDisjoint : Obligations.OpcodeRowsAreDisjoint := by
  have distinct : ∀ r ∈ opRows, ∀ r' ∈ opRows, opField r.pat = opField r'.pat → r.pat = r'.pat := by decide
  intro w r r' hr hr' h h'
  exact distinct r hr r' hr' ((opField_of_selects hr h).symm.trans (opField_of_selects hr' h'))

/-! ## Illegal headers -/

/-- What the opcode map makes of a header is no command of a block with `ndev` devices: no row selects the header, or the
row's command names a device the block does not have (R77). -/
def NoCommand (ndev : Nat) : Except Reject Instr → Prop
  | .ok i => ∃ d, i.dev? = some d ∧ ndev ≤ d.val
  | .error _ => True

@[simp] theorem noCommand_ok {ndev : Nat} {i : Instr} :
    NoCommand ndev (.ok i) ↔ ∃ d, i.dev? = some d ∧ ndev ≤ d.val := Iff.rfl

@[simp] theorem noCommand_error (ndev : Nat) (e : Reject) : NoCommand ndev (.error e) := trivial

/-- A row's must-be-zero bits, and then its command. -/
@[simp] theorem noCommand_row {ndev : Nat} {mbz : Prop} [Decidable mbz] {i : Instr} {e : Reject} :
    NoCommand ndev (if mbz then .ok i else .error e) ↔ ¬ mbz ∨ ∃ d, i.dev? = some d ∧ ndev ≤ d.val := by
  by_cases h : mbz <;> simp [h]

/-- A command names a device the block does not have (R77 (c)). -/
theorem Instr.devExists_eq_false_iff {ndev : Nat} {i : Instr} :
    i.devExists ndev = false ↔ ∃ d, i.dev? = some d ∧ ndev ≤ d.val := by
  unfold Instr.devExists
  cases i.dev? <;> simp

/-- When decode answers `ILLEGAL` (R77, R78). -/
theorem decodeCommand_eq_illegal_iff {ndev : Nat} {w : Word} {p : List Word} :
    decodeCommand ndev w p = .illegal ↔ NoCommand ndev (decodeHeader w p) := by
  unfold decodeCommand
  cases decodeHeader w p with
  | ok i => rw [noCommand_ok, ← Instr.devExists_eq_false_iff]; cases h : i.devExists ndev <;> simp [h]
  | error e => simp

/-- `w[7:1]` is what the mask of `GIE` leaves of the operand byte (R72). -/
theorem extractLsb'_header_eq_zero_iff (op : BitVec 4) (d : Dev) (x : Byte) :
    (header op d x).extractLsb' 1 7 = 0 ↔ x &&& 0xFE = 0 := by
  have low : (header op d x).extractLsb' 1 7 = x.extractLsb' 1 7 := BitVec.extractLsb'_append_eq_of_add_le (by decide)
  have bits : ∀ x : Byte, x.extractLsb' 1 7 = 0 ↔ x &&& 0xFE = 0 := by decide
  rw [low, bits]

/-- Settles O3: opcode by opcode, what the row asks of the device and operand fields. -/
theorem illegalHeadersAreThoseListed : Obligations.IllegalHeadersAreThoseListed := by
  intro ndev w p
  rw [← header_fields w]
  generalize opField w = op, devField w = d, operandField w = x
  rw [decodeCommand_eq_illegal_iff]
  simp only [decodeHeader_header, opField_header, devField_header, operandField_header, ne_eq,
    extractLsb'_header_eq_zero_iff]
  have opcodes : op = 0x0 ∨ op = 0x1 ∨ op = 0x2 ∨ op = 0x3 ∨ op = 0x4 ∨ op = 0x5 ∨ op = 0x6 ∨ op = 0x7 ∨ op = 0x8 ∨
      op = 0x9 ∨ op = 0xA ∨ op = 0xB ∨ op = 0xC ∨ op = 0xD ∨ op = 0xE ∨ op = 0xF := by revert op; decide
  rcases opcodes with rfl | rfl | rfl | rfl | rfl | rfl | rfl | rfl | rfl | rfl | rfl | rfl | rfl | rfl | rfl | rfl
  all_goals simp [Instr.dev?, imp_iff_not_or]

/-! ## Responses -/

/-- A status is read back from its code (R74). -/
@[simp] theorem Status.ofBits_bits (st : Status) : Status.ofBits st.bits = st := by
  cases st <;> rfl

/-- Bits 15 and 14 of a response word. -/
theorem Response.extractLsb'_word_status (r : Response) : r.word.extractLsb' 14 2 = r.status.bits :=
  (BitVec.extractLsb'_append_eq_of_le (by decide)).trans BitVec.extractLsb'_append_eq_left

/-- Bits 13 to 9 of a response word. -/
theorem Response.extractLsb'_word_zero (r : Response) : r.word.extractLsb' 9 5 = 0 :=
  (BitVec.extractLsb'_append_eq_of_le (by decide)).trans BitVec.extractLsb'_append_eq_right

/-- Bits 8 to 0 of a response word. -/
theorem Response.extractLsb'_word_value (r : Response) : r.word.extractLsb' 0 9 = r.value :=
  BitVec.extractLsb'_append_eq_right

/-- Settles O5: a response word is the concatenation of its fields. -/
theorem responseWordHoldsStatusAndValue : Obligations.ResponseWordHoldsStatusAndValue := by
  refine ⟨fun v => ⟨rfl, rfl, rfl, rfl⟩, fun r => ⟨?_, r.extractLsb'_word_zero⟩⟩
  rw [decodeResponse, r.extractLsb'_word_status, r.extractLsb'_word_value, Status.ofBits_bits]

end Sys2Proof
end

section
/-! How FG takes a command off the port and answers it (spec/30_encoding.md R74, R76, R77, R78, R82; spec/42_channel_commands.md
R121). -/

namespace Sys2Proof.Machine

/-! ## The command on the port -/

/-- A header with as many words after it as it asks for is the next command (R76, R78). -/
theorem nextCommand_of_cmdIn {s : State} {w : Word} {p rest : List Word} (hin : s.cmdIn = w :: (p ++ rest))
    (hp : p.length = payloadCount w) :
    nextCommand s = some (decodeCommand s.ndev w p, { s with cmdIn := rest }) := by
  have taken : takeCommand s.cmdIn = some (w, p, rest) := by simp [hin, takeCommand, ← hp]
  simp [nextCommand, taken]

/-- No command is presented while words of its payload are missing (R121, the precondition of F0). -/
theorem nextCommand_of_missing {s : State} {w : Word} {ws : List Word} (hin : s.cmdIn = w :: ws)
    (hmissing : ws.length < payloadCount w) : nextCommand s = none := by
  have waiting : takeCommand s.cmdIn = none := by simp [hin, takeCommand, hmissing]
  simp [nextCommand, waiting]

/-- Settles O58: what follows the header is split at the count that the header gives. -/
theorem headerTellsTheCommandLength : Obligations.HeaderTellsTheCommandLength := by
  intro s w ws n hin hn
  change n = payloadCount w at hn
  subst hn
  refine ⟨fun enough => ?_, nextCommand_of_missing hin⟩
  exact nextCommand_of_cmdIn (by rw [List.take_append_drop, hin]) (List.length_take_of_le enough)

/-! ## Whole commands -/

/-- Settles O51, by what the port presents: nothing, an illegal header, a wrapped command or an unwrapped one. -/
theorem wholeCommandIsItsMicroSteps : Obligations.WholeCommandIsItsMicroSteps := fun _ => fgCommand_of_idle

/-- `GIE`, `CSENTER`, `CSEXIT`, `IRQEN` give one response word (R74). -/
theorem exec_unwrapped_rspOut {i : Instr} {s t : State} (hw : i.wrapped = false) (h : exec i s = .next t) :
    ∃ r : Response, t.rspOut = s.rspOut ++ [r.word] := by
  cases i <;> simp [Instr.wrapped] at hw
  case irqen d => obtain ⟨-, ⟨-, rfl⟩ | ⟨-, rfl⟩⟩ := irqen_next h <;> exact ⟨_, rfl⟩
  case gie v => obtain ⟨-, rfl⟩ := gie_next h; exact ⟨_, rfl⟩
  case csenter => obtain ⟨-, ⟨-, rfl⟩ | ⟨-, rfl⟩⟩ := csenter_next h <;> exact ⟨_, rfl⟩
  case csexit => obtain ⟨-, ⟨-, rfl⟩ | ⟨_, _, -, rfl⟩⟩ := csexit_next h <;> exact ⟨_, rfl⟩

/-- A command run to its end leaves the sequencer idle and has given one response word (R74, R121). -/
theorem exec_answers {i : Instr} {s t : State} (h : exec i s = .next t) :
    t.fg.phase = .idle ∧ ∃ r : Response, t.rspOut = s.rspOut ++ [r.word] := by
  have hp := exec_next_idle h
  cases hw : i.wrapped with
  | false => exact ⟨(congrArg Fg.phase (exec_unwrapped_fg hw h)).trans hp, exec_unwrapped_rspOut hw h⟩
  | true =>
    obtain ⟨d, hi⟩ := wrapped_dev hw
    obtain ⟨-, ⟨-, rfl⟩ | ⟨-, D, r, -, rfl⟩⟩ := exec_wrapped_next hw hi h
    · exact ⟨hp, _, rfl⟩
    · exact ⟨rfl, r, rfl⟩

/-- Everything a whole command can do: answer an illegal header, or run the command on the port (R77, R82). -/
theorem fgCommand_next_of_idle {s t : State} (hp : s.fg.phase = .idle) (h : fgCommand s = .next t) :
    ∃ c u, nextCommand s = some (c, u) ∧
      ((c = .illegal ∧ t = u.respond ⟨.err, 0⟩) ∨ ∃ i, c = .legal i ∧ exec i u = .next t) := by
  rw [fgCommand, if_pos hp, fgWhole] at h
  split at h
  · cases h
  · rename_i u hn; cases h; exact ⟨_, u, hn, .inl ⟨rfl, rfl⟩⟩
  · rename_i i u hn; exact ⟨_, u, hn, .inr ⟨i, rfl, h⟩⟩

/-- Settles O31: an illegal header is answered `ERR`, a legal command by its meaning. -/
theorem everyCommandIsAnsweredOnce : Obligations.EveryCommandIsAnsweredOnce := by
  intro s t hp h
  obtain ⟨c, u, hn, hc⟩ := fgCommand_next_of_idle hp h
  obtain ⟨w, p, rest, -, -, rfl⟩ := nextCommand_some hn
  obtain ⟨-, rfl⟩ | ⟨i, -, he⟩ := hc
  · exact ⟨hp, _, rfl⟩
  · exact exec_answers (s := { s with cmdIn := rest }) he

/-! ## Commands that are answered `ERR` -/

/-- The word of the response `ERR` 0 (R74). -/
theorem State.respond_err (s : State) : s.respond ⟨.err, 0⟩ = { s with rspOut := s.rspOut ++ [0xC000] } := rfl

/-- Settles O10: no command runs its body on a device the block does not have. -/
theorem commandOnAbsentDeviceAnswersErr : Obligations.CommandOnAbsentDeviceAnswersErr := by
  intro s i d hp hi hd
  rw [exec_absent_eq i d s hi hp (Nat.not_lt.2 hd), State.respond_err]

/-- FG answers an illegal header in one step, whether it is asked for a micro-step or for a whole command (R77, R121). -/
theorem move_of_illegal {s u : State} {m : Move} (hm : m = .fgCommand ∨ m = .fgMicro) (hp : s.fg.phase = .idle)
    (hn : nextCommand s = some (.illegal, u)) : move m s = .next (u.respond ⟨.err, 0⟩) := by
  obtain rfl | rfl := hm
  · simp [move, fgCommand, hp, fgWhole, hn, answerIllegal]
  · simp [move, fgMicro, hp, fgAccept, hn, answerIllegal]

/-- Settles O9: the header and its payload come off the port, and the move made off the schedule. -/
theorem stepAnswersErrToAnIllegalHeader : Obligations.StepAnswersErrToAnIllegalHeader := by
  intro s w p rest ms hp hin hlen hill
  have next (l : List Move) : nextCommand { s with sched := l } = some (.illegal, { s with sched := l, cmdIn := rest }) :=
    (nextCommand_of_cmdIn (s := { s with sched := l }) hin hlen).trans (by rw [← hill]; rfl)
  have answer (l : List Move) {m : Move} (hm : m = .fgCommand ∨ m = .fgMicro) :
      move m { s with sched := l } = .next { s with cmdIn := rest, sched := l, rspOut := s.rspOut ++ [0xC000] } :=
    move_of_illegal (s := { s with sched := l }) hm hp (next l)
  refine ⟨fun hs => ?_, fun hs => ?_⟩
  · have first : nextMove s = (.fgCommand, { s with sched := s.sched }) := by simp [nextMove, hs]
    rw [step, first]
    exact answer s.sched (.inl rfl)
  · obtain hs | hs := hs <;> rw [stepMakesTheScheduledMove s _ ms hs]
    · exact answer ms (.inl rfl)
    · exact answer ms (.inr rfl)

end Sys2Proof.Machine
end

section
/-! The RingBuffer primitives: their pseudocode (spec/40_ringbuffer.md R92 to R97), and what they return and leave as a
function of the live elements (R98 to R102). -/

namespace Sys2Proof.Machine

/-! ## Equations -/

/-- `rb_enqueue` rejects where no cell is free (R93). -/
theorem RingBuffer.enqueue_of_full {B : RingBuffer} (b : Byte) (h : B.count = B.cap) : B.enqueue b = (B, false) := by
  obtain ⟨-, he⟩ | ⟨hfree, -⟩ := B.enqueue_cases b
  · exact he
  · exact absurd h hfree

/-- `rb_enqueue` writes at `head` where a cell is free (R93). -/
theorem RingBuffer.enqueue_of_free {B : RingBuffer} (b : Byte) (h : B.count ≠ B.cap) : B.enqueue b =
    ({ B with storage := B.storage.write B.head b, head := (B.head + 1) % B.cap, count := B.count + 1 }, true) := by
  obtain ⟨hfull, -⟩ | ⟨-, he⟩ := B.enqueue_cases b
  · exact absurd hfull h
  · exact he

/-- `rb_dequeue` changes nothing where there is no live element (R95). -/
theorem RingBuffer.dequeue_of_empty {B : RingBuffer} (h : B.count = 0) : B.dequeue = (B, none) := by
  obtain ⟨-, he⟩ | ⟨hlive, -⟩ := B.dequeue_cases
  · exact he
  · exact absurd h hlive

/-- `rb_dequeue` gives up the cell at `tail` where there is a live element (R95). -/
theorem RingBuffer.dequeue_of_live {B : RingBuffer} (h : B.count ≠ 0) : B.dequeue =
    ({ B with tail := (B.tail + 1) % B.cap, count := B.count - 1 }, some (B.cell B.tail)) := by
  obtain ⟨hempty, -⟩ | ⟨-, he⟩ := B.dequeue_cases
  · exact absurd hempty h
  · exact he

/-- `rb_peek` finds nothing from `count` on (R96). -/
theorem RingBuffer.peek_of_count_le {B : RingBuffer} {i : Nat} (h : B.count ≤ i) : B.peek i = none := if_pos h

/-- `rb_peek` reads the cell of a logical index below `count` (R96). -/
theorem RingBuffer.peek_of_lt_count {B : RingBuffer} {i : Nat} (h : i < B.count) :
    B.peek i = some (B.cell (B.phys i)) := if_neg (Nat.not_le.2 h)

/-- Settles O32: each primitive tests `count` and nothing else. -/
theorem ringPrimitiveEquations : Obligations.RingPrimitiveEquations := fun _ b _ =>
  ⟨rfl, RingBuffer.enqueue_of_full b, RingBuffer.enqueue_of_free b, RingBuffer.dequeue_of_empty,
    RingBuffer.dequeue_of_live, RingBuffer.peek_of_count_le, RingBuffer.peek_of_lt_count, rfl⟩

/-! ## The invariants -/

/-- `rb_enqueue_batch` keeps R23. -/
theorem RingBuffer.ok_enqueueBatch {B : RingBuffer} (h : B.Ok) (bs : List Byte) : (B.enqueueBatch bs).1.Ok :=
  RingBuffer.enqueueBatch_keeps (P := RingBuffer.Ok) (fun _ b h => RingBuffer.ok_enqueue h b) bs B h

/-- Settles O33: a batch keeps R23 because every single enqueue does. -/
theorem ringPrimitivesKeepTheInvariant : Obligations.RingPrimitivesKeepTheInvariant := fun B b bytes =>
  ⟨B.ok_init, fun h => ⟨RingBuffer.ok_enqueue h b, RingBuffer.ok_enqueueBatch h bytes, RingBuffer.ok_dequeue h⟩⟩

/-! ## What the primitives return of the live elements -/

/-- `rb_enqueue` accepts unless the buffer is full (R93). -/
theorem RingBuffer.enqueue_snd (B : RingBuffer) (b : Byte) : (B.enqueue b).2 = decide (B.count ≠ B.cap) := by
  obtain ⟨hfull, he⟩ | ⟨hfree, he⟩ := B.enqueue_cases b
  · simp [he, hfull]
  · simp [he, hfree]

/-- `rb_dequeue` returns the oldest live element and leaves the others (R100). -/
theorem RingBuffer.dequeue_contents {B : RingBuffer} (h : B.Ok) :
    B.dequeue.2 = B.contents.head? ∧ B.dequeue.1.contents = B.contents.tail := by
  obtain ⟨-, ⟨-, htail⟩, -⟩ := h
  have fifo := RingBuffer.dequeue_append_contents htail
  by_cases hempty : B.count = 0
  · rw [RingBuffer.dequeue_of_empty hempty, RingBuffer.contents_of_empty hempty]
    exact ⟨rfl, rfl⟩
  · rw [← fifo, RingBuffer.dequeue_snd_of_live hempty]
    exact ⟨rfl, rfl⟩

/-- `rb_peek` returns the live element at its index (R100). -/
theorem RingBuffer.peek_eq_getElem? (B : RingBuffer) (i : Nat) : B.peek i = B.contents[i]? := by
  obtain hlive | hdead := Nat.lt_or_ge i B.count
  · simp [RingBuffer.peek_of_lt_count hlive, RingBuffer.contents, hlive]
  · rw [RingBuffer.peek_of_count_le hdead, List.getElem?_eq_none (B.contents_length.trans_le hdead)]

/-- `n` dequeues return the `n` oldest live elements in order (R100). -/
theorem RingBuffer.drain_eq_take (n : Nat) : ∀ {B : RingBuffer}, B.Ok → B.drain n = B.contents.take n := by
  induction n with
  | zero => exact fun _ => List.take_zero.symm
  | succ n ih =>
    intro B h
    obtain ⟨oldest, others⟩ := RingBuffer.dequeue_contents h
    rw [RingBuffer.drain, ih (RingBuffer.ok_dequeue h), oldest, others]
    cases B.contents with
    | nil => simp
    | cons b bs => rfl

/-- Enqueueing bytes that fit and dequeueing everything returns what was there and then the bytes (R100). -/
theorem RingBuffer.drain_enqueueBatch {B : RingBuffer} {bs : List Byte} (hwf : B.storage.wf) (h : B.Ok)
    (hfit : bs.length ≤ B.cap - B.count) :
    (B.enqueueBatch bs).1.drain (B.count + bs.length) = B.contents ++ bs := by
  rw [RingBuffer.drain_eq_take _ (RingBuffer.ok_enqueueBatch h bs),
    RingBuffer.contents_enqueueBatch bs hwf h, List.take_of_length_le hfit]
  exact List.take_of_length_le (by simp)

/-- Settles O34: by the cases of each primitive, and for the FIFO law by `RingBuffer.drain_enqueueBatch`. -/
theorem ringPrimitivesActOnContents : Obligations.RingPrimitivesActOnContents := by
  intro B b bytes i hwf h
  obtain ⟨oldest, others⟩ := RingBuffer.dequeue_contents h
  rw [B.contents_length]
  refine ⟨RingBuffer.contents_of_empty rfl, fun hfree => ?_, fun hfull => ?_, oldest, others,
    B.peek_eq_getElem? i, rfl, RingBuffer.drain_enqueueBatch hwf h⟩
  · exact ⟨RingBuffer.contents_enqueue hwf h hfree.ne b, congrArg Prod.snd (RingBuffer.enqueue_of_free b hfree.ne)⟩
  · rw [RingBuffer.enqueue_of_full b hfull]
    exact ⟨rfl, rfl⟩

/-! ## The batch -/

/-- `rb_enqueue_batch` counts up once for each byte it accepts (R94). -/
theorem RingBuffer.enqueueBatch_count (bs : List Byte) :
    ∀ B : RingBuffer, (B.enqueueBatch bs).1.count = B.count + (B.enqueueBatch bs).2 := by
  induction bs with
  | nil => exact fun _ => rfl
  | cons b bs ih =>
    intro B
    by_cases hfull : B.count = B.cap
    · rw [B.enqueueBatch_full _ hfull, Nat.add_zero]
    · rw [B.enqueueBatch_cons b bs hfull, ih, RingBuffer.enqueue_of_free b hfull]
      exact Nat.add_right_comm _ _ _

/-- `rb_enqueue_batch` never writes `tail` (R94). -/
theorem RingBuffer.enqueueBatch_tail (B : RingBuffer) (bs : List Byte) : (B.enqueueBatch bs).1.tail = B.tail :=
  RingBuffer.enqueueBatch_keeps (P := fun E => E.tail = B.tail) (fun E b h => (E.enqueue_tail b).trans h) bs B rfl

/-- `rb_enqueue_batch` accepts as many bytes as there are free cells (R102). -/
theorem RingBuffer.enqueueBatch_snd {B : RingBuffer} (hwf : B.storage.wf) (h : B.Ok) (bs : List Byte) :
    (B.enqueueBatch bs).2 = min bs.length (B.cap - B.count) := by
  have accepted : B.count + (B.enqueueBatch bs).2 = B.count + min bs.length (B.cap - B.count) := by
    calc B.count + (B.enqueueBatch bs).2
        = (B.enqueueBatch bs).1.contents.length := by rw [RingBuffer.contents_length, RingBuffer.enqueueBatch_count]
      _ = B.count + min bs.length (B.cap - B.count) := by
        rw [RingBuffer.contents_enqueueBatch bs hwf h, List.length_append, B.contents_length,
          List.length_take, Nat.min_comm]
  exact Nat.add_left_cancel accepted

/-- `rb_enqueue_batch` advances `head` once for each byte it accepts (R102): R23 (c) has it follow `count`. -/
theorem RingBuffer.enqueueBatch_head {B : RingBuffer} (h : B.Ok) (bs : List Byte) :
    (B.enqueueBatch bs).1.head = (B.head + (B.enqueueBatch bs).2) % B.cap := by
  calc (B.enqueueBatch bs).1.head
      = (B.tail + (B.count + (B.enqueueBatch bs).2)) % B.cap := by
        rw [← RingBuffer.phys_count (RingBuffer.ok_enqueueBatch h bs), RingBuffer.phys, RingBuffer.enqueueBatch_tail,
          RingBuffer.enqueueBatch_count, RingBuffer.cap_congr (B.enqueueBatch_k bs)]
    _ = (B.head + (B.enqueueBatch bs).2) % B.cap := by
        rw [← RingBuffer.phys_count h, RingBuffer.phys, Nat.mod_add_mod, Nat.add_assoc]

/-- Settles O35: `contents` and R23 afterwards fix the registers. -/
theorem batchClosedForm : Obligations.BatchClosedForm := by
  intro B bytes hwf h
  have accepted : (B.enqueueBatch bytes).2 = min bytes.length (2 ^ B.k - B.count) :=
    RingBuffer.enqueueBatch_snd hwf h bytes
  rw [← accepted]
  refine ⟨rfl, ?_, RingBuffer.enqueueBatch_count bytes B, RingBuffer.enqueueBatch_head h bytes,
    B.enqueueBatch_tail bytes⟩
  rw [RingBuffer.contents_enqueueBatch bytes hwf h, accepted, Nat.min_comm, ← List.take_eq_take_min, RingBuffer.cap]

/-! ## Dead cells -/

/-- `rb_enqueue` leaves what a batch of its one byte leaves (R100). -/
theorem RingBuffer.contents_enqueue_eq_take {B : RingBuffer} (hwf : B.storage.wf) (h : B.Ok) (b : Byte) :
    (B.enqueue b).1.contents = B.contents ++ [b].take (B.cap - B.count) := by
  rw [← B.enqueueBatch_singleton b, RingBuffer.contents_enqueueBatch [b] hwf h]

/-- Settles O36: all that a primitive returns or leaves live is a function of the capacity and of `contents`. -/
theorem resultsDependOnLiveBytesOnly : Obligations.ResultsDependOnLiveBytesOnly := by
  intro B B' b bytes i hwf h hwf' h' hk hcontents
  have cap : B.cap = B'.cap := RingBuffer.cap_congr hk
  have count : B.count = B'.count := by rw [← B.contents_length, hcontents, B'.contents_length]
  obtain ⟨oldest, others⟩ := RingBuffer.dequeue_contents h
  obtain ⟨oldest', others'⟩ := RingBuffer.dequeue_contents h'
  refine ⟨?init, ?accepts, ?enqueued, ?accepted, ?batched, ?oldest, ?others, ?peek, count⟩
  case init => rw [RingBuffer.contents_of_empty B.init_count, RingBuffer.contents_of_empty B'.init_count]
  case accepts => rw [B.enqueue_snd, B'.enqueue_snd, count, cap]
  case enqueued =>
    rw [RingBuffer.contents_enqueue_eq_take hwf h, RingBuffer.contents_enqueue_eq_take hwf' h', hcontents, count, cap]
  case accepted => rw [RingBuffer.enqueueBatch_snd hwf h, RingBuffer.enqueueBatch_snd hwf' h', count, cap]
  case batched =>
    rw [RingBuffer.contents_enqueueBatch bytes hwf h, RingBuffer.contents_enqueueBatch bytes hwf' h', hcontents,
      count, cap]
  case oldest => rw [oldest, oldest', hcontents]
  case others => rw [others, others', hcontents]
  case peek => rw [B.peek_eq_getElem?, B'.peek_eq_getElem?, hcontents]

end Sys2Proof.Machine
end

section
/-! The interrupt gate: the commands that write it (spec/41_critical_section.md R114 to R116) with what they and `IRQEN`
leave unchanged (spec/42_channel_commands.md R123), and the implicit critical section, which gives it back (R111 to R113). -/

namespace Sys2Proof.Machine

/-! ## What the commands of one step leave unchanged -/

/-- The bytes of storage are those of the buffers (R22). -/
theorem SameMemory.of_ring {s t : State} (h : ∀ (e : Dev) (q : Dir), t.ring e q = s.ring e q) : SameMemory s t :=
  fun e q a => congrArg (·.cell a) (h e q)

/-- Writing a device that keeps both its buffers leaves every buffer as it was. -/
theorem State.ring_setDev {s : State} {d : Dev} {D : Device} (hrx : D.rx = (s.dev d).rx) (htx : D.tx = (s.dev d).tx)
    (e : Dev) (q : Dir) : (s.setDev d D).ring e q = s.ring e q := by
  obtain ⟨rx, tx⟩ := State.dev_setDev_rel (R := fun _ D E => E.rx = D.rx ∧ E.tx = D.tx) (fun _ _ => ⟨rfl, rfl⟩)
    ⟨hrx, htx⟩ e
  cases q with
  | rx => exact rx
  | tx => exact tx

/-- Everything a command of one step can do: write the gate and `cs_stack` and respond, or set `RXIE[d]` and respond
(R114 to R116, R123). -/
theorem exec_unwrapped_next {i : Instr} {s t : State} (hw : i.wrapped = false) (h : exec i s = .next t) :
    (∃ (gate : Bool) (stack : List Bool) (r : Response),
      t = ({ s with ie := gate, csStack := stack } : State).respond r) ∨
    ∃ d : Dev, i = .irqen d ∧ t = (s.setDev d { s.dev d with rxie := true }).respond ⟨.ok, 0⟩ := by
  cases i <;> simp [Instr.wrapped] at hw
  case irqen d =>
    obtain ⟨-, ⟨-, rfl⟩ | ⟨-, rfl⟩⟩ := irqen_next h
    · exact .inl ⟨_, _, _, rfl⟩
    · exact .inr ⟨d, rfl, rfl⟩
  case gie v => obtain ⟨-, rfl⟩ := gie_next h; exact .inl ⟨_, _, _, rfl⟩
  case csenter => obtain ⟨-, ⟨-, rfl⟩ | ⟨-, rfl⟩⟩ := csenter_next h <;> exact .inl ⟨_, _, _, rfl⟩
  case csexit => obtain ⟨-, ⟨-, rfl⟩ | ⟨_, _, -, rfl⟩⟩ := csexit_next h <;> exact .inl ⟨_, _, _, rfl⟩

/-- No command of one step touches a buffer: `IRQEN` alone writes a device, and of it `RXIE` (R123). -/
theorem exec_unwrapped_ring {i : Instr} {s t : State} (hw : i.wrapped = false) (h : exec i s = .next t) (e : Dev)
    (q : Dir) : t.ring e q = s.ring e q := by
  obtain ⟨_, _, _, rfl⟩ | ⟨d, -, rfl⟩ := exec_unwrapped_next hw h
  · rfl
  · exact State.ring_setDev (s := s) (d := d) (D := { s.dev d with rxie := true }) rfl rfl e q

/-- A command of one step writes the gate, `cs_stack`, `RXIE` and the response port at most. -/
theorem exec_unwrapped_outside {i : Instr} {s t : State} (hw : i.wrapped = false) (h : exec i s = .next t) :
    SameOutside s t := by
  obtain ⟨_, _, _, rfl⟩ | ⟨d, -, rfl⟩ := exec_unwrapped_next hw h
  · exact ⟨rfl, rfl, rfl, rfl, rfl⟩
  · exact ⟨rfl, s.ndev_setDev d _, rfl, rfl, rfl⟩

/-- `IRQEN` is the only command of one step that writes a device (R123). -/
theorem exec_unwrapped_devs {i : Instr} {s t : State} (hw : i.wrapped = false) (hirqen : ∀ d : Dev, i ≠ .irqen d)
    (h : exec i s = .next t) : t.devs = s.devs := by
  obtain ⟨_, _, _, rfl⟩ | ⟨d, hi, -⟩ := exec_unwrapped_next hw h
  · rfl
  · exact absurd hi (hirqen d)

/-- `GIE` does not touch `cs_stack` (R116). -/
theorem gie_csStack {v : Bool} {s t : State} (h : exec (.gie v) s = .next t) : t.csStack = s.csStack := by
  obtain ⟨-, rfl⟩ := gie_next h
  rfl

/-- `IRQEN d` writes `RXIE[d]` at most (R123). -/
theorem irqen_frame {d : Dev} {s t : State} (h : exec (.irqen d) s = .next t) :
    t.ie = s.ie ∧ t.csStack = s.csStack ∧ (∀ e : Dev, e ≠ d → t.dev e = s.dev e) ∧
      ∃ v : Bool, t.dev d = { s.dev d with rxie := v } := by
  obtain ⟨-, ⟨-, rfl⟩ | ⟨hd, rfl⟩⟩ := irqen_next h
  · exact ⟨rfl, rfl, fun _ _ => rfl, _, rfl⟩
  · exact ⟨rfl, rfl, fun e he => s.dev_setDev_other d e _ he, true, s.dev_setDev_self d _ hd⟩

/-- Settles O27: what all four leave, and then what each leaves beside that. -/
theorem gateCommandsFrame : Obligations.GateCommandsFrame := by
  intro s t i hw h
  have ring := exec_unwrapped_ring hw h
  refine ⟨SameMemory.of_ring ring, exec_unwrapped_outside hw h, exec_unwrapped_fg hw h, ring, ?gie, ?stack, ?irqen⟩
  case gie => rintro v rfl; exact ⟨gie_csStack h, exec_unwrapped_devs hw nofun h⟩
  case stack => rintro (rfl | rfl) <;> exact exec_unwrapped_devs hw nofun h
  case irqen => rintro d rfl; exact irqen_frame h

/-! ## The implicit critical section -/

/-- F2 of the command in progress writes its device, `fg.rsp` and `fg.phase` (R121). -/
theorem fgMicro_next_of_cs {s t : State} (hp : s.fg.phase = .cs) (h : fgMicro s = .next t) :
    ∃ d D r, t = s.afterBody d D r := by
  cases hc : s.fg.cmd with
  | illegal => simp [fgMicro, hp, fgBody, hc] at h
  | legal i =>
    obtain ⟨-, d, -, D, r, -, ht⟩ := fgMicro_body_next hp hc h
    exact ⟨d, D, r, ht⟩

/-- While the gate is closed no handler runs (R154), so the only moves of the other agents are those of ENV, which write
neither the gate nor the sequencer; a reset event abandons the command (R170). -/
theorem move_of_gate_closed {m : Move} {s t : State} (hie : s.ie = false) (hmicro : m ≠ .fgMicro)
    (hcommand : m ≠ .fgCommand) (hreset : m ≠ .reset) (h : move m s = .next t) : t.ie = s.ie ∧ t.fg = s.fg := by
  cases m with
  | fgMicro => exact absurd rfl hmicro
  | fgCommand => exact absurd rfl hcommand
  | hrx d =>
    obtain ⟨enabled, -⟩ := hrxStep_next h
    obtain ⟨-, gate, -⟩ := (hrxEnabled_iff d s).1 enabled
    exact nomatch hie.symm.trans gate
  | htx d =>
    obtain ⟨enabled, -⟩ := htxStep_next h
    obtain ⟨-, gate, -⟩ := (htxEnabled_iff d s).1 enabled
    exact nomatch hie.symm.trans gate
  | envRx d b => obtain ⟨-, -, rfl⟩ := envRxStep_next h; exact ⟨rfl, rfl⟩
  | envTxReady d => obtain ⟨-, -, rfl⟩ := envTxReadyStep_next h; exact ⟨rfl, rfl⟩
  | reset => exact absurd rfl hreset

/-- Settles O52: F1 saves `IE` in `fg.sv`, F2 writes neither, and F3 gives it back. -/
theorem implicitSectionRestoresIe : Obligations.ImplicitSectionRestoresIe := by
  intro s t u v hp hF1 hF2 hF3
  rw [fgMicro_of_accepted hp] at hF1
  cases hF1
  obtain ⟨d, D, r, rfl⟩ := fgMicro_next_of_cs rfl hF2
  rw [fgMicro_of_opDone rfl] at hF3
  cases hF3
  exact ⟨rfl, rfl, rfl, rfl, fun m x hmicro hcommand hreset =>
    ⟨move_of_gate_closed rfl hmicro hcommand hreset, move_of_gate_closed rfl hmicro hcommand hreset⟩⟩

/-! ## The commands that write the gate -/

/-- The word of the response `OK` 0 (R74). -/
theorem State.respond_ok (s : State) : s.respond ⟨.ok, 0⟩ = { s with rspOut := s.rspOut ++ [0x0000] } := rfl

/-- Settles O13: `GIE` has one case. -/
theorem gieWritesIe : Obligations.GieWritesIe := by
  intro s v hp
  have words : encode (.gie v) = [if v then 0x3001 else 0x3000] := by cases v <;> rfl
  refine ⟨words, ?_⟩
  rw [exec, execGie, whenIdle_eq s _ hp, State.respond_ok]

/-- Settles O14, by whether `cs_stack` is full. -/
theorem csenterSavesAndClearsIe : Obligations.CsenterSavesAndClearsIe := by
  intro s hp
  refine ⟨rfl, fun full => ?_, fun free => ?_⟩ <;> rw [exec, execCsenter, whenIdle_eq s _ hp, State.csSize]
  · rw [if_pos full, State.respond_err]
  · rw [if_neg free, State.respond_ok]

/-- Settles O15, by whether `cs_stack` is empty. -/
theorem csexitRestoresIe : Obligations.CsexitRestoresIe := by
  intro s hp
  refine ⟨rfl, fun empty => ?_, fun v rest top => ?_⟩ <;> rw [exec, execCsexit, whenIdle_eq s _ hp]
  · simp only [empty, State.respond_err]
  · simp only [top, State.respond_ok]

end Sys2Proof.Machine
end

section
/-! What each command that reaches a device does to it and answers (spec/42_channel_commands.md R122 to R129): its body on
the device, then the whole command, which is that body between the steps of the sequencer (R121). -/

namespace Sys2Proof.Machine

/-! ## Bodies -/

/-- The body of `RXSIZE` answers the count and leaves the device (R124). -/
theorem bodyEffect_rxsize (d : Dev) {D : Device} (hi : D.initialised = true) :
    bodyEffect (.rxsize d) D = some (D, ⟨.ok, countValue D.rx.count⟩) := if_pos hi

/-- The body of `RXDEQ` leaves an empty receive buffer as it is (R125). -/
theorem bodyEffect_rxdeq_of_empty (d : Dev) {D : Device} (hi : D.initialised = true) (h : D.rx.count = 0) :
    bodyEffect (.rxdeq d) D = some (D, ⟨.empty, 0⟩) :=
  (if_pos hi).trans (by rw [RingBuffer.dequeue_of_empty h]; rfl)

/-- The body of `RXDEQ` takes the byte at `tail` out (R125). -/
theorem bodyEffect_rxdeq_of_live (d : Dev) {D : Device} (hi : D.initialised = true) (h : D.rx.count ≠ 0) :
    bodyEffect (.rxdeq d) D = some ({ D with
        rx := { D.rx with tail := (D.rx.tail + 1) % D.rx.cap, count := D.rx.count - 1 } },
      ⟨.ok, zext9 (D.rx.cell D.rx.tail)⟩) :=
  (if_pos hi).trans (by rw [RingBuffer.dequeue_of_live h]; rfl)

/-- The body of `RXPEEK` shows the byte at a logical index below `count` (R126). -/
theorem bodyEffect_rxpeek_of_lt (d : Dev) {x : Byte} {D : Device} (hi : D.initialised = true)
    (h : x.toNat < D.rx.count) :
    bodyEffect (.rxpeek d x) D = some (D, ⟨.ok, zext9 (D.rx.cell (D.rx.phys x.toNat))⟩) :=
  (if_pos hi).trans (by rw [peekIndex, RingBuffer.peek_of_lt_count h]; rfl)

/-- The body of `RXPEEK` finds nothing from `count` on (R126). -/
theorem bodyEffect_rxpeek_of_le (d : Dev) {x : Byte} {D : Device} (hi : D.initialised = true)
    (h : D.rx.count ≤ x.toNat) : bodyEffect (.rxpeek d x) D = some (D, ⟨.empty, 0⟩) :=
  (if_pos hi).trans (by rw [peekIndex, RingBuffer.peek_of_count_le h]; rfl)

/-- The body of `SEND` leaves a full send buffer as it is (R127). -/
theorem bodyEffect_send_of_full (d : Dev) (b : Byte) {D : Device} (hi : D.initialised = true)
    (h : D.tx.count = D.tx.cap) : bodyEffect (.send d b) D = some (D, ⟨.full, 0⟩) :=
  (if_pos hi).trans (by rw [RingBuffer.enqueue_of_full b h]; rfl)

/-- The body of `SEND` writes its byte at `head` where a cell is free (R127). -/
theorem bodyEffect_send_of_free (d : Dev) (b : Byte) {D : Device} (hi : D.initialised = true)
    (h : D.tx.count ≠ D.tx.cap) :
    bodyEffect (.send d b) D = some ({ D with
        tx := { D.tx with storage := D.tx.storage.write D.tx.head b, head := (D.tx.head + 1) % D.tx.cap,
                          count := D.tx.count + 1 } },
      ⟨.ok, 1⟩) :=
  (if_pos hi).trans (by rw [RingBuffer.enqueue_of_free b h]; rfl)

/-- The body of `SENDB` is a batch; its status says whether all bytes were accepted (R128). -/
theorem bodyEffect_sendb (d : Dev) (bytes : List Byte) {D : Device} (hi : D.initialised = true) :
    bodyEffect (.sendb d bytes) D = some ({ D with tx := (D.tx.enqueueBatch bytes).1 },
      ⟨if (D.tx.enqueueBatch bytes).2 = bytes.length then .ok else .full, countValue (D.tx.enqueueBatch bytes).2⟩) := by
  have response : batchResponse bytes.length (D.tx.enqueueBatch bytes).2 = _ :=
    (apply_ite (Response.mk · (countValue (D.tx.enqueueBatch bytes).2)) _ Status.ok Status.full).symm
  rw [← response]
  exact if_pos hi

/-! ## Whole commands -/

/-- A wrapped command is its body and, for `SEND` and `SENDB`, the arming step, answered (R121). -/
theorem exec_of_bodyEffect {i : Instr} {d : Dev} {s : State} {D : Device} {r : Response} (hw : i.wrapped = true)
    (hi : i.dev? = some d) (hp : s.fg.phase = .idle) (hd : d.val < s.ndev) (hE : bodyEffect i (s.dev d) = some (D, r)) :
    exec i s = .next ((s.setDev d (armEffect i D)).answered i r) := by
  rw [exec_wrapped_eq i d s hw hi hp hd, hE]

/-- A wrapped command whose body leaves the device and that has no arming step changes nothing outside the sequencer. -/
theorem exec_of_bodyEffect_same {i : Instr} {d : Dev} {s : State} {r : Response} (hw : i.wrapped = true)
    (hi : i.dev? = some d) (ha : i.arms = none) (hp : s.fg.phase = .idle) (hd : d.val < s.ndev)
    (hE : bodyEffect i (s.dev d) = some (s.dev d, r)) : exec i s = .next (s.answered i r) := by
  have kept : armEffect i (s.dev d) = s.dev d := by rw [armEffect, ha]
  rw [exec_of_bodyEffect hw hi hp hd hE, kept, s.setDev_dev d hd]

/-- Settles O11: the body of `INIT` is defined on every device of the block. -/
theorem initEmptiesBothBuffers : Obligations.InitEmptiesBothBuffers := fun s d hp =>
  ⟨rfl, fun hd => exec_of_bodyEffect (s := s) (d := d) rfl rfl hp hd rfl,
    commandOnAbsentDeviceAnswersErr s (.init d) d hp rfl⟩

/-- Settles O12: `IRQEN` has no body, it is one step. -/
theorem irqenEnablesReceive : Obligations.IrqenEnablesReceive := by
  intro s d hp
  refine ⟨rfl, fun hd => ?_, commandOnAbsentDeviceAnswersErr s (.irqen d) d hp rfl⟩
  rw [exec, execIrqen, whenIdle_eq s _ hp, whenPresent_eq d s _ hd, State.respond_ok]
  rfl

/-- Settles O16: `RXSIZE` reads `count` and writes nothing. -/
theorem rxsizeAnswersCount : Obligations.RxsizeAnswersCount := fun s d hp hi =>
  ⟨rfl, exec_of_bodyEffect_same rfl rfl rfl hp (s.lt_of_initialised d hi) (bodyEffect_rxsize d hi)⟩

/-- Settles O17, by whether the receive buffer is empty. -/
theorem rxdeqReturnsTheOldestByte : Obligations.RxdeqReturnsTheOldestByte := fun s d hp hi =>
  have hd := s.lt_of_initialised d hi
  ⟨rfl, fun empty => exec_of_bodyEffect_same rfl rfl rfl hp hd (bodyEffect_rxdeq_of_empty d hi empty),
    fun live => exec_of_bodyEffect rfl rfl hp hd (bodyEffect_rxdeq_of_live d hi live)⟩

/-- Settles O18, by whether the index is below `count`. -/
theorem rxpeekShowsALogicalIndex : Obligations.RxpeekShowsALogicalIndex := fun s d _ hp hi =>
  have hd := s.lt_of_initialised d hi
  ⟨rfl, fun live => exec_of_bodyEffect_same rfl rfl rfl hp hd (bodyEffect_rxpeek_of_lt d hi live),
    fun beyond => exec_of_bodyEffect_same rfl rfl rfl hp hd (bodyEffect_rxpeek_of_le d hi beyond)⟩

/-- Settles O19, by whether the send buffer is full. -/
theorem sendEnqueuesAndArms : Obligations.SendEnqueuesAndArms := fun s d b hp hi =>
  have hd := s.lt_of_initialised d hi
  ⟨rfl, fun full => exec_of_bodyEffect rfl rfl hp hd (bodyEffect_send_of_full d b hi full),
    fun free => exec_of_bodyEffect rfl rfl hp hd (bodyEffect_send_of_free d b hi free)⟩

/-- Settles O20: the body is a batch, whose closed form gives the accepted count and the buffer (R102). -/
theorem sendbEnqueuesAPrefixAndArms : Obligations.SendbEnqueuesAPrefixAndArms := by
  intro s d bytes hp hi hwf hok
  obtain ⟨accepted, contents, count, head, tail⟩ := batchClosedForm (s.dev d).tx bytes hwf hok
  rw [← accepted] at contents count head
  exact ⟨rfl, ((s.dev d).tx.enqueueBatch bytes).1, ((s.dev d).tx.enqueueBatch bytes).2, accepted,
    (s.dev d).tx.enqueueBatch_k bytes, contents, count, head, tail,
    exec_of_bodyEffect rfl rfl hp (s.lt_of_initialised d hi) (bodyEffect_sendb d bytes hi)⟩

/-- Settles O21: the body of `RXDROPS` is defined on every device of the block. -/
theorem rxdropsReadsTheCounter : Obligations.RxdropsReadsTheCounter := fun s d hp hd =>
  ⟨rfl, exec_of_bodyEffect_same (s := s) (d := d) rfl rfl rfl hp hd rfl⟩

end Sys2Proof.Machine
end

section
/-! The sequencer runs the command that stands on the port (spec/30_encoding.md R78, R82): F0 takes it, and the micro-steps
F1 to F5 do what the table of spec/42_channel_commands.md R121 says. -/

namespace Sys2Proof.Machine

/-! ## F0 -/

/-- A well-formed command that the words on the port decode to is the next command (R78). -/
theorem nextCommand_of_decode {s : State} {i : Instr} {rest : List Word} (h : decode s.cmdIn = .ok (i, rest))
    (hwf : i.wf s.ndev = true) : nextCommand s = some (.legal i, { s with cmdIn := rest }) := by
  obtain ⟨-, present⟩ := Bool.and_eq_true_iff.1 hwf
  unfold decode at h
  split at h
  · cases h
  · rename_i w p tail taken
    split at h
    · rename_i j hj
      cases h
      simp [nextCommand, taken, decodeCommand, hj, present]
    · cases h

/-- Settles O6: what FG does at `IDLE` is told by the command that the port presents. -/
theorem stepRunsTheDecodedCommand : Obligations.StepRunsTheDecodedCommand := by
  intro s i rest ms hp hdecode hwf
  have next (l : List Move) :
      nextCommand { s with sched := l } = some (.legal i, { s with sched := l, cmdIn := rest }) :=
    nextCommand_of_decode (s := { s with sched := l }) hdecode hwf
  have whole (l : List Move) : fgCommand { s with sched := l } = exec i { s with sched := l, cmdIn := rest } := by
    simp [fgCommand, hp, fgWhole, next l]
  have micro (l : List Move) : fgMicro { s with sched := l } =
      if i.wrapped then .next (acceptStep i { s with sched := l, cmdIn := rest })
      else exec i { s with sched := l, cmdIn := rest } := by
    simp [fgMicro, hp, fgAccept, next l]
  refine ⟨fun hs => ?_, fun hs => ?_, fun hs hw => ?_, fun hs hw => ?_⟩
  · have first : nextMove s = (.fgCommand, { s with sched := s.sched }) := by simp [nextMove, hs]
    rw [step, first]
    exact whole s.sched
  · rw [stepMakesTheScheduledMove s _ ms hs]
    exact whole ms
  · rw [stepMakesTheScheduledMove s _ ms hs]
    exact (micro ms).trans (if_neg (Bool.eq_false_iff.1 hw))
  · rw [stepMakesTheScheduledMove s _ ms hs]
    exact (micro ms).trans (if_pos hw)

/-! ## F1 to F5 -/

/-- F4 arms for `SEND d` and `SENDB d` (R121). -/
theorem Command.arms_of_sendsTo {c : Command} {d : Dev} (h : Command.sendsTo d c) : Command.arms c = some d := by
  obtain ⟨b, rfl⟩ | ⟨bytes, rfl⟩ := h <;> rfl

/-- F4 comes next at `RESTORED` where the command has one (R121). -/
theorem fgMicro_of_arms {s : State} {d : Dev} (hp : s.fg.phase = .restored) (h : Command.arms s.fg.cmd = some d) :
    fgMicro s = .next (armStep d s) := by
  rw [← fgAfterExit_of_arms h, fgMicro, hp]

/-- F5 comes last (R121): after F4, or after F3 where the command has no F4. -/
theorem fgMicro_of_last {s : State}
    (h : s.fg.phase = .armed ∨ s.fg.phase = .restored ∧ ∀ d : Dev, ¬ Command.sendsTo d s.fg.cmd) :
    fgMicro s = .next (respondStep s) := by
  obtain hp | ⟨hp, sends_none⟩ := h
  · rw [fgMicro, hp]
  · have arms_none : Command.arms s.fg.cmd = none :=
      Option.eq_none_iff_forall_not_mem.2 fun d ha => sends_none d (Command.sendsTo_of_arms ha)
    rw [← fgAfterExit_of_not_arms arms_none, fgMicro, hp]

/-- Settles O8: step by step, and F2 command by command with the body of each. -/
theorem microStepsOfAWrappedCommand : Obligations.MicroStepsOfAWrappedCommand := by
  intro s
  refine ⟨fgMicro_of_accepted, fun d hp hd => ?body, fgMicro_of_opDone,
    fun d hp hsends => fgMicro_of_arms hp (Command.arms_of_sendsTo hsends), fgMicro_of_last⟩
  have body {i : Instr} {D : Device} {r : Response} (hw : i.wrapped = true) (hi : i.dev? = some d)
      (hE : bodyEffect i (s.dev d) = some (D, r)) (hc : s.fg.cmd = .legal i) :
      fgMicro s = .next (s.afterBody d D r) := fgMicro_body_eq hp hc hw hi hd hE
  refine ⟨body rfl rfl rfl, body rfl rfl rfl, fun hi =>
    ⟨body rfl rfl (bodyEffect_rxsize d hi), ?dequeueEmpty, ?dequeue, ?peek, ?peekBeyond, ?sendFull, ?send, ?batch⟩⟩
  case dequeueEmpty => exact fun hc empty => body rfl rfl (bodyEffect_rxdeq_of_empty d hi empty) hc
  case dequeue => exact fun hc live => body rfl rfl (bodyEffect_rxdeq_of_live d hi live) hc
  case peek => exact fun x hc live => body rfl rfl (bodyEffect_rxpeek_of_lt d hi live) hc
  case peekBeyond => exact fun x hc beyond => body rfl rfl (bodyEffect_rxpeek_of_le d hi beyond) hc
  case sendFull => exact fun b hc full => body rfl rfl (bodyEffect_send_of_full d b hi full) hc
  case send => exact fun b hc free => body rfl rfl (bodyEffect_send_of_free d b hi free) hc
  case batch => exact fun bytes => body rfl rfl (bodyEffect_sendb d bytes hi)

end Sys2Proof.Machine
end

section
/-! What the commands that reach a device leave unchanged (spec/42_channel_commands.md R122 to R129, R131): the cells their
bodies may store to, and the registers they and the steps around them write. -/

namespace Sys2Proof.Machine

/-! ## What a body leaves of its device -/

/-- The cells of `B(d,TX)` that the body of a command may store to: the one at `head` unless the buffer is full (R93), and
for a batch those from `head` on, as many as are accepted (R94; nothing is said of a `head` outside the buffer). -/
def MayStore (i : Instr) (B : RingBuffer) (x : Nat) : Prop :=
  match i with
  | .send _ _ => B.count ≠ B.cap ∧ x = B.head
  | .sendb _ bytes =>
    bytes ≠ [] ∧ (B.head < B.cap → ∃ j : Nat, j < (B.enqueueBatch bytes).2 ∧ x = (B.head + j) % B.cap)
  | .init _ => False
  | .irqen _ => False
  | .gie _ => False
  | .csenter => False
  | .csexit => False
  | .rxsize _ => False
  | .rxdeq _ => False
  | .rxpeek _ _ => False
  | .rxdrops _ => False

/-- Only the commands that send store to a cell (R22, R50). -/
theorem sendsTo_of_mayStore {i : Instr} {B : RingBuffer} {x : Nat} (h : MayStore i B x) :
    ∃ d, Command.sendsTo d (.legal i) := by
  cases i with
  | send d b => exact ⟨d, .inl ⟨b, rfl⟩⟩
  | sendb d bytes => exact ⟨d, .inr ⟨bytes, rfl⟩⟩
  | _ => exact h.elim

/-- A body stores to no cell of `B(d,RX)` and to the cells named only of `B(d,TX)`. -/
theorem bodyEffect_cells {i : Instr} {D E : Device} {r : Response} (hE : bodyEffect i D = some (E, r)) :
    E.rx.storage = D.rx.storage ∧ ∀ x : Nat, ¬ MayStore i D.tx x → E.tx.cell x = D.tx.cell x := by
  cases i <;> simp [bodyEffect] at hE
  case init d => obtain ⟨rfl, -⟩ := hE; exact ⟨rfl, fun _ _ => rfl⟩
  case rxsize d => obtain ⟨-, rfl, -⟩ := hE; exact ⟨rfl, fun _ _ => rfl⟩
  case rxdeq d => obtain ⟨-, rfl, -⟩ := hE; exact ⟨D.rx.dequeue_storage, fun _ _ => rfl⟩
  case rxpeek d y => obtain ⟨-, rfl, -⟩ := hE; exact ⟨rfl, fun _ _ => rfl⟩
  case rxdrops d => obtain ⟨rfl, -⟩ := hE; exact ⟨rfl, fun _ _ => rfl⟩
  case send d b =>
    obtain ⟨-, rfl, -⟩ := hE
    refine ⟨rfl, fun x hx => ?_⟩
    obtain ⟨-, he⟩ | ⟨hfree, he⟩ := D.tx.enqueue_cases b <;> rw [he]
    exact Memory.read_write_other _ _ _ _ fun hhead => hx ⟨hfree, hhead⟩
  case sendb d bytes =>
    obtain ⟨-, rfl, -⟩ := hE
    refine ⟨rfl, fun x hx => ?_⟩
    by_cases hempty : bytes = []
    · rw [hempty]; rfl
    · obtain ⟨hhead, hcells⟩ := Classical.not_imp.1 fun hbatch => hx ⟨hempty, hbatch⟩
      exact D.tx.enqueueBatch_cell bytes hhead x hcells

/-- A buffer with the capacity and the `tail` of another differs from it in storage, `head` and `count` only. -/
theorem RingBuffer.eq_of_k_of_tail {B E : RingBuffer} (hk : E.k = B.k) (htail : E.tail = B.tail) :
    ∃ (m : Memory) (x y : Nat), E = { B with storage := m, head := x, count := y } := by
  cases E; cases hk; cases htail; exact ⟨_, _, _, rfl⟩

/-- The body of a command that sends writes storage, `head` and `count` of the send buffer (R127, R128). -/
theorem bodyEffect_of_arms {i : Instr} {d : Dev} {D E : Device} {r : Response} (ha : i.arms = some d)
    (hE : bodyEffect i D = some (E, r)) :
    ∃ (m : Memory) (x y : Nat), E = { D with tx := { D.tx with storage := m, head := x, count := y } } := by
  cases i <;> simp [Instr.arms] at ha <;> simp [bodyEffect] at hE <;> obtain ⟨-, rfl, -⟩ := hE
  case send e b =>
    obtain ⟨m, x, y, htx⟩ := RingBuffer.eq_of_k_of_tail (D.tx.enqueue_k b) (D.tx.enqueue_tail b)
    exact ⟨m, x, y, by rw [htx]⟩
  case sendb e bytes =>
    obtain ⟨m, x, y, htx⟩ := RingBuffer.eq_of_k_of_tail (D.tx.enqueueBatch_k bytes) (D.tx.enqueueBatch_tail bytes)
    exact ⟨m, x, y, by rw [htx]⟩

/-- A body writes the two buffers and the flag of U1 at most. -/
theorem bodyEffect_writes {i : Instr} {D E : Device} {r : Response} (hE : bodyEffect i D = some (E, r)) :
    ∃ (B B' : RingBuffer) (v : Bool), E = { D with rx := B, tx := B', initialised := v } := by
  obtain ⟨kept, -⟩ := bodyEffect_frame hE
  cases E
  obtain ⟨rfl, rfl, rfl, rfl, rfl, rfl, rfl, rfl, rfl⟩ := kept
  exact ⟨_, _, _, rfl⟩

/-- The arming step leaves both buffers (R121). -/
theorem armEffect_rings (i : Instr) (D : Device) : (armEffect i D).rx = D.rx ∧ (armEffect i D).tx = D.tx := by
  unfold armEffect
  split <;> exact ⟨rfl, rfl⟩

/-- Writing a device stores to those cells only that the write does not keep. -/
theorem State.cell_setDev {s : State} {d : Dev} {D : Device} {P : Nat → Prop}
    (hrx : D.rx.storage = (s.dev d).rx.storage) (htx : ∀ x, ¬ P x → D.tx.cell x = (s.dev d).tx.cell x) (e : Dev)
    (q : Dir) (x : Nat) (h : ¬ (e = d ∧ q = .tx ∧ P x)) : (s.setDev d D).cell e q x = s.cell e q x := by
  obtain ⟨rx, tx⟩ := State.dev_setDev_rel
    (R := fun e D E => E.rx.storage = D.rx.storage ∧ (¬ (e = d ∧ P x) → E.tx.cell x = D.tx.cell x))
    (fun _ _ => ⟨rfl, fun _ => rfl⟩) ⟨hrx, fun hP => htx x fun hx => hP ⟨rfl, hx⟩⟩ e
  cases q with
  | rx => exact congrArg (·.read x) rx
  | tx => exact tx fun ⟨he, hx⟩ => h ⟨he, rfl, hx⟩

/-! ## What a whole command leaves -/

/-- A wrapped command gives the gate back and writes the device it names, the sequencer and the response port (R131). -/
theorem exec_wrapped_frame {i : Instr} {d : Dev} {s t : State} (hw : i.wrapped = true) (hi : i.dev? = some d)
    (h : exec i s = .next t) :
    SameOutside s t ∧ t.ie = s.ie ∧ t.csStack = s.csStack ∧ ∀ e : Dev, e ≠ d → t.dev e = s.dev e := by
  obtain ⟨-, ⟨-, rfl⟩ | ⟨-, D, r, -, rfl⟩⟩ := exec_wrapped_next hw hi h
  · exact ⟨⟨rfl, rfl, rfl, rfl, rfl⟩, rfl, rfl, fun _ _ => rfl⟩
  · exact ⟨⟨rfl, s.ndev_setDev d _, rfl, rfl, rfl⟩, rfl, rfl, fun e he => s.dev_setDev_other d e _ he⟩

/-- A wrapped command stores to those cells only that its body may store to. -/
theorem exec_wrapped_cell {i : Instr} {d : Dev} {s t : State} (hw : i.wrapped = true) (hi : i.dev? = some d)
    (h : exec i s = .next t) (e : Dev) (q : Dir) (x : Nat)
    (hx : ¬ (e = d ∧ q = .tx ∧ MayStore i (s.dev d).tx x)) : t.cell e q x = s.cell e q x := by
  obtain ⟨-, ⟨-, rfl⟩ | ⟨-, D, r, hE, rfl⟩⟩ := exec_wrapped_next hw hi h
  · rfl
  · obtain ⟨rx, tx⟩ := bodyEffect_cells hE
    obtain ⟨armed_rx, armed_tx⟩ := armEffect_rings i D
    exact State.cell_setDev (D := armEffect i D) (by rw [armed_rx, rx]) (by rwa [armed_tx]) e q x hx

/-- A wrapped command leaves the device it names, which the block may not have, or does its body and arms. -/
theorem exec_wrapped_dev {i : Instr} {d : Dev} {s t : State} (hw : i.wrapped = true) (hi : i.dev? = some d)
    (h : exec i s = .next t) :
    t.dev d = s.dev d ∨ ∃ E r, bodyEffect i (s.dev d) = some (E, r) ∧ t.dev d = armEffect i E := by
  obtain ⟨-, ⟨-, rfl⟩ | ⟨hd, E, r, hE, rfl⟩⟩ := exec_wrapped_next hw hi h
  · exact .inl rfl
  · exact .inr ⟨E, r, hE, s.dev_setDev_self d _ hd⟩

/-- A command that sends writes the send buffer of its device, but not its `tail`, and `TXIE` (R127, R128). -/
theorem exec_arms_dev {i : Instr} {d : Dev} {s t : State} (hw : i.wrapped = true) (ha : i.arms = some d)
    (h : exec i s = .next t) :
    ∃ (m : Memory) (x y : Nat) (v : Bool),
      t.dev d = { s.dev d with tx := { (s.dev d).tx with storage := m, head := x, count := y }, txie := v } := by
  obtain hdev | ⟨E, r, hE, hdev⟩ := exec_wrapped_dev hw (Instr.dev?_of_arms ha) h
  · exact ⟨_, _, _, _, hdev⟩
  · obtain ⟨m, x, y, rfl⟩ := bodyEffect_of_arms ha hE
    exact ⟨m, x, y, true, by rw [hdev, armEffect, ha]⟩

/-- Settles O24: the body of `SEND` stores to the cell at `head`, and to none where the buffer is full. -/
theorem sendFrame : Obligations.SendFrame := by
  intro s t d b h
  obtain ⟨outside, gate, stack, others⟩ := exec_wrapped_frame (d := d) rfl rfl h
  have cells := exec_wrapped_cell (d := d) rfl rfl h
  refine ⟨?head, ?full, outside, gate, stack, others, exec_arms_dev rfl rfl h⟩
  case head =>
    rintro a rfl e q x hx
    exact cells e q x fun ⟨he, hq, _, hhead⟩ => hx ⟨he, hq, hhead⟩
  case full => exact fun hfull e q x => cells e q x fun ⟨_, _, hfree, _⟩ => hfree hfull

/-- Settles O25: the body of `SENDB` stores to the cells of the accepted bytes, and to none for an empty batch. -/
theorem sendbFrame : Obligations.SendbFrame := by
  intro s t d bytes h
  obtain ⟨outside, gate, stack, others⟩ := exec_wrapped_frame (d := d) rfl rfl h
  have cells := exec_wrapped_cell (d := d) rfl rfl h
  refine ⟨?accepted, ?empty, outside, gate, stack, others, exec_arms_dev rfl rfl h⟩
  case accepted =>
    exact fun hhead e q x hx => cells e q x fun ⟨he, hq, _, hbatch⟩ => hx ⟨he, hq, hbatch hhead⟩
  case empty => exact fun hempty e q x => cells e q x fun ⟨_, _, hbytes, _⟩ => hbytes hempty

/-- Settles O26: the body of `INIT` stores to no cell, and writes what `rb_init` writes. -/
theorem initFrame : Obligations.InitFrame := by
  intro s t d h
  obtain ⟨outside, gate, stack, others⟩ := exec_wrapped_frame (d := d) rfl rfl h
  refine ⟨fun e q x => exec_wrapped_cell (d := d) rfl rfl h e q x fun ⟨_, _, hstore⟩ => hstore,
    outside, gate, stack, others, ?_⟩
  obtain hdev | ⟨E, r, hE, hdev⟩ := exec_wrapped_dev (d := d) rfl rfl h
  · exact ⟨_, _, _, _, _, _, _, hdev⟩
  · cases hE
    exact ⟨_, _, _, _, _, _, _, hdev⟩

/-! ## The receive-direction commands and `RXDROPS` -/

/-- `RXSIZE`, `RXDEQ`, `RXPEEK` and `RXDROPS` are wrapped and neither send nor initialise. -/
theorem receives_of_cases {i : Instr} {d : Dev}
    (h : i = .rxsize d ∨ i = .rxdeq d ∨ (∃ x, i = .rxpeek d x) ∨ i = .rxdrops d) :
    i.wrapped = true ∧ i.dev? = some d ∧ i.arms = none ∧ ∀ e : Dev, i ≠ .init e := by
  obtain rfl | rfl | ⟨x, rfl⟩ | rfl := h <;> exact ⟨rfl, rfl, rfl, nofun⟩

/-- A body that neither sends nor initialises leaves the device, unless it is that of `RXDEQ`, which dequeues (R124 to
R126, R129). -/
theorem bodyEffect_of_receives {i : Instr} {D E : Device} {r : Response} (ha : i.arms = none)
    (hinit : ∀ e : Dev, i ≠ .init e) (hE : bodyEffect i D = some (E, r)) :
    E = D ∨ (∃ d : Dev, i = .rxdeq d) ∧ E = { D with rx := D.rx.dequeue.1 } := by
  cases i <;> simp [bodyEffect] at hE
  case init d => exact absurd rfl (hinit d)
  case rxsize d => obtain ⟨-, rfl, -⟩ := hE; exact .inl rfl
  case rxdeq d => obtain ⟨-, rfl, -⟩ := hE; exact .inr ⟨⟨d, rfl⟩, rfl⟩
  case rxpeek d x => obtain ⟨-, rfl, -⟩ := hE; exact .inl rfl
  case rxdrops d => obtain ⟨rfl, -⟩ := hE; exact .inl rfl
  case send d b => cases ha
  case sendb d bytes => cases ha

/-- `rb_dequeue` writes `tail` and `count` at most (R95). -/
theorem RingBuffer.dequeue_writes (B : RingBuffer) : ∃ x y : Nat, B.dequeue.1 = { B with tail := x, count := y } := by
  obtain ⟨-, he⟩ | ⟨-, he⟩ := B.dequeue_cases <;> exact ⟨_, _, by rw [he]⟩

/-- Settles O23: none of the four stores, and of their bodies only that of `RXDEQ` writes the device. -/
theorem receiveCommandsFrame : Obligations.ReceiveCommandsFrame := by
  intro s t d i hcases h
  obtain ⟨hw, hi, ha, hinit⟩ := receives_of_cases hcases
  obtain ⟨outside, gate, stack, others⟩ := exec_wrapped_frame hw hi h
  have memory : SameMemory s t := fun e q x => exec_wrapped_cell hw hi h e q x fun ⟨_, _, hstore⟩ => by
    obtain ⟨e, hsends⟩ := sendsTo_of_mayStore hstore
    exact nomatch ha.symm.trans (Command.arms_of_sendsTo hsends)
  refine ⟨memory, outside, gate, stack, others, ?_⟩
  obtain ⟨-, ⟨-, rfl⟩ | ⟨hd, E, r, hE, rfl⟩⟩ := exec_wrapped_next hw hi h
  · exact ⟨fun _ => rfl, _, _, rfl⟩
  · have unarmed : armEffect i E = E := by rw [armEffect, ha]
    have read : ((s.setDev d E).answered i r).dev d = E := s.dev_setDev_self d E hd
    rw [unarmed, read]
    obtain rfl | ⟨⟨e, rfl⟩, rfl⟩ := bodyEffect_of_receives ha hinit hE
    · exact ⟨fun _ => by rw [s.setDev_dev d hd, State.answered_devs], _, _, rfl⟩
    · cases hi
      obtain ⟨x, y, hrx⟩ := (s.dev d).rx.dequeue_writes
      exact ⟨fun hne => absurd rfl hne, x, y, by rw [hrx]⟩

/-! ## Every command -/

/-- Settles O28: a wrapped command gives the gate back, and `IRQEN`, the only other one, does not touch it. -/
theorem commandsLeaveIeAsFound : Obligations.CommandsLeaveIeAsFound := by
  intro s t i hcsenter hcsexit hgie h
  cases hw : i.wrapped with
  | true =>
    obtain ⟨d, hi⟩ := wrapped_dev hw
    obtain ⟨-, gate, -⟩ := exec_wrapped_frame hw hi h
    exact gate
  | false =>
    cases i <;> simp [Instr.wrapped] at hw
    case irqen d => obtain ⟨gate, -⟩ := irqen_frame h; exact gate
    case gie v => exact absurd rfl (hgie v)
    case csenter => exact absurd rfl hcsenter
    case csexit => exact absurd rfl hcsexit

/-! ## Step F2 -/

/-- Settles O57: F2 writes the device of its command, as its body does, `fg.rsp` and `fg.phase`. -/
theorem bodyStepFrame : Obligations.BodyStepFrame := by
  intro s t i hp hc h
  obtain ⟨-, d, hi, D, r, hE, rfl⟩ := fgMicro_body_next hp hc h
  obtain ⟨rx, tx⟩ := bodyEffect_cells hE
  have cells (e : Dev) (q : Dir) (x : Nat) (hx : ¬ (e = d ∧ q = .tx ∧ MayStore i (s.dev d).tx x)) :
      (s.afterBody d D r).cell e q x = s.cell e q x := State.cell_setDev rx tx e q x hx
  refine ⟨⟨rfl, s.ndev_setDev d D, rfl, rfl, rfl⟩, rfl, rfl, rfl, rfl, rfl, ?others, ?writes, ?send, ?sendb, ?memory⟩
  case others => exact fun e he => s.dev_setDev_other d e D fun hed => he (hed ▸ hi)
  case writes =>
    exact State.dev_setDev_rel
      (R := fun _ D E => ∃ (B B' : RingBuffer) (v : Bool), E = { D with rx := B, tx := B', initialised := v })
      (fun _ _ => ⟨_, _, _, rfl⟩) (bodyEffect_writes hE)
  case send =>
    rintro d b rfl e q x hx
    cases hi
    exact cells e q x fun ⟨he, hq, _, hhead⟩ => hx ⟨he, hq, hhead⟩
  case sendb =>
    rintro d bytes rfl hhead e q x hx
    cases hi
    exact cells e q x fun ⟨he, hq, _, hbatch⟩ => hx ⟨he, hq, hbatch hhead⟩
  case memory =>
    intro hsends e q x
    refine cells e q x fun ⟨_, _, hstore⟩ => ?_
    obtain ⟨d, hd⟩ := sendsTo_of_mayStore hstore
    exact hsends d hd

end Sys2Proof.Machine
end

section
/-! What holds across devices and between commands (spec/42_channel_commands.md section 6): no command and no handler step
reads or writes a device that it does not name (R120, R132), and at `IDLE` no byte is stranded (R133). -/

namespace Sys2Proof.Machine

/-- `f` neither reads nor writes anything of device `e`: it does the same whatever stands in the place of `e`. -/
def Ignores (e : Dev) (f : State → Result) : Prop :=
  ∀ (s : State) (D : Device), f (s.setDev e D) = andThen (f s) fun t => .next (t.setDev e D)

/-! ## Commands -/

/-- No command is taken while another is in progress (R36). -/
theorem exec_of_busy (i : Instr) {s : State} (hp : s.fg.phase ≠ .idle) : exec i s = .fault .commandInProgress := by
  cases i <;> exact if_neg hp

/-- A command stops alike wherever the sequencer is busy, so only `IDLE` matters. -/
theorem ignores_exec_of_idle {i : Instr} {e : Dev} (h : ∀ (s : State) (D : Device), s.fg.phase = .idle →
    exec i (s.setDev e D) = andThen (exec i s) fun t => .next (t.setDev e D)) : Ignores e (exec i) := by
  intro s D
  by_cases hp : s.fg.phase = .idle
  · exact h s D hp
  · rw [exec_of_busy i hp, exec_of_busy i (s := s.setDev e D) hp]; rfl

/-- A command is answered `ERR` wherever its device is absent, so only the devices of the block matter. -/
theorem ignores_exec_of_present {i : Instr} {d e : Dev} (hi : i.dev? = some d) (h : ∀ (s : State) (D : Device),
    s.fg.phase = .idle → d.val < s.ndev → d.val < (s.setDev e D).ndev →
      exec i (s.setDev e D) = andThen (exec i s) fun t => .next (t.setDev e D)) : Ignores e (exec i) := by
  refine ignores_exec_of_idle fun s D hp => ?_
  by_cases hd : d.val < s.ndev
  · exact h s D hp hd (by rwa [State.ndev_setDev])
  · rw [exec_absent_eq i d s hi hp hd, exec_absent_eq i d (s.setDev e D) hi hp (by rwa [State.ndev_setDev])]; rfl

/-- The body and the arming step of a wrapped command are those of the device it names (R121). -/
theorem ignores_exec_wrapped {i : Instr} {d e : Dev} (hw : i.wrapped = true) (hi : i.dev? = some d) (hde : d ≠ e) :
    Ignores e (exec i) := by
  refine ignores_exec_of_present hi fun s D hp hd hd' => ?_
  rw [exec_wrapped_eq i d s hw hi hp hd, exec_wrapped_eq i d (s.setDev e D) hw hi hp hd', s.dev_setDev_other e d D hde]
  cases bodyEffect i (s.dev d) with
  | none => rfl
  | some p =>
    simp only [andThen_next_eq, s.setDev_comm e d D _ (Ne.symm hde)]
    rfl

/-- `IRQEN` sets a flag of the device it names (R123). -/
theorem ignores_exec_irqen {d e : Dev} (hde : d ≠ e) : Ignores e (exec (.irqen d)) := by
  refine ignores_exec_of_present rfl fun s D hp hd hd' => ?_
  obtain ⟨-, answer, -⟩ := irqenEnablesReceive s d hp
  obtain ⟨-, answer', -⟩ := irqenEnablesReceive (s.setDev e D) d hp
  rw [answer hd, answer' hd', s.dev_setDev_other e d D hde, s.setDev_comm e d D _ (Ne.symm hde)]
  rfl

/-- The commands that name no device read and write the gate and `cs_stack` (R114 to R116). -/
theorem ignores_exec_of_no_dev {i : Instr} (hi : i.dev? = none) (e : Dev) : Ignores e (exec i) := by
  refine ignores_exec_of_idle fun s D hp => ?_
  cases i <;> simp [Instr.dev?] at hi
  case gie v =>
    obtain ⟨-, answer⟩ := gieWritesIe s v hp
    obtain ⟨-, answer'⟩ := gieWritesIe (s.setDev e D) v hp
    rw [answer, answer']; rfl
  case csenter =>
    obtain ⟨-, full, free⟩ := csenterSavesAndClearsIe s hp
    obtain ⟨-, full', free'⟩ := csenterSavesAndClearsIe (s.setDev e D) hp
    by_cases h : s.csStack.length = s.csDepth
    · rw [full h, full' h]; rfl
    · rw [free h, free' h]; rfl
  case csexit =>
    obtain ⟨-, empty, pop⟩ := csexitRestoresIe s hp
    obtain ⟨-, empty', pop'⟩ := csexitRestoresIe (s.setDev e D) hp
    cases h : s.csStack with
    | nil => rw [empty h, empty' h]; rfl
    | cons v rest => rw [pop v rest h, pop' v rest h]; rfl

/-- Settles O29, by whether the command is wrapped, `IRQEN`, or one that names no device. -/
theorem commandsOfOtherDevicesAreIndependent : Obligations.CommandsOfOtherDevicesAreIndependent := by
  intro s i e D hne
  cases hi : i.dev? with
  | none => exact ignores_exec_of_no_dev hi e s D
  | some d =>
    have hde : d ≠ e := fun h => hne (h ▸ hi)
    cases hw : i.wrapped with
    | true => exact ignores_exec_wrapped hw hi hde s D
    | false =>
      obtain rfl : i = .irqen d := by cases i <;> simp_all [Instr.wrapped, Instr.dev?]
      exact ignores_exec_irqen hde s D

/-! ## Handlers -/

/-- What is done on another device, if that is initialised, ignores `e` when the rest does. -/
theorem Ignores.onInitialised {d e : Dev} (hde : d ≠ e) {k : Device → State → Result} (hk : ∀ E, Ignores e (k E)) :
    Ignores e fun s => onInitialised d s fun E => k E s := by
  intro s D
  cases hi : (s.dev d).initialised with
  | true =>
    have hi' : ((s.setDev e D).dev d).initialised = true := by rwa [s.dev_setDev_other e d D hde]
    simp only [onInitialised_eq d _ _ hi, onInitialised_eq d _ _ hi', s.dev_setDev_other e d D hde]
    exact hk _ s D
  | false =>
    have hi' : ((s.setDev e D).dev d).initialised = false := by rwa [s.dev_setDev_other e d D hde]
    simp only [onInitialised_fault d _ _ hi, onInitialised_fault d _ _ hi', andThen_fault_eq]

/-- `rx_take(d)` ignores any other device (R39). -/
theorem rxTake_setDev {d e : Dev} (hde : d ≠ e) (s : State) (D : Device) :
    rxTake d (s.setDev e D) = ((rxTake d s).1, (rxTake d s).2.setDev e D) := by
  simp only [rxTake, s.dev_setDev_other e d D hde, s.setDev_comm e d D _ (Ne.symm hde), State.setDev_freeIdx]

/-- `tx_put(d, b)` ignores any other device (R40). -/
theorem txPut_setDev {d e : Dev} (hde : d ≠ e) (b : Byte) (s : State) (D : Device) :
    txPut d b (s.setDev e D) = (txPut d b s).setDev e D := by
  simp only [txPut, s.dev_setDev_other e d D hde, s.setDev_comm e d D _ (Ne.symm hde)]

/-- The body of `HRX(d)` takes a byte of its own device and stores or counts it there (R140). -/
theorem ignores_bodyHrx {d e : Dev} (hde : d ≠ e) : Ignores e (bodyHrx d) := by
  refine Ignores.onInitialised hde fun _ s D => ?_
  simp only [rxTake_setDev hde, State.dev_setDev_other _ e d D hde]
  obtain ⟨-, he⟩ | ⟨-, he⟩ := ((rxTake d s).2.dev d).rx.enqueue_cases (rxTake d s).1 <;>
    simp only [he, andThen_next_eq, State.setDev_comm _ e d D _ (Ne.symm hde)]

/-- The body of `HTX(d)` puts a byte of its own device or disables its source (R141). -/
theorem ignores_bodyHtx {d e : Dev} (hde : d ≠ e) : Ignores e (bodyHtx d) := by
  refine Ignores.onInitialised hde fun E s D => ?_
  obtain ⟨-, he⟩ | ⟨-, he⟩ := E.tx.dequeue_cases <;>
    simp only [he, andThen_next_eq, State.setDev_comm _ e d D _ (Ne.symm hde), txPut_setDev hde]

/-- Entry and return touch no device, so a handler step ignores what its body ignores (R157, R158). -/
theorem Ignores.handlerStep {e : Dev} {body : State → Result} (h : Ignores e body) : Ignores e (handlerStep body) := by
  intro s D
  have entered : body (handlerEntry (s.setDev e D)) = _ := h (handlerEntry s) D
  rw [Machine.handlerStep, Machine.handlerStep, entered]
  cases body (handlerEntry s) <;> rfl

/-- A step that is enabled or stops ignores what its condition and its effect ignore. -/
theorem Ignores.ite {e : Dev} {p : State → Bool} {f : State → Result} (hp : ∀ s D, p (s.setDev e D) = p s)
    (hf : Ignores e f) (r : Fault) : Ignores e fun s => if p s then f s else .fault r := by
  intro s D
  by_cases h : p s
  · simp only [hp, if_pos h]; exact hf s D
  · simp only [hp, if_neg h, andThen_fault_eq]

/-- Settles O30: enabling and body of a handler step read and write its own device only. -/
theorem handlersOfOtherDevicesAreIndependent : Obligations.HandlersOfOtherDevicesAreIndependent := by
  intro s d e D hde
  have hrx (s : State) (D : Device) : hrxEnabled d (s.setDev e D) = hrxEnabled d s := by
    simp only [hrxEnabled, State.hasDev, State.ndev_setDev, State.setDev_ie, s.dev_setDev_other e d D hde]
  have htx (s : State) (D : Device) : htxEnabled d (s.setDev e D) = htxEnabled d s := by
    simp only [htxEnabled, State.hasDev, State.ndev_setDev, State.setDev_ie, s.dev_setDev_other e d D hde]
  exact ⟨Ignores.ite hrx (ignores_bodyHrx hde).handlerStep _ s D,
    Ignores.ite htx (ignores_bodyHtx hde).handlerStep _ s D⟩

/-! ## No byte is stranded -/

/-- Settles O49: every move keeps the invariant, and at `IDLE` no command is between its steps F2 and F4. -/
theorem noByteIsStranded : Obligations.NoByteIsStranded := by
  intro s t m d hinv h hp hi hcount
  obtain ⟨-, -, -, -, drain⟩ := move_inv h hinv
  by_contra hsource
  exact State.not_stranded drain (by simp [hp]) (by simp [hp]) d ⟨hi, Bool.eq_false_iff.2 hsource, hcount⟩

end Sys2Proof.Machine
end

section
/-! One enabled step of an interrupt handler as an exact next state (spec/43_interrupt_handlers.md R140, R141): its body on
its own device, then the whole step, which is that body between entry and return (R156 to R158). -/

namespace Sys2Proof.Machine

/-! ## The shared pieces -/

/-- `sat8(v + 1)` as arithmetic on the counter (R9, R31). -/
theorem sat8Inc_eq_ofNat_min (v : Byte) : sat8Inc v = BitVec.ofNat 8 (min (v.toNat + 1) 255) := by
  unfold sat8Inc
  split
  · next saturated => rw [saturated]; rfl
  · next below => apply BitVec.eq_of_toNat_eq; bv_omega

/-- Device `d` with its pending byte taken off the data register (R39), after the `n`-th reset event. -/
def Device.taken (n : Nat) (d : Dev) (D : Device) : Device :=
  { D with rxValid := false, rxLog := D.rxLog ++ [D.rxData], rxData := Config.freeRxData n d.val (D.rxLog ++ [D.rxData]) }

/-- `rx_take(d)` gives the pending byte and writes device `d` only (R39). -/
theorem rxTake_eq (d : Dev) (s : State) :
    rxTake d s = ((s.dev d).rxData, s.setDev d ((s.dev d).taken s.freeIdx d)) := rfl

@[simp] theorem Device.taken_rx (n : Nat) (d : Dev) (D : Device) : (D.taken n d).rx = D.rx := rfl
@[simp] theorem Device.taken_rxDrop (n : Nat) (d : Dev) (D : Device) : (D.taken n d).rxDrop = D.rxDrop := rfl

/-- A handler step whose body writes one device leaves that device written and the gate open (R157, R158). -/
theorem handlerStep_of_body {body : State → Result} {s : State} {d : Dev} {D : Device}
    (h : body (handlerEntry s) = .next ((handlerEntry s).setDev d D)) :
    handlerStep body s = .next { s.setDev d D with ie := true } := by
  rw [handlerStep, h, andThen_next_eq]
  rfl

/-! ## Bodies -/

/-- The body of `HRX(d)` stores the byte it takes at `head` where a cell is free (R140). -/
theorem bodyHrx_of_free {s : State} {d : Dev} (hi : (s.dev d).initialised = true)
    (h : (s.dev d).rx.count ≠ (s.dev d).rx.cap) :
    bodyHrx d s = .next (s.setDev d { (s.dev d).taken s.freeIdx d with
      rx := { (s.dev d).rx with storage := (s.dev d).rx.storage.write (s.dev d).rx.head (s.dev d).rxData,
                                head := ((s.dev d).rx.head + 1) % (s.dev d).rx.cap,
                                count := (s.dev d).rx.count + 1 } }) := by
  have hd := s.lt_of_initialised d hi
  simp only [bodyHrx, onInitialised_eq d s _ hi, rxTake_eq, s.dev_setDev_self d _ hd, Device.taken_rx,
    RingBuffer.enqueue_of_free _ h, State.setDev_setDev_self]

/-- The body of `HRX(d)` counts the byte it takes as dropped where the buffer is full (R140 (a)). -/
theorem bodyHrx_of_full {s : State} {d : Dev} (hi : (s.dev d).initialised = true)
    (h : (s.dev d).rx.count = (s.dev d).rx.cap) :
    bodyHrx d s = .next (s.setDev d { (s.dev d).taken s.freeIdx d with rxDrop := sat8Inc (s.dev d).rxDrop }) := by
  have hd := s.lt_of_initialised d hi
  simp only [bodyHrx, onInitialised_eq d s _ hi, rxTake_eq, s.dev_setDev_self d _ hd, Device.taken_rx,
    Device.taken_rxDrop, RingBuffer.enqueue_of_full _ h, State.setDev_setDev_self]

/-- The body of `HTX(d)` puts the byte at `tail` where there is a live element (R141). -/
theorem bodyHtx_of_live {s : State} {d : Dev} (hi : (s.dev d).initialised = true) (h : (s.dev d).tx.count ≠ 0) :
    bodyHtx d s = .next (s.setDev d { s.dev d with
      txData := (s.dev d).tx.cell (s.dev d).tx.tail, txReady := false,
      txLog := (s.dev d).txLog ++ [(s.dev d).tx.cell (s.dev d).tx.tail],
      tx := { (s.dev d).tx with tail := ((s.dev d).tx.tail + 1) % (s.dev d).tx.cap,
                                count := (s.dev d).tx.count - 1 } }) := by
  have hd := s.lt_of_initialised d hi
  simp only [bodyHtx, onInitialised_eq d s _ hi, RingBuffer.dequeue_of_live h, txPut, s.dev_setDev_self d _ hd,
    State.setDev_setDev_self]

/-- The body of `HTX(d)` disables its source where the send buffer is empty (R141 (b)). -/
theorem bodyHtx_of_empty {s : State} {d : Dev} (hi : (s.dev d).initialised = true) (h : (s.dev d).tx.count = 0) :
    bodyHtx d s = .next (s.setDev d { s.dev d with txie := false }) := by
  simp only [bodyHtx, onInitialised_eq d s _ hi, RingBuffer.dequeue_of_empty h]

/-! ## Whole steps -/

/-- An enabled step of `HRX(d)` is its body between entry and return (R156). -/
theorem hrxStep_of_body {s : State} {d : Dev} {D : Device} (hen : hrxEnabled d s = true)
    (h : bodyHrx d (handlerEntry s) = .next ((handlerEntry s).setDev d D)) :
    hrxStep d s = .next { s.setDev d D with ie := true } := (if_pos hen).trans (handlerStep_of_body h)

/-- An enabled step of `HTX(d)` is its body between entry and return (R156). -/
theorem htxStep_of_body {s : State} {d : Dev} {D : Device} (hen : htxEnabled d s = true)
    (h : bodyHtx d (handlerEntry s) = .next ((handlerEntry s).setDev d D)) :
    htxStep d s = .next { s.setDev d D with ie := true } := (if_pos hen).trans (handlerStep_of_body h)

/-- Settles O38, by whether the receive buffer is full. -/
theorem hrxTakesOneByte : Obligations.HrxTakesOneByte := by
  refine fun s d hen hi => ⟨fun free => hrxStep_of_body hen (bodyHrx_of_free hi free), fun full => ?_⟩
  rw [← sat8Inc_eq_ofNat_min]
  exact hrxStep_of_body hen (bodyHrx_of_full hi full)

/-- Settles O39, by whether the send buffer is empty. -/
theorem htxPutsOneByteOrDisables : Obligations.HtxPutsOneByteOrDisables := fun _ _ hen hi =>
  ⟨fun live => htxStep_of_body hen (bodyHtx_of_live hi live),
    fun empty => htxStep_of_body hen (bodyHtx_of_empty hi empty)⟩

end Sys2Proof.Machine
end

section
/-! Interrupt handlers against the other agents (spec/60_exceptions.md): when a handler step is enabled (R154), what it
leaves unchanged (R156 to R158), that two enabled ones may be taken in either order (R155), and that no other move lowers a
request (R153). -/

namespace Sys2Proof.Machine

/-! ## What a step does to its device -/

/-- Device `d` after a step of `HRX(d)`, after the `n`-th reset event (R140): a full buffer rejects the byte. -/
def Device.afterHrx (n : Nat) (d : Dev) (D : Device) : Device :=
  { D.taken n d with rx := (D.rx.enqueue D.rxData).1, rxDrop := if D.rx.isFull then sat8Inc D.rxDrop else D.rxDrop }

/-- A device after a step of its `HTX` (R141): an empty buffer gives no byte. -/
def Device.afterHtx (D : Device) : Device :=
  { D with tx := D.tx.dequeue.1, txie := D.txie && !D.tx.isEmpty, txReady := D.txReady && D.tx.isEmpty,
           txData := D.tx.dequeue.2.getD D.txData, txLog := D.txLog ++ D.tx.dequeue.2.toList }

/-- An enabled step of `HRX(d)` on an initialised device writes that device only: the gate it closes on entry is open again
on return. -/
theorem hrxStep_eq {s : State} {d : Dev} (hen : hrxEnabled d s = true) (hi : (s.dev d).initialised = true) :
    hrxStep d s = .next (s.setDev d ((s.dev d).afterHrx s.freeIdx d)) := by
  obtain ⟨-, gate, -⟩ := (hrxEnabled_iff d s).1 hen
  rw [← State.setDev_ie_true gate]
  apply hrxStep_of_body hen
  by_cases full : (s.dev d).rx.count = (s.dev d).rx.cap
  · rw [bodyHrx_of_full (s := handlerEntry s) hi full]
    simp [Device.afterHrx, RingBuffer.enqueue_of_full _ full, RingBuffer.isFull, full, Device.taken]
  · rw [bodyHrx_of_free (s := handlerEntry s) hi full]
    simp [Device.afterHrx, RingBuffer.enqueue_of_free _ full, RingBuffer.isFull, full, Device.taken]

/-- An enabled step of `HTX(d)` on an initialised device writes that device only. -/
theorem htxStep_eq {s : State} {d : Dev} (hen : htxEnabled d s = true) (hi : (s.dev d).initialised = true) :
    htxStep d s = .next (s.setDev d (s.dev d).afterHtx) := by
  obtain ⟨-, gate, source, ready⟩ := (htxEnabled_iff d s).1 hen
  rw [← State.setDev_ie_true gate]
  apply htxStep_of_body hen
  by_cases empty : (s.dev d).tx.count = 0
  · rw [bodyHtx_of_empty (s := handlerEntry s) hi empty]
    simp [Device.afterHtx, RingBuffer.dequeue_of_empty empty, RingBuffer.isEmpty, empty]
  · rw [bodyHtx_of_live (s := handlerEntry s) hi empty]
    simp [Device.afterHtx, RingBuffer.dequeue_of_live empty, RingBuffer.isEmpty, beq_false_of_ne empty, source]

/-- A step of `HRX(d)` that answers a next state was enabled, on an initialised device. -/
theorem hrxStep_next_eq {s t : State} {d : Dev} (h : hrxStep d s = .next t) :
    hrxEnabled d s = true ∧ (s.dev d).initialised = true ∧ t = s.setDev d ((s.dev d).afterHrx s.freeIdx d) := by
  obtain ⟨hen, hi, -⟩ := hrxStep_effect h
  rw [hrxStep_eq hen hi] at h
  cases h
  exact ⟨hen, hi, rfl⟩

/-- A step of `HTX(d)` that answers a next state was enabled, on an initialised device. -/
theorem htxStep_next_eq {s t : State} {d : Dev} (h : htxStep d s = .next t) :
    htxEnabled d s = true ∧ (s.dev d).initialised = true ∧ t = s.setDev d (s.dev d).afterHtx := by
  obtain ⟨hen, hi, -⟩ := htxStep_effect h
  rw [htxStep_eq hen hi] at h
  cases h
  exact ⟨hen, hi, rfl⟩

/-! ## When a step is enabled -/

/-- A handler whose body uses the buffers of device `d` stops with the fault of U1 before `INIT d` (R174). -/
theorem handlerStep_of_uninitialised {s : State} {d : Dev} {k : State → Device → Result}
    (hi : (s.dev d).initialised = false) :
    handlerStep (fun u => onInitialised d u (k u)) s = .fault (.uninitialised d) := by
  rw [handlerStep, onInitialised_fault d (handlerEntry s) _ hi, andThen_fault_eq]

/-- An enabled step of `HRX(d)` before `INIT d` (R174). -/
theorem hrxStep_of_uninitialised {s : State} {d : Dev} (hen : hrxEnabled d s = true)
    (hi : (s.dev d).initialised = false) : hrxStep d s = .fault (.uninitialised d) :=
  (if_pos hen).trans (handlerStep_of_uninitialised hi)

/-- An enabled step of `HTX(d)` before `INIT d` (R174). -/
theorem htxStep_of_uninitialised {s : State} {d : Dev} (hen : htxEnabled d s = true)
    (hi : (s.dev d).initialised = false) : htxStep d s = .fault (.uninitialised d) :=
  (if_pos hen).trans (handlerStep_of_uninitialised hi)

/-- A step of `HRX(d)` is not stuck exactly when R154 enables it. -/
theorem hrxStep_ne_notEnabled_iff {s : State} {d : Dev} :
    hrxStep d s ≠ .fault (.notEnabled (.hrx d)) ↔ hrxEnabled d s = true := by
  refine ⟨fun h => by_contra fun disabled => h (if_neg disabled), fun hen => ?_⟩
  cases hi : (s.dev d).initialised with
  | true => rw [hrxStep_eq hen hi]; exact nofun
  | false => rw [hrxStep_of_uninitialised hen hi]; exact nofun

/-- A step of `HTX(d)` is not stuck exactly when R154 enables it. -/
theorem htxStep_ne_notEnabled_iff {s : State} {d : Dev} :
    htxStep d s ≠ .fault (.notEnabled (.htx d)) ↔ htxEnabled d s = true := by
  refine ⟨fun h => by_contra fun disabled => h (if_neg disabled), fun hen => ?_⟩
  cases hi : (s.dev d).initialised with
  | true => rw [htxStep_eq hen hi]; exact nofun
  | false => rw [htxStep_of_uninitialised hen hi]; exact nofun

/-- Settles O37: `notEnabled` is the fault of a disabled step only, and between F1 and F3 the gate is closed (R59). -/
theorem handlerEnablingConditions : Obligations.HandlerEnablingConditions := by
  intro s d
  refine ⟨hrxStep_ne_notEnabled_iff.trans (hrxEnabled_iff d s), htxStep_ne_notEnabled_iff.trans (htxEnabled_iff d s),
    fun hfg hp => ?_⟩
  have busy : s.fg.phase ≠ .idle := by obtain hp | hp := hp <;> simp [hp]
  obtain ⟨-, gate, -⟩ := hfg busy
  exact ⟨if_neg (by simp [hrxEnabled, gate hp]), if_neg (by simp [htxEnabled, gate hp])⟩

/-! ## What a step leaves unchanged -/

/-- Enqueueing stores to the cell at `head` at most (R93). -/
theorem RingBuffer.cell_enqueue_of_ne {B : RingBuffer} {x : Nat} (b : Byte) (h : x ≠ B.head) :
    (B.enqueue b).1.cell x = B.cell x := by
  obtain ⟨-, he⟩ | ⟨-, he⟩ := B.enqueue_cases b <;> rw [he]
  exact Memory.read_write_other _ _ _ _ h

/-- `HRX(d)` stores to the cell at `head` of `B(d,RX)` at most (R140 (c)). -/
theorem hrxStep_cell {s t : State} {d : Dev} (h : hrxStep d s = .next t) (e : Dev) (q : Dir) (x : Nat)
    (hx : ¬ (e = d ∧ q = .rx ∧ x = (s.dev d).rx.head)) : t.cell e q x = s.cell e q x := by
  obtain ⟨-, -, rfl⟩ := hrxStep_next_eq h
  obtain ⟨rx, tx⟩ := State.dev_setDev_rel
    (R := fun e D E => (¬ (e = d ∧ x = (s.dev d).rx.head) → E.rx.cell x = D.rx.cell x) ∧ E.tx = D.tx)
    (fun _ _ => ⟨fun _ => rfl, rfl⟩)
    (D := (s.dev d).afterHrx s.freeIdx d)
    ⟨fun hhead => RingBuffer.cell_enqueue_of_ne _ fun heq => hhead ⟨rfl, heq⟩, rfl⟩ e
  cases q with
  | rx => exact rx fun ⟨he, hhead⟩ => hx ⟨he, rfl, hhead⟩
  | tx => exact congrArg (·.cell x) tx

/-- `HTX(d)` stores to no cell: dequeueing moves `tail` (R141 (d)). -/
theorem htxStep_sameMemory {s t : State} {d : Dev} (h : htxStep d s = .next t) : SameMemory s t := by
  obtain ⟨-, -, rfl⟩ := htxStep_next_eq h
  have stored : (s.dev d).afterHtx.tx.storage = (s.dev d).tx.storage := (s.dev d).tx.dequeue_storage
  exact fun e q x => State.cell_setDev (P := fun _ => False) (D := (s.dev d).afterHtx) rfl
    (fun y _ => congrArg (·.read y) stored) e q x fun ⟨_, _, never⟩ => never

/-- Settles O40: a handler step writes its own device, and of it the registers of its own direction. -/
theorem handlerStepsFrame : Obligations.HandlerStepsFrame := by
  intro s t d h
  obtain ⟨D, hd, rfl, hrxie⟩ : ∃ D, d.val < s.ndev ∧ t = s.setDev d D ∧ D.rxie = (s.dev d).rxie := by
    obtain h | h := h
    · obtain ⟨-, hi, ht⟩ := hrxStep_next_eq h
      exact ⟨_, s.lt_of_initialised d hi, ht, rfl⟩
    · obtain ⟨-, hi, ht⟩ := htxStep_next_eq h
      exact ⟨_, s.lt_of_initialised d hi, ht, rfl⟩
  refine ⟨⟨rfl, s.ndev_setDev d D, rfl, rfl, rfl⟩, rfl, rfl, rfl, rfl, fun e he => s.dev_setDev_other d e D he, ?rxie,
    fun hhtx => ⟨htxStep_sameMemory hhtx, ?htx⟩, fun hhrx => ?hrx⟩
  case rxie => rwa [s.dev_setDev_self d D hd]
  case htx =>
    obtain ⟨-, -, ht⟩ := htxStep_next_eq hhtx
    rw [ht, s.dev_setDev_self d _ hd]
    exact ⟨rfl, rfl⟩
  case hrx =>
    have cells := hrxStep_cell hhrx
    obtain ⟨-, -, ht⟩ := hrxStep_next_eq hhrx
    refine ⟨?_, ?_, fun a ha e q x hx => cells e q x (ha ▸ hx)⟩ <;> rw [ht, s.dev_setDev_self d _ hd] <;> rfl

/-! ## Two steps in either order -/

/-- The two handlers of one device write different registers, and neither reads what the other writes. -/
theorem Device.afterHtx_afterHrx (n : Nat) (d : Dev) (D : Device) :
    (D.afterHrx n d).afterHtx = D.afterHtx.afterHrx n d := rfl

/-- `HRX(d)` leaves `HTX(d)` enabled. -/
theorem htxEnabled_afterHrx {s : State} {d : Dev} (hd : d.val < s.ndev) (hen : htxEnabled d s = true) :
    htxEnabled d (s.setDev d ((s.dev d).afterHrx s.freeIdx d)) = true := by
  rw [htxEnabled_iff] at hen ⊢
  rwa [State.ndev_setDev, s.dev_setDev_self d _ hd]

/-- `HTX(d)` leaves `HRX(d)` enabled. -/
theorem hrxEnabled_afterHtx {s : State} {d : Dev} (hd : d.val < s.ndev) (hen : hrxEnabled d s = true) :
    hrxEnabled d (s.setDev d (s.dev d).afterHtx) = true := by
  rw [hrxEnabled_iff] at hen ⊢
  rwa [State.ndev_setDev, s.dev_setDev_self d _ hd]

/-- Both handlers of one device, in either order. -/
theorem hrxStep_htxStep_comm {s : State} {d : Dev} (hrx : hrxEnabled d s = true) (htx : htxEnabled d s = true)
    (hi : (s.dev d).initialised = true) :
    andThen (hrxStep d s) (htxStep d) = andThen (htxStep d s) (hrxStep d) := by
  have hd := s.lt_of_initialised d hi
  rw [hrxStep_eq hrx hi, htxStep_eq htx hi, andThen_next_eq, andThen_next_eq,
    htxStep_eq (htxEnabled_afterHrx hd htx) (by rwa [s.dev_setDev_self d _ hd]),
    hrxStep_eq (hrxEnabled_afterHtx hd hrx) (by rwa [s.dev_setDev_self d _ hd])]
  simp only [s.dev_setDev_self d _ hd, State.setDev_setDev_self, State.setDev_freeIdx, Device.afterHtx_afterHrx]

/-- A step of `HRX(d)` ignores the other devices (R132). -/
theorem ignores_hrxStep {d e : Dev} (hde : d ≠ e) : Ignores e (hrxStep d) := fun s D =>
  (handlersOfOtherDevicesAreIndependent s d e D hde).1

/-- A step of `HTX(d)` ignores the other devices (R132). -/
theorem ignores_htxStep {d e : Dev} (hde : d ≠ e) : Ignores e (htxStep d) := fun s D =>
  (handlersOfOtherDevicesAreIndependent s d e D hde).2

/-- Two steps that each write a device of their own, which the other ignores, may be taken in either order. -/
theorem andThen_comm_of_ignores {f g : State → Result} {d e : Dev} {s : State} {D E : Device} (hde : d ≠ e)
    (hf : Ignores e f) (hg : Ignores d g) (hD : f s = .next (s.setDev d D)) (hE : g s = .next (s.setDev e E)) :
    andThen (f s) g = andThen (g s) f := by
  calc andThen (f s) g
      = .next ((s.setDev e E).setDev d D) := by rw [hD, andThen_next_eq, hg, hE, andThen_next_eq]
    _ = .next ((s.setDev d D).setDev e E) := by rw [s.setDev_comm d e D E hde]
    _ = andThen (g s) f := by rw [hE, andThen_next_eq, hf, hD, andThen_next_eq]

/-- Settles O41: on one device the two handlers write different registers; on two devices each ignores the other's. -/
theorem enabledHandlerStepsCommute : Obligations.EnabledHandlerStepsCommute := by
  intro s d e
  refine ⟨fun hd he hid hie => ?_, fun hde hd he hid hie => ?_, fun hde hd he hid hie => ?_⟩
  · by_cases hde : d = e
    · subst hde; exact hrxStep_htxStep_comm hd he hid
    · exact andThen_comm_of_ignores hde (ignores_hrxStep hde) (ignores_htxStep (Ne.symm hde)) (hrxStep_eq hd hid)
        (htxStep_eq he hie)
  · exact andThen_comm_of_ignores hde (ignores_hrxStep hde) (ignores_hrxStep (Ne.symm hde)) (hrxStep_eq hd hid)
      (hrxStep_eq he hie)
  · exact andThen_comm_of_ignores hde (ignores_htxStep hde) (ignores_htxStep (Ne.symm hde)) (htxStep_eq hd hid)
      (htxStep_eq he hie)

/-! ## Requests -/

/-- What the block reads of the interface of a device (R37, R38). -/
def Device.inputs (D : Device) : Bool × Byte × Bool := (D.rxValid, D.rxData, D.txReady)

/-- What becomes of the requests of device `d`, between its registers before and after the move `m`: only `HRX(d)` ends a
receive request, and only `HTX(d)` that finds a byte ends a transmit-ready request. -/
def Device.KeepsRequests (m : Move) (d : Dev) (D E : Device) : Prop :=
  (D.rxValid = true → m ≠ .hrx d → E.rxValid = true ∧ E.rxData = D.rxData) ∧
  (D.txReady = true → (m ≠ .htx d ∨ D.tx.count = 0) → E.txReady = true)

/-- A move that leaves the inputs leaves the requests. -/
theorem Device.keepsRequests_of_inputs (m : Move) (d : Dev) {D E : Device} (h : E.inputs = D.inputs) :
    Device.KeepsRequests m d D E := by
  simp only [Device.inputs, Prod.mk.injEq] at h
  obtain ⟨valid, data, ready⟩ := h
  exact ⟨fun pending _ => ⟨valid.trans pending, data⟩, fun pending _ => ready.trans pending⟩

/-- FG leaves the inputs: a body writes buffers, and outside of it FG sets enables (R122 to R129). -/
theorem Device.Undergoes.inputs {d : Dev} {i? : Option Instr} {D E : Device} (h : Device.Undergoes d i? D E) :
    E.inputs = D.inputs := by
  have of_data {F : Device} (hE : E.data = F.data) : E.inputs = F.inputs :=
    show E.data.inputs = F.data.inputs by rw [hE]
  obtain ⟨-, hE⟩ | ⟨i, F, r, -, -, hF, hE⟩ := h
  · exact of_data hE
  · obtain ⟨B, B', v, rfl⟩ := bodyEffect_writes hF
    have written := of_data hE
    exact written

/-- What is read for a device the block does not have stays, since no move adds a device (R45). -/
theorem move_dev_of_absent {m : Move} {s t : State} {d : Dev} (h : move m s = .next t) (hd : ¬ d.val < s.ndev) :
    t.dev d = s.dev d := by
  have same : t.config.ndev = s.config.ndev := congrArg Config.ndev (move_config h)
  have count : t.ndev = s.ndev := by simpa [State.config, Config.ndev, State.ndev] using same
  rw [State.dev_of_absent hd, State.dev_of_absent (count ▸ hd)]

/-- `HTX` lowers the request only where it finds a byte (R141). -/
theorem Device.keepsRequests_afterHtx (e : Dev) (D : Device) : Device.KeepsRequests (.htx e) e D D.afterHtx := by
  refine ⟨fun pending _ => ⟨pending, rfl⟩, fun ready hm => ?_⟩
  have empty : D.tx.count = 0 := hm.resolve_left fun other => other rfl
  simp [Device.afterHtx, RingBuffer.isEmpty, ready, empty]

/-- Every move keeps the requests of every device, as it may. -/
theorem move_keepsRequests {m : Move} {s t : State} (h : move m s = .next t) (d : Dev) :
    Device.KeepsRequests m d (s.dev d) (t.dev d) := by
  by_cases hd : d.val < s.ndev
  · have refl (e : Dev) (D : Device) : Device.KeepsRequests m e D D := Device.keepsRequests_of_inputs m e rfl
    cases m with
    | fgMicro => exact Device.keepsRequests_of_inputs _ d (fgMicro_undergoes h hd).inputs
    | fgCommand => exact Device.keepsRequests_of_inputs _ d (fgCommand_undergoes h hd).inputs
    | hrx e =>
      obtain ⟨-, -, rfl⟩ := hrxStep_next_eq h
      refine State.dev_setDev_rel refl ?_ d
      exact ⟨fun _ other => absurd rfl other, fun ready _ => ready⟩
    | htx e =>
      obtain ⟨-, -, rfl⟩ := htxStep_next_eq h
      exact State.dev_setDev_rel refl (Device.keepsRequests_afterHtx e _) d
    | envRx e b =>
      obtain ⟨-, free, rfl⟩ := envRxStep_next h
      refine State.dev_setDev_rel refl ?_ d
      exact ⟨fun pending _ => (nomatch free.symm.trans pending), fun ready _ => ready⟩
    | envTxReady e =>
      obtain ⟨-, -, rfl⟩ := envTxReadyStep_next h
      refine State.dev_setDev_rel refl ?_ d
      exact ⟨fun pending _ => ⟨pending, rfl⟩, fun _ _ => rfl⟩
    | reset =>
      cases h
      rw [resetEvent_dev s d hd]
      exact Device.keepsRequests_of_inputs _ d rfl
  · exact Device.keepsRequests_of_inputs m d (congrArg Device.inputs (move_dev_of_absent h hd))

/-- Settles O43, by the moves: FG and the reset event leave the inputs, and ENV raises requests only. -/
theorem requestsAreNeverLost : Obligations.RequestsAreNeverLost := fun _ _ _ d h => move_keepsRequests h d

end Sys2Proof.Machine
end

section
/-! The reset event and the uses of a device before its `INIT` (spec/70_reset_and_hazards.md R170, R174). -/

namespace Sys2Proof.Machine

/-- Of the bodies, those of `INIT` and `RXDROPS` only are defined before `INIT` (R174, U1). -/
theorem bodyEffect_of_uninitialised {i : Instr} {D : Device} (hinit : ∀ d, i ≠ .init d) (hdrops : ∀ d, i ≠ .rxdrops d)
    (h : D.initialised = false) : bodyEffect i D = none := by
  cases i with
  | init d => exact absurd rfl (hinit d)
  | rxdrops d => exact absurd rfl (hdrops d)
  | irqen _ | gie _ | csenter | csexit => rfl
  | rxsize _ | rxdeq _ | rxpeek _ _ | send _ _ | sendb _ _ => exact if_neg (Bool.eq_false_iff.1 h)

/-- A wrapped command but `INIT` and `RXDROPS` stops with the fault of U1 before `INIT` of the device it names. -/
theorem exec_of_uninitialised {i : Instr} {d : Dev} {s : State} (hw : i.wrapped = true) (hi : i.dev? = some d)
    (hinit : ∀ e, i ≠ .init e) (hdrops : ∀ e, i ≠ .rxdrops e) (hp : s.fg.phase = .idle) (hd : d.val < s.ndev)
    (h : (s.dev d).initialised = false) : exec i s = .fault (.uninitialised d) := by
  rw [exec_wrapped_eq i d s hw hi hp hd, bodyEffect_of_uninitialised hinit hdrops h]

/-- Settles O22: the bodies of the five commands and of both handlers are not defined before `INIT`. -/
theorem useBeforeInitFaults : Obligations.UseBeforeInitFaults := by
  intro s d hd h
  refine ⟨fun hp i b bytes => ?_, fun hen => hrxStep_of_uninitialised hen h, fun hen => htxStep_of_uninitialised hen h⟩
  refine ⟨?_, ?_, ?_, ?_, ?_⟩ <;> exact exec_of_uninitialised rfl rfl nofun nofun hp hd h

/-- Settles O46: each device of the block becomes its `Device.afterReset`, which has these values and keeps the inputs. -/
theorem resetEventAbandonsTheCommand : Obligations.ResetEventAbandonsTheCommand := by
  intro s
  refine ⟨resetEvent s, rfl, rfl, rfl, rfl, rfl, resetEvent_ndev s, fun d hd => ?_⟩
  rw [resetEvent_dev s d hd]
  exact ⟨rfl, rfl, rfl, rfl, rfl, rfl, rfl, rfl, rfl⟩

end Sys2Proof.Machine
end

section
/-! The words of the vectors (spec/95_test_vectors.md section 2.2): a legal one is the header of its command, with payload
words that hold its bytes (R72, R76), and an illegal one meets a clause of R77. -/

namespace Sys2Proof

/-- The header of a command selects it with any payload words that hold its bytes, whatever their upper bytes (R72, R76). -/
theorem decodeHeader_encodeHeader_of_payloadBytes {i : Instr} {p : List Word} (hp : payloadBytes p = i.payload) :
    decodeHeader (encodeHeader i) p = .ok i := by
  cases i with
  | sendb d bytes =>
    have held : payloadBytes p = bytes := hp
    simp [encodeHeader, decodeHeader_header, held]
  | _ =>
    obtain rfl : p = [] := List.map_eq_nil_iff.1 hp
    exact decodeHeader_encodeHeader _

/-- A command is legal where the block has the device it names (R77 (c), R78). -/
theorem decodeCommand_eq_legal {ndev : Nat} {i : Instr} {w : Word} {p : List Word} (hw : encodeHeader i = w)
    (hp : payloadBytes p = i.payload) (hd : i.devExists ndev = true) : decodeCommand ndev w p = .legal i := by
  subst hw
  simp [decodeCommand, decodeHeader_encodeHeader_of_payloadBytes hp, hd]

/-- Settles O4: the legal words are the headers of their commands, and the illegal ones fall under R77 (c), (b) and (a). -/
theorem specWordsDecode : Obligations.SpecWordsDecode := by
  have absentDevice : decodeCommand 2 0x1200 [] = .illegal :=
    (illegalHeadersAreThoseListed 2 0x1200 []).2 (.inr (.inr (.inr (.inr (by decide)))))
  have mustBeZero : decodeCommand 2 0x3100 [] = .illegal :=
    (illegalHeadersAreThoseListed 2 0x3100 []).2 (.inr (.inr (.inr (.inl (by decide)))))
  have reserved : decodeCommand 2 0xD123 [] = .illegal :=
    (illegalHeadersAreThoseListed 2 0xD123 []).2 (.inl (by decide))
  refine ⟨?_, ?_, ?_, ?_, ?_, ?_, ?_, absentDevice, mustBeZero, reserved⟩
  all_goals exact decodeCommand_eq_legal (by decide) (by decide) (by decide)

end Sys2Proof
end
